-- ==== Sys2Proof/Word.lean ====
section
/-! DEFINITION. The word types of the spec's notation (00_scope.md R8): every value of the unit is unsigned. -/

namespace Sys2Proof

/-- `u8` of 00_scope.md R8. -/
abbrev Byte := BitVec 8

/-- `u16` of 00_scope.md R8. -/
abbrev Half := BitVec 16

end Sys2Proof
end

