-- ==== Sys2Proof/Config.lean ====
section
/-! DEFINITION. The parameters of 00_scope.md R6 and 92_eei_decisions.md, and the model's one family of
free values. -/

namespace Sys2Proof

/-- `FMTW`, bits of FMT: fixed (R6). -/
abbrev Config.fmtw : Nat := 5

/-- `NIBBLE_MAP`: for each output channel the nibble of a `BGRA4444` word that feeds it, nibble 0 the least
significant (92_eei_decisions.md D11, 93_implementation_defined.md U19). -/
structure NibbleMap where
  blue  : Fin 4
  green : Fin 4
  red   : Fin 4
  alpha : Fin 4
deriving DecidableEq, Repr

/-- The default map, B, G, R, A upward (D11, 30_encoding.md R77). -/
def NibbleMap.standard : NibbleMap := ⟨0, 1, 2, 3⟩

/-- The map is a permutation of the four nibbles (92_eei_decisions.md, open parameters). -/
abbrev NibbleMap.isPermutation (m : NibbleMap) : Prop := [m.blue, m.green, m.red, m.alpha].Nodup

/-- The parameters that the model takes (R6; NIBBLE_MAP by D11). They are fixed for a unit and no step changes
them (10_state.md R11); how they reach the step is said in log 1. -/
structure Params where
  /-- `DIMW`, bits of WIDTH and HEIGHT (R6). -/
  dimw    : Nat
  /-- `NIBBLE_MAP` (log 19). -/
  nibbles : NibbleMap
deriving DecidableEq, Repr

/-- `LENW`, bits of SRC_LEN, DST_LEN and of every byte offset: fixed by DIMW (R6). -/
abbrev Params.lenw (p : Params) : Nat := 2 * p.dimw + 2

/-- Bits of SEQ (10_state.md R18). -/
abbrev Params.seqw (p : Params) : Nat := 2 * p.dimw

/-- What R6 and D11 ask of the parameters. -/
abbrev Params.legal (p : Params) : Prop := 3 ≤ p.dimw ∧ p.nibbles.isPermutation

/-- The defaults of R6 and D11: those of `State.reset` (log 1, log 19). -/
def Params.standard : Params := ⟨16, NibbleMap.standard⟩

/-- The free values: the `n`-th value of width `w` that the spec leaves unspecified. It has no body, so no
proof can see a value of it. Applied to the counter `State.free` (log 14). -/
opaque Config.freeValue (w : Nat) (n : Nat) : BitVec w

end Sys2Proof
end

