-- ==== Sys2Proof/Syntax.lean ====
section
/-! DEFINITION. The instructions: one constructor per row of spec/opcode_table.json, and the encoded form of
an instruction (30_encoding.md R70: a command is the tuple of the five command registers). -/

namespace Sys2Proof

/-- The operands of a CMD instruction (30_encoding.md R70): unsigned numbers, used as they are. SRC and DST
themselves stand beside the instruction (R71), in the machine's two memories. -/
structure CmdArgs where
  width  : Nat
  height : Nat
  srcLen : Nat
  dstLen : Nat
deriving DecidableEq, Repr

/-- One constructor per row of spec/opcode_table.json, in its order: the 32 FMT codes (R72), then the two
pulses of CTRL. -/
inductive Instr where
  -- 41_byte_lane.md
  | rgba8888 (a : CmdArgs)
  | bgra8888 (a : CmdArgs)
  | argb8888 (a : CmdArgs)
  | abgr8888 (a : CmdArgs)
  | rgb888 (a : CmdArgs)
  | bgr888 (a : CmdArgs)
  | bgrx8888 (a : CmdArgs)
  | uvlx8888 (a : CmdArgs)
  | uvwq8888 (a : CmdArgs)
  -- 42_packed_bit.md
  | rgb565 (a : CmdArgs)
  | bgr565 (a : CmdArgs)
  | bgra4444 (a : CmdArgs)
  | bgra5551 (a : CmdArgs)
  | bgrx5551 (a : CmdArgs)
  -- 43_scalar.md
  | i8 (a : CmdArgs)
  | ia88 (a : CmdArgs)
  | a8 (a : CmdArgs)
  | uv88 (a : CmdArgs)
  -- 44_colorkey.md
  | rgb888Bluescreen (a : CmdArgs)
  | bgr888Bluescreen (a : CmdArgs)
  -- 45_dxt1.md
  | dxt1 (a : CmdArgs)
  | dxt1OneBitAlpha (a : CmdArgs)
  -- refused formats: R155, R184 to R186, and the unassigned codes, R73
  | p8 (a : CmdArgs)
  | dxt3 (a : CmdArgs)
  | dxt5 (a : CmdArgs)
  | float16 (a : CmdArgs)
  | unassigned26 (a : CmdArgs)
  | unassigned27 (a : CmdArgs)
  | unassigned28 (a : CmdArgs)
  | unassigned29 (a : CmdArgs)
  | unassigned30 (a : CmdArgs)
  | unassigned31 (a : CmdArgs)
  -- 46_dispatch.md, the pulses of CTRL
  | start
  | ack
deriving DecidableEq, Repr

/-- The contents of the five command registers (10_state.md R12). WIDTH and HEIGHT have DIMW bits, SRC_LEN and
DST_LEN have LENW (00_scope.md R6): numbers, since DIMW is a parameter (R7), each below its own power of two
(`Cmd.fits`). -/
structure Cmd where
  fmt    : BitVec Config.fmtw
  width  : Nat
  height : Nat
  srcLen : Nat
  dstLen : Nat
deriving DecidableEq, Repr

/-- An encoded instruction: the CMD format (the bits of the five command registers as one number) or the CTRL
format (the two bits of CTRL). The two are told apart by the register they stand in, not by a bit of theirs
(log 8). -/
inductive Encoded where
  | cmd (w : Nat)
  | ctrl (v : BitVec 2)
deriving DecidableEq, Repr

end Sys2Proof
end

