-- ==== Sys2Proof/WellFormed.lean ====
section
/-! DEFINITION. Which instructions have an encoding: every operand fits its register (30_encoding.md R70,
00_scope.md R6). -/

namespace Sys2Proof

/-- The operands fit the registers WIDTH, HEIGHT, SRC_LEN and DST_LEN of a unit with these parameters. -/
abbrev CmdArgs.fits (p : Params) (a : CmdArgs) : Prop :=
  a.width < 2 ^ p.dimw ∧ a.height < 2 ^ p.dimw ∧ a.srcLen < 2 ^ p.lenw ∧ a.dstLen < 2 ^ p.lenw

/-- Each command register holds a value of its width (10_state.md R12, 00_scope.md R6). -/
abbrev Cmd.fits (p : Params) (c : Cmd) : Prop :=
  c.width < 2 ^ p.dimw ∧ c.height < 2 ^ p.dimw ∧ c.srcLen < 2 ^ p.lenw ∧ c.dstLen < 2 ^ p.lenw

/-- The operands of a CMD instruction; the pulses have none. -/
def Instr.args? : Instr → Option CmdArgs
  | .rgba8888 a => some a
  | .bgra8888 a => some a
  | .argb8888 a => some a
  | .abgr8888 a => some a
  | .rgb888 a => some a
  | .bgr888 a => some a
  | .bgrx8888 a => some a
  | .uvlx8888 a => some a
  | .uvwq8888 a => some a
  | .rgb565 a => some a
  | .bgr565 a => some a
  | .bgra4444 a => some a
  | .bgra5551 a => some a
  | .bgrx5551 a => some a
  | .i8 a => some a
  | .ia88 a => some a
  | .a8 a => some a
  | .uv88 a => some a
  | .rgb888Bluescreen a => some a
  | .bgr888Bluescreen a => some a
  | .dxt1 a => some a
  | .dxt1OneBitAlpha a => some a
  | .p8 a => some a
  | .dxt3 a => some a
  | .dxt5 a => some a
  | .float16 a => some a
  | .unassigned26 a => some a
  | .unassigned27 a => some a
  | .unassigned28 a => some a
  | .unassigned29 a => some a
  | .unassigned30 a => some a
  | .unassigned31 a => some a
  | .start => none
  | .ack => none

/-- An instruction is well formed when its operands fit their registers. -/
def Instr.wellFormed (p : Params) (i : Instr) : Bool :=
  match i.args? with
  | some a => decide (a.fits p)
  | none => true

end Sys2Proof
end

