-- ==== Sys2Proof/Decode.lean ====
section
/-! DEFINITION. Decoding and encoding (30_encoding.md R70 to R73, 10_state.md R13, spec/opcode_table.json),
and the host's numbering of an instruction's bits. -/

namespace Sys2Proof

/-- Why an encoded word is no single instruction. A write of CTRL may carry no pulse, or both, which are
two instructions, ACK then START (10_state.md R13). -/
inductive DecodeReject where
  | noPulse
  | twoPulses
deriving DecidableEq, Repr

/-- The operand fields of a command, read as unsigned numbers (30_encoding.md R70). -/
def Cmd.args (c : Cmd) : CmdArgs where
  width := c.width
  height := c.height
  srcLen := c.srcLen
  dstLen := c.dstLen

/-- FMT selects the operation (30_encoding.md R70, R72, R73): all 32 codes have a row of their own. -/
def decodeCmd (c : Cmd) : Instr :=
  match c.fmt.toNat with
  | 0 => .rgba8888 c.args
  | 1 => .bgra8888 c.args
  | 2 => .argb8888 c.args
  | 3 => .abgr8888 c.args
  | 4 => .rgb888 c.args
  | 5 => .bgr888 c.args
  | 6 => .bgrx8888 c.args
  | 7 => .uvlx8888 c.args
  | 8 => .uvwq8888 c.args
  | 9 => .rgb565 c.args
  | 10 => .bgr565 c.args
  | 11 => .bgra4444 c.args
  | 12 => .bgra5551 c.args
  | 13 => .bgrx5551 c.args
  | 14 => .i8 c.args
  | 15 => .ia88 c.args
  | 16 => .a8 c.args
  | 17 => .uv88 c.args
  | 18 => .rgb888Bluescreen c.args
  | 19 => .bgr888Bluescreen c.args
  | 20 => .dxt1 c.args
  | 21 => .dxt1OneBitAlpha c.args
  | 22 => .p8 c.args
  | 23 => .dxt3 c.args
  | 24 => .dxt5 c.args
  | 25 => .float16 c.args
  | 26 => .unassigned26 c.args
  | 27 => .unassigned27 c.args
  | 28 => .unassigned28 c.args
  | 29 => .unassigned29 c.args
  | 30 => .unassigned30 c.args
  | _ => .unassigned31 c.args   -- five bits: 31 is the only code left

/-- Bit 0 of CTRL is START, bit 1 is ACK (10_state.md R12, R13). -/
def decodeCtrl (v : BitVec 2) : Except DecodeReject Instr :=
  match v.toNat with
  | 1 => .ok .start
  | 2 => .ok .ack
  | 0 => .error .noPulse
  | _ => .error .twoPulses

/-- The bits of the five command registers as one number, in the order of the register numbers (10_state.md
R12): FMT in bits 4:0, where spec/opcode_table.json numbers it, then WIDTH, HEIGHT, SRC_LEN, DST_LEN, each in
the bits it has (log 8). -/
def Cmd.pack (p : Params) (c : Cmd) : Nat :=
  c.fmt.toNat + 2 ^ Config.fmtw * (c.width + 2 ^ p.dimw * (c.height + 2 ^ p.dimw *
    (c.srcLen + 2 ^ p.lenw * c.dstLen)))

/-- The registers behind such a number. Bits past DST_LEN do not exist and are ignored (10_state.md R12). -/
def Cmd.unpack (p : Params) (w : Nat) : Cmd :=
  let w1 := w / 2 ^ Config.fmtw
  let w2 := w1 / 2 ^ p.dimw
  let w3 := w2 / 2 ^ p.dimw
  let w4 := w3 / 2 ^ p.lenw
  ⟨BitVec.ofNat Config.fmtw w, w1 % 2 ^ p.dimw, w2 % 2 ^ p.dimw, w3 % 2 ^ p.lenw, w4 % 2 ^ p.lenw⟩

/-- How many bits a command has: the five registers (30_encoding.md R70). -/
def Params.cmdw (p : Params) : Nat := Config.fmtw + p.dimw + p.dimw + p.lenw + p.lenw

/-- Total: one instruction, or a named reason why there is not exactly one. -/
def decode (p : Params) : Encoded → Except DecodeReject Instr
  | .cmd w => .ok (decodeCmd (Cmd.unpack p w))
  | .ctrl v => decodeCtrl v

/-- The single-pulse words of one CTRL value, in the order in which they act: ACK, then START (10_state.md
R13). -/
def pulseWords (v : BitVec 2) : List Encoded :=
  (if v.getLsbD 1 then [.ctrl 2#2] else []) ++ (if v.getLsbD 0 then [.ctrl 1#2] else [])

/-- The register tuple of the command with this FMT code and these operands. An operand too wide for its
register loses the bits that do not exist (10_state.md R12; log 5). -/
def CmdArgs.toCmd (p : Params) (fmt : BitVec Config.fmtw) (a : CmdArgs) : Cmd where
  fmt := fmt
  width := a.width % 2 ^ p.dimw
  height := a.height % 2 ^ p.dimw
  srcLen := a.srcLen % 2 ^ p.lenw
  dstLen := a.dstLen % 2 ^ p.lenw

/-- The CMD encoding of an FMT code with these operands. -/
def CmdArgs.encode (p : Params) (fmt : BitVec Config.fmtw) (a : CmdArgs) : Encoded :=
  .cmd ((a.toCmd p fmt).pack p)

/-- The encoding of an instruction: FMT codes of 30_encoding.md R72 and R73, pulse bits of 10_state.md R13. -/
def encode (p : Params) : Instr → Encoded
  | .rgba8888 a => a.encode p 0
  | .bgra8888 a => a.encode p 1
  | .argb8888 a => a.encode p 2
  | .abgr8888 a => a.encode p 3
  | .rgb888 a => a.encode p 4
  | .bgr888 a => a.encode p 5
  | .bgrx8888 a => a.encode p 6
  | .uvlx8888 a => a.encode p 7
  | .uvwq8888 a => a.encode p 8
  | .rgb565 a => a.encode p 9
  | .bgr565 a => a.encode p 10
  | .bgra4444 a => a.encode p 11
  | .bgra5551 a => a.encode p 12
  | .bgrx5551 a => a.encode p 13
  | .i8 a => a.encode p 14
  | .ia88 a => a.encode p 15
  | .a8 a => a.encode p 16
  | .uv88 a => a.encode p 17
  | .rgb888Bluescreen a => a.encode p 18
  | .bgr888Bluescreen a => a.encode p 19
  | .dxt1 a => a.encode p 20
  | .dxt1OneBitAlpha a => a.encode p 21
  | .p8 a => a.encode p 22
  | .dxt3 a => a.encode p 23
  | .dxt5 a => a.encode p 24
  | .float16 a => a.encode p 25
  | .unassigned26 a => a.encode p 26
  | .unassigned27 a => a.encode p 27
  | .unassigned28 a => a.encode p 28
  | .unassigned29 a => a.encode p 29
  | .unassigned30 a => a.encode p 30
  | .unassigned31 a => a.encode p 31
  | .start => .ctrl 1
  | .ack => .ctrl 2

/-- The encoded instruction behind a word of the opcode table. The CTRL rows (1 or 2 bits) and the CMD rows
(5 bits) use the same numbers, since they stand in different registers; a word in whole bytes is read as a
CMD word (log 8). -/
def tableWord (nbits w : Nat) : Encoded :=
  if nbits < Config.fmtw then .ctrl (BitVec.ofNat 2 (w % 2 ^ nbits))
  else .cmd (w % 2 ^ nbits)

/-- What the decoder of a unit with the default parameters reads from an instruction of the opcode table. -/
def decodeTableWord (nbits w : Nat) : Option Instr :=
  match decode Params.standard (tableWord nbits w) with
  | .ok i => some i
  | .error _ => none

end Sys2Proof
end

