-- ==== Sys2Proof/Machine/State.lean ====
section
/-! DEFINITION. The state of DEC and of the HOST's side of its interface (10_state.md, 20_memory.md), the
reasons a step can stop, and the state after reset (10_state.md R23). Plain data throughout. -/

namespace Sys2Proof.Machine

/-- An output pixel `[R, G, B, A]` (30_encoding.md R74). -/
structure Pixel where
  r : Byte
  g : Byte
  b : Byte
  a : Byte
deriving DecidableEq, Repr

/-- A colour of three channels (10_state.md R17, `C0` and `C1`). -/
structure Rgb where
  r : Byte
  g : Byte
  b : Byte
deriving DecidableEq, Repr

/-- `IN[0..3]`, the source bytes of the current pixel (10_state.md R17). -/
structure InReg where
  i0 : Byte
  i1 : Byte
  i2 : Byte
  i3 : Byte
deriving DecidableEq, Repr

/-- `B[0..7]`, the bytes of the current DXT1 block (10_state.md R17, 30_encoding.md R80). -/
structure Block where
  b0 : Byte
  b1 : Byte
  b2 : Byte
  b3 : Byte
  b4 : Byte
  b5 : Byte
  b6 : Byte
  b7 : Byte
deriving DecidableEq, Repr

/-- `PAL[0..3]` (10_state.md R17, 45_dxt1.md R178). -/
structure Palette where
  p0 : Pixel
  p1 : Pixel
  p2 : Pixel
  p3 : Pixel
deriving DecidableEq, Repr

/-- The working registers of 10_state.md R17 and the one-bit predicates of R19. Written and read by DEC
only; nothing in them outlives a pixel or a block. -/
structure Work where
  inp    : InReg
  blk    : Block
  raw0   : Half
  raw1   : Half
  c0     : Rgb
  c1     : Rgb
  pal    : Palette
  pixel  : Pixel
  mode4  : Bool
  abit   : Bool
  keyhit : Bool
deriving DecidableEq, Repr

/-- `STATUS.STATE` (10_state.md R14). -/
inductive UnitState where
  | idle
  | busy
  | done
  | error
deriving DecidableEq, Repr

/-- `ERR.CODE` (10_state.md R15). -/
inductive ErrCode where
  | none
  | unsupportedFormat
  | invalidDimensions
  | bufferSizeMismatch
deriving DecidableEq, Repr

/-- The ERR register: CODE and INFO (10_state.md R12, R15). -/
structure Err where
  code : ErrCode
  info : BitVec Config.fmtw
deriving DecidableEq, Repr

/-- The three exceptions of 60_exceptions.md R230, with what each records. -/
inductive ErrorKind where
  | unsupportedFormat (code : BitVec Config.fmtw)
  | invalidDimensions
  | bufferSizeMismatch
deriving DecidableEq, Repr

/-- Which command registers HOST has written since reset (10_state.md R24). -/
structure Written where
  fmt    : Bool
  width  : Bool
  height : Bool
  srcLen : Bool
  dstLen : Bool
deriving DecidableEq, Repr

/-- The registers 0 to 7 of 10_state.md R12. -/
inductive Reg where
  | fmt
  | width
  | height
  | srcLen
  | dstLen
  | ctrl
  | status
  | err
deriving DecidableEq, Repr

/-- What HOST can do next (10_state.md R10; log 6). A register is named by its number, and only 0 to 7
exist; an offset has LENW bits. `command` is the whole sequence of 30_encoding.md R71, five register writes
and the START pulse, given by the registers' bits (`Cmd.pack`; log 7, log 8). `wait` gives DEC one turn. -/
inductive HostMove where
  | write (reg : Nat) (v : Nat)
  | read (reg : Nat)
  | storeSrc (off : Nat) (v : Byte)
  | loadSrc (off : Nat)
  | storeDst (off : Nat) (v : Byte)
  | loadDst (off : Nat)
  | command (w : Nat)
  | reset
  | wait
deriving DecidableEq, Repr

/-- SRC or DST (20_memory.md R40): offset and byte pairs, offsets strictly rising, no byte equal to what an
unlisted offset reads as. -/
abbrev Memory := List Host.Cell

/-- What an offset that is not listed reads as: DESIGN CHOICE (log 4). -/
abbrev Memory.unlisted : Byte := 0#8

/-- The canonical form: offsets strictly rising, and nothing listed that reads the same unlisted. -/
abbrev Memory.wf (m : Memory) : Prop :=
  m.Pairwise (fun x y => x.1 < y.1) ∧ ∀ c ∈ m, c.2 ≠ Memory.unlisted

/-- Every listed offset has LENW bits (20_memory.md R40). -/
abbrev Memory.inSpace (p : Params) (m : Memory) : Prop := ∀ c ∈ m, c.1 < 2 ^ p.lenw

/-- The machine: DEC's registers and memories, and HOST's side of the interface. -/
structure State where
  /-- The unit's parameters (00_scope.md R6): no step changes them (log 1). -/
  params   : Params
  /-- FMT, WIDTH, HEIGHT, SRC_LEN, DST_LEN (10_state.md R12). -/
  cmd      : Cmd
  /-- Which of them HOST has written since reset (R24). -/
  written  : Written
  /-- CTRL: the pulses pending, bit 0 START, bit 1 ACK (R13). -/
  ctrl     : BitVec 2
  /-- STATUS.STATE (R14). -/
  status   : UnitState
  /-- ERR (R15). -/
  err      : Err
  /-- SEQ, `2*DIMW` bits (R18): it never wraps, so it is a number. -/
  seq      : Nat
  /-- SUB (R18). -/
  sub      : BitVec 4
  /-- The working registers (R17) and predicates (R19). -/
  work     : Work
  /-- SRC (20_memory.md R41). -/
  src      : Memory
  /-- DST (20_memory.md R42). -/
  dst      : Memory
  /-- HOST has written SRC or DST inside the declared ranges since this command's START (R56; log 12). -/
  tainted  : Bool
  /-- What HOST's last read returned (log 22). -/
  readData : Nat
  /-- How many free values have been used (log 14). -/
  free     : Nat
  /-- HOST's moves still to come, the next one first (log 6). -/
  bus      : List HostMove
deriving DecidableEq, Repr

/-- Faults. -/
inductive Fault where
  /-- Raised by DEC's turn when STATUS is BUSY and FMT has no loader. Validation refuses such a FMT
  (46_dispatch.md R203), so no run reaches it. Safe: the model stops (log 18). -/
  | noLoaderSelected (fmt : BitVec Config.fmtw)
deriving DecidableEq, Repr

/-- Refusals. -/
inductive Refusal where
  /-- Raised by `exec` for an instruction that has no meaning yet. Safe. -/
  | notModelled (mnemonic : String)
  /-- Raised by a HOST access that names a register above 7: such a register does not exist, and
  93_implementation_defined.md U17 gives the access no meaning. Safe. -/
  | noSuchRegister (reg : Nat)
  /-- Raised by a HOST load or store at an offset that has more than LENW bits: such an offset does not exist
  in SRC or DST (20_memory.md R40; log 22). Safe. -/
  | noSuchOffset (off : Nat)
  /-- Raised by the fetch of a word that is not one instruction. The words that a step fetches always
  are, so no step raises it. Safe. -/
  | undecodable (why : DecodeReject)
deriving DecidableEq, Repr

/-- The outcome of a step of this machine. -/
abbrev Result := Host.Outcome State Fault Refusal

/-- The working registers after reset: unspecified in 10_state.md R23, never read before written. All zero:
DESIGN CHOICE (log 3). -/
def Work.reset : Work where
  inp := ⟨0, 0, 0, 0⟩
  blk := ⟨0, 0, 0, 0, 0, 0, 0, 0⟩
  raw0 := 0
  raw1 := 0
  c0 := ⟨0, 0, 0⟩
  c1 := ⟨0, 0, 0⟩
  pal := ⟨⟨0, 0, 0, 0⟩, ⟨0, 0, 0, 0⟩, ⟨0, 0, 0, 0⟩, ⟨0, 0, 0, 0⟩⟩
  pixel := ⟨0, 0, 0, 0⟩
  mode4 := false
  abit := false
  keyhit := false

/-- The state after reset (10_state.md R23, 70_reset_and_hazards.md R260) of a unit with these parameters. The
five command registers are unspecified: the fields hold 0, DESIGN CHOICE (log 2), and none counts as
written. -/
def State.resetOf (p : Params) : State where
  params := p
  cmd := ⟨0, 0, 0, 0, 0⟩
  written := ⟨false, false, false, false, false⟩
  ctrl := 0
  status := .idle
  err := ⟨.none, 0⟩
  seq := 0
  sub := 0
  work := Work.reset
  src := []
  dst := []
  tainted := false
  readData := 0
  free := 0
  bus := []

/-- The state after reset of the unit with the default parameters (00_scope.md R6, 92_eei_decisions.md D11). -/
def State.reset : State := State.resetOf Params.standard

end Sys2Proof.Machine
end

