-- ==== Sys2Proof/Machine/Flags.lean ====
section
/-! DEFINITION. The one-bit predicates of 10_state.md R19. The unit has no other flags. -/

namespace Sys2Proof.Machine

/-- MODE4: the unsigned comparison of the raw endpoint words (45_dxt1.md R174). -/
def mode4 (raw0 raw1 : Half) : Bool := raw1.toNat < raw0.toNat

/-- ABIT: bit 7 of the second source byte of a 5551 pixel (42_packed_bit.md R134). -/
def abit (b : Byte) : Bool := b.getLsbD 7

/-- KEYHIT: the decoded triplet is exactly (0, 0, 255) (44_colorkey.md R160). -/
def keyhit (r g b : Byte) : Bool := r = 0#8 && g = 0#8 && b = 255#8

end Sys2Proof.Machine
end

