-- ==== Sys2Proof/Machine/Ops.lean ====
section
/-! DEFINITION. The named operations over memories and registers, taking an exception and leaving it. -/

namespace Sys2Proof.Machine

/-! ### Memory (20_memory.md R40, R50: every access is a byte access) -/

/-- The byte at an offset. -/
def Memory.read : Memory → Nat → Byte
  | [], _ => Memory.unlisted
  | (a, v) :: rest, off => if a = off then v else Memory.read rest off

/-- Store one byte, keeping the canonical form. -/
def Memory.write : Memory → Nat → Byte → Memory
  | [], off, v => if v = Memory.unlisted then [] else [(off, v)]
  | (a, w) :: rest, off, v =>
    if off < a then
      if v = Memory.unlisted then (a, w) :: rest else (off, v) :: (a, w) :: rest
    else if off = a then
      if v = Memory.unlisted then rest else (off, v) :: rest
    else (a, w) :: Memory.write rest off v

/-- `MemWrite(DST, 4p, 4, [R, G, B, A])` (00_scope.md R8, 20_memory.md R44). -/
def Memory.writePixel (m : Memory) (p : Nat) (px : Pixel) : Memory :=
  (((m.write (4 * p) px.r).write (4 * p + 1) px.g).write (4 * p + 2) px.b).write (4 * p + 3) px.a

/-- Pixel `p` of a buffer laid out as 20_memory.md R44 says. -/
def Memory.pixel (m : Memory) (p : Nat) : Pixel :=
  ⟨m.read (4 * p), m.read (4 * p + 1), m.read (4 * p + 2), m.read (4 * p + 3)⟩

/-- A free value in each of the bytes `0 .. n-1`; byte `a` gets free value number `k + a`. -/
def Memory.scramble (m : Memory) (k : Nat) : Nat → Memory
  | 0 => m
  | n + 1 => (Memory.scramble m k n).write n (Config.freeValue 8 (k + n))

/-- Every byte of DST offsets `0 .. DST_LEN-1` becomes unspecified (70_reset_and_hazards.md R261,
93_implementation_defined.md U4, U5; log 14). -/
def State.scrambleDst (s : State) : State :=
  { s with dst := s.dst.scramble s.free s.cmd.dstLen, free := s.free + s.cmd.dstLen }

/-! ### Registers (10_state.md R12 to R16, R24) -/

/-- The register that has this number (R12). -/
def Reg.ofNumber? : Nat → Option Reg
  | 0 => some .fmt
  | 1 => some .width
  | 2 => some .height
  | 3 => some .srcLen
  | 4 => some .dstLen
  | 5 => some .ctrl
  | 6 => some .status
  | 7 => some .err
  | _ => none

/-- The number HOST reads for `STATUS.STATE` (R14). -/
def UnitState.number : UnitState → Nat
  | .idle => 0
  | .busy => 1
  | .done => 2
  | .error => 3

/-- The number HOST reads for `ERR.CODE` (R15, 60_exceptions.md R230). -/
def ErrCode.number : ErrCode → Nat
  | .none => 0
  | .unsupportedFormat => 1
  | .invalidDimensions => 2
  | .bufferSizeMismatch => 3

/-- The ERR register as HOST reads it: CODE in bits 1:0, INFO in bits 12:8, 0 elsewhere (R12). -/
def Err.word (e : Err) : Nat := e.code.number + 256 * e.info.toNat

/-- All five command registers have been written since reset (R24). -/
abbrev Written.all (w : Written) : Prop :=
  w.fmt = true ∧ w.width = true ∧ w.height = true ∧ w.srcLen = true ∧ w.dstLen = true

/-- A free value of `w` bits as a number (log 14). -/
def freeNumber (w n : Nat) : Nat := (Config.freeValue w n).toNat

/-- What HOST reads from a register (R12, R13, R14, R15). A command register that HOST has not written since
reset reads as a free value, a new one at each read (R24; log 2). -/
def State.readReg (s : State) : Reg → Nat
  | .fmt => if s.written.fmt then s.cmd.fmt.toNat else freeNumber Config.fmtw s.free
  | .width => if s.written.width then s.cmd.width else freeNumber s.params.dimw s.free
  | .height => if s.written.height then s.cmd.height else freeNumber s.params.dimw s.free
  | .srcLen => if s.written.srcLen then s.cmd.srcLen else freeNumber s.params.lenw s.free
  | .dstLen => if s.written.dstLen then s.cmd.dstLen else freeNumber s.params.lenw s.free
  | .ctrl => 0
  | .status => s.status.number
  | .err => s.err.word

/-- A HOST write of FMT, WIDTH, HEIGHT, SRC_LEN or DST_LEN: ignored while BUSY (R16), otherwise the register
takes the bits it has (R12; log 5) and counts as written (R24). STATUS and ERR are read only, and CTRL holds
pulses, not a value: those writes are not made here. -/
def State.writeReg (s : State) (r : Reg) (v : Nat) : State :=
  if s.status = .busy then s
  else
    match r with
    | .fmt => { s with cmd := { s.cmd with fmt := BitVec.ofNat _ v }, written := { s.written with fmt := true } }
    | .width => { s with
        cmd := { s.cmd with width := v % 2 ^ s.params.dimw }, written := { s.written with width := true } }
    | .height => { s with
        cmd := { s.cmd with height := v % 2 ^ s.params.dimw }, written := { s.written with height := true } }
    | .srcLen => { s with
        cmd := { s.cmd with srcLen := v % 2 ^ s.params.lenw }, written := { s.written with srcLen := true } }
    | .dstLen => { s with
        cmd := { s.cmd with dstLen := v % 2 ^ s.params.lenw }, written := { s.written with dstLen := true } }
    | .ctrl => s
    | .status => s
    | .err => s

/-- The five register writes of a command (30_encoding.md R71). -/
def State.writeCmd (s : State) (c : Cmd) : State :=
  { s with cmd := c, written := ⟨true, true, true, true, true⟩ }

/-- The command registers as START sees them: a register not written since reset takes a free value (R24,
93_implementation_defined.md U1; log 2). -/
def State.sampledCmd (s : State) : Cmd where
  fmt := if s.written.fmt then s.cmd.fmt else Config.freeValue _ s.free
  width := if s.written.width then s.cmd.width else freeNumber s.params.dimw (s.free + 1)
  height := if s.written.height then s.cmd.height else freeNumber s.params.dimw (s.free + 2)
  srcLen := if s.written.srcLen then s.cmd.srcLen else freeNumber s.params.lenw (s.free + 3)
  dstLen := if s.written.dstLen then s.cmd.dstLen else freeNumber s.params.lenw (s.free + 4)

/-- START samples the command registers; the values it sees are fixed for this command (U1). -/
def State.sample (s : State) : State :=
  if s.written.all then s else { s with cmd := s.sampledCmd, free := s.free + 5 }

/-- CTRL holds these pending pulses (R13). -/
def State.setCtrl (s : State) (v : BitVec 2) : State := { s with ctrl := v }

/-! ### Taking an exception and leaving it (60_exceptions.md R236, R240) -/

/-- What an exception leaves in ERR (60_exceptions.md R230). -/
def ErrorKind.err : ErrorKind → Err
  | .unsupportedFormat code => ⟨.unsupportedFormat, code⟩
  | .invalidDimensions => ⟨.invalidDimensions, 0⟩
  | .bufferSizeMismatch => ⟨.bufferSizeMismatch, 0⟩

/-- Trap entry (60_exceptions.md R236): ERR and STATUS are written and nothing else. There is no handler,
no vector and no saved state. -/
def State.raise (s : State) (e : ErrorKind) : State :=
  { s with err := e.err, status := .error }

/-- The acknowledgement that leaves DONE or ERROR (46_dispatch.md R210, 60_exceptions.md R240): nothing in
IDLE, ignored in BUSY. -/
def State.acknowledge (s : State) : State :=
  match s.status with
  | .done => { s with status := .idle, err := ⟨.none, 0⟩ }
  | .error => { s with status := .idle, err := ⟨.none, 0⟩ }
  | .idle => s
  | .busy => s

/-- A command has passed validation (46_dispatch.md R202): ERR cleared, STATUS BUSY. -/
def State.accept (s : State) : State :=
  { s with err := ⟨.none, 0⟩, status := .busy, tainted := false }

/-- The last byte of DST has been written (46_dispatch.md R208): STATUS becomes DONE. If HOST broke its
duties during the command, every byte of DST is unspecified (93_implementation_defined.md U4; log 12). -/
def State.complete (s : State) : State :=
  if s.tainted then { s.scrambleDst with status := .done, tainted := false }
  else { s with status := .done }

/-- RESET (70_reset_and_hazards.md R260, R261): the state of 10_state.md R23, memories untouched, but DST
unspecified if a command was running (log 13). HOST's moves and the model's counter are not the unit's, and
the parameters are the unit's own. -/
def State.hostReset (s : State) : State :=
  let t := if s.status = .busy then s.scrambleDst else s
  { State.resetOf s.params with src := t.src, dst := t.dst, readData := t.readData, free := t.free, bus := t.bus }

/-! ### Outcomes -/

/-- Go on from a next state; stop where the first part stopped. -/
def andThen (r : Result) (f : State → Result) : Result :=
  match r with
  | .next s => f s
  | .fault e => .fault e
  | .refused e => .refused e

/-- The next state of an outcome, if there is one. -/
def nextState? : Result → Option State
  | .next s => some s
  | .fault _ => none
  | .refused _ => none

end Sys2Proof.Machine
end

