-- ==== Sys2Proof/Machine/Operands.lean ====
section
/-! DEFINITION. Fetching the source operand of a pixel or block, and the bit-expansion primitives of
40_bit_expansion.md. -/

namespace Sys2Proof.Machine

/-! ### Source operands -/

/-- `IN[0..bpp-1] = MemRead(SRC, bpp*p, bpp)` (46_dispatch.md R206, 20_memory.md R45); the other lanes keep
what they held. -/
def fetchPixel (src : Memory) (bpp p : Nat) (old : InReg) : InReg where
  i0 := if 0 < bpp then src.read (bpp * p) else old.i0
  i1 := if 1 < bpp then src.read (bpp * p + 1) else old.i1
  i2 := if 2 < bpp then src.read (bpp * p + 2) else old.i2
  i3 := if 3 < bpp then src.read (bpp * p + 3) else old.i3

/-- `B[0..7] = MemRead(SRC, 8*k, 8)` (45_dxt1.md R171). -/
def fetchBlock (src : Memory) (k : Nat) : Block where
  b0 := src.read (8 * k)
  b1 := src.read (8 * k + 1)
  b2 := src.read (8 * k + 2)
  b3 := src.read (8 * k + 3)
  b4 := src.read (8 * k + 4)
  b5 := src.read (8 * k + 5)
  b6 := src.read (8 * k + 6)
  b7 := src.read (8 * k + 7)

/-- Lane `n` of IN. -/
def InReg.lane (i : InReg) : Fin 4 → Byte
  | 0 => i.i0
  | 1 => i.i1
  | 2 => i.i2
  | 3 => i.i3

/-- The index byte of block row `y`: `B[4 + y]` (30_encoding.md R80). -/
def Block.indexByte (b : Block) : Fin 4 → Byte
  | 0 => b.b4
  | 1 => b.b5
  | 2 => b.b6
  | 3 => b.b7

/-- `PAL[i]` (45_dxt1.md R178, R180). -/
def Palette.entry (p : Palette) : Fin 4 → Pixel
  | 0 => p.p0
  | 1 => p.p1
  | 2 => p.p2
  | 3 => p.p3

/-! ### Words and fields -/

/-- The little-endian word `a + 256*b` (20_memory.md R48). -/
def word16 (a b : Byte) : Half := b ++ a

/-- The three fields of a 565 word, each pre-shifted to the top of a byte (40_bit_expansion.md R100,
30_encoding.md R75, R83). -/
def decomp565 (a b : Byte) : Byte × Byte × Byte :=
  let v := word16 a b
  (v.extractLsb' 0 5 ++ 0#3, v.extractLsb' 5 6 ++ 0#2, v.extractLsb' 11 5 ++ 0#3)

/-- P0 of a 5551 word, pre-shifted (30_encoding.md R78, R83). -/
def field5551P0 (a : Byte) : Byte := (a &&& 0x1F#8) <<< 3

/-- P1 of a 5551 word, across the two bytes, pre-shifted (R78, R83). -/
def field5551P1 (a b : Byte) : Byte := ((a &&& 0xE0#8) >>> 2) ||| ((b &&& 0x03#8) <<< 6)

/-- P2 of a 5551 word, pre-shifted (R78, R83). -/
def field5551P2 (b : Byte) : Byte := (b &&& 0x7C#8) <<< 1

/-- Nibble `n` of the 4444 word, nibble 0 the least significant (30_encoding.md R77). -/
def nibble (a b : Byte) : Fin 4 → BitVec 4
  | 0 => a.extractLsb' 0 4
  | 1 => a.extractLsb' 4 4
  | 2 => b.extractLsb' 0 4
  | 3 => b.extractLsb' 4 4

/-! ### Expansion to 8 bits -/

/-- `upsample(bits, value)` (40_bit_expansion.md R101). -/
def upsample (bits : Nat) (value : Byte) : Byte := value ||| (value >>> bits)

/-- `up5` (R101). -/
def up5 (value : Byte) : Byte := upsample 5 value

/-- `up6` (R101). -/
def up6 (value : Byte) : Byte := upsample 6 value

/-- `expand565` (R103). -/
def expand565 (a b : Byte) : Byte × Byte × Byte :=
  let f := decomp565 a b
  (up5 f.1, up6 f.2.1, up5 f.2.2)

/-- `rep4`: the nibble in both halves of the byte (R104). -/
def rep4 (n : BitVec 4) : Byte := n ++ n

/-- `sel1` (R105). -/
def sel1 (bit : Bool) : Byte := if bit then 255#8 else 0#8

end Sys2Proof.Machine
end

