-- ==== Sys2Proof/Machine/Validate.lean ====
section
/-! DEFINITION. Validation of a command at START (46_dispatch.md R203 to R205, 60_exceptions.md R230 to
R234). -/

namespace Sys2Proof.Machine

/-- FMT codes 20 and 21, the block-compressed pair (30_encoding.md R72). -/
def isBlockFormat (f : Nat) : Bool := f = 20 || f = 21

/-- Codes 0 to 21 have a loader (46_dispatch.md R200, R203 step 1). -/
def hasLoader (f : Nat) : Bool := f < 22

/-- The required length of SRC in bytes (46_dispatch.md R204), for a format that has a loader. -/
def requiredSrcLen (f w h : Nat) : Nat :=
  if f ∈ [0, 1, 2, 3, 6, 7, 8] then w * h * 4
  else if f ∈ [4, 5, 18, 19] then w * h * 3
  else if f ∈ [9, 10, 11, 12, 13, 15, 17] then w * h * 2
  else if f ∈ [14, 16] then w * h
  else ((w + 3) / 4) * ((h + 3) / 4) * 8

/-- The first failing check, if any, in the order of 46_dispatch.md R203. -/
def validate (c : Cmd) : Option ErrorKind :=
  let f := c.fmt.toNat
  let w := c.width
  let h := c.height
  if hasLoader f = false then some (.unsupportedFormat c.fmt)
  else if w = 0 ∨ h = 0 then some .invalidDimensions
  else if isBlockFormat f = true ∧ (w % 4 ≠ 0 ∨ h % 4 ≠ 0) then some .invalidDimensions
  else if c.dstLen ≠ w * h * 4 then some .bufferSizeMismatch
  else if c.srcLen ≠ requiredSrcLen f w h then some .bufferSizeMismatch
  else none

/-- START when the unit is not BUSY (46_dispatch.md R202): the registers are sampled (10_state.md R24), SEQ
and SUB cleared, the command validated, and the unit goes to BUSY or takes the exception. -/
def State.startCommand (s : State) : State :=
  let t := { s.sample with seq := 0, sub := 0 }
  match validate t.cmd with
  | some e => t.raise e
  | none => t.accept

/-- START: ignored while BUSY (10_state.md R16). -/
def State.start (s : State) : State :=
  if s.status = .busy then s else s.startCommand

end Sys2Proof.Machine
end

