-- ==== Sys2Proof/Machine/Sequencer.lean ====
section
/-! DEFINITION. The sequencer and the loops over pixels and blocks (10_state.md R18, 46_dispatch.md R206 to
R208, 45_dxt1.md R170 to R180), and the command as a whole (46_dispatch.md R211). -/

namespace Sys2Proof.Machine

/-! ### The DXT1 block datapath (45_dxt1.md R172 to R179) -/

/-- The reference colour of two bytes: F0 red, F1 green, F2 blue (45_dxt1.md R173). -/
def refColour (a b : Byte) : Rgb :=
  let e := expand565 a b
  ⟨e.1, e.2.1, e.2.2⟩

/-- `(wa*C0.ch + wb*C1.ch) div d`, exact and truncating (45_dxt1.md R176, R178). -/
def interpolate (wa wb d : Nat) (x y : Byte) : Byte :=
  BitVec.ofNat 8 ((wa * x.toNat + wb * y.toNat) / d)

/-- The interpolator on the three channels, with alpha 255 (45_dxt1.md R175, R177). -/
def mixColours (wa wb d : Nat) (c0 c1 : Rgb) : Pixel :=
  ⟨interpolate wa wb d c0.r c1.r, interpolate wa wb d c0.g c1.g, interpolate wa wb d c0.b c1.b, 255⟩

/-- A reference colour as a palette entry: alpha 255 (45_dxt1.md R178). -/
def Rgb.opaquePixel (c : Rgb) : Pixel := ⟨c.r, c.g, c.b, 255⟩

/-- The sentinel of 3-colour mode: black, transparent in the one-bit-alpha variant (45_dxt1.md R177). -/
def sentinel (oba : Bool) : Pixel := ⟨0, 0, 0, if oba then 0 else 255⟩

/-- The palette of a block (45_dxt1.md R178). -/
def makePalette (oba : Bool) (m4 : Bool) (c0 c1 : Rgb) : Palette where
  p0 := c0.opaquePixel
  p1 := c1.opaquePixel
  p2 := if m4 then mixColours 2 1 3 c0 c1 else mixColours 1 1 2 c0 c1
  p3 := if m4 then mixColours 1 2 3 c0 c1 else sentinel oba

/-- Column `x` of an index byte, the most significant pair leftmost (45_dxt1.md R179, 30_encoding.md R81). -/
def pixelIndex (row : Byte) (x : Fin 4) : Fin 4 :=
  match x with
  | 0 => (row.extractLsb' 6 2).toFin
  | 1 => (row.extractLsb' 4 2).toFin
  | 2 => (row.extractLsb' 2 2).toFin
  | 3 => (row.extractLsb' 0 2).toFin

/-! ### Datapaths: what the multiplexer selects (46_dispatch.md R200) -/

/-- What a linear loader yields for one pixel: PIXEL and the one-pixel predicates (10_state.md R17, R19). -/
structure LoadOut where
  pixel  : Pixel
  abit   : Bool
  keyhit : Bool

/-- A loader with its fixed parameters: a linear loader with its stride, or the block decompressor with its
option bit `oba` (46_dispatch.md R200, R206, R207). -/
inductive Datapath where
  | linear (bpp : Nat) (load : InReg → LoadOut)
  | block (oba : Bool)

/-- What SEQ counts up to (10_state.md R18): pixels, or blocks. -/
def Datapath.bound (d : Datapath) (c : Cmd) : Nat :=
  match d with
  | .linear _ _ => c.width * c.height
  | .block _ => (c.width / 4) * (c.height / 4)

/-- How many pixels, and so DEC turns, the command takes from the start. -/
def Datapath.turns (d : Datapath) (c : Cmd) : Nat :=
  match d with
  | .linear _ _ => d.bound c
  | .block _ => 16 * d.bound c

/-- One pixel of a linear format (46_dispatch.md R206): fetch, load, write, SEQ + 1. -/
def linearPixel (bpp : Nat) (load : InReg → LoadOut) (s : State) : State :=
  let p := s.seq
  let i := fetchPixel s.src bpp p s.work.inp
  let o := load i
  { s with
    work := { s.work with inp := i, pixel := o.pixel, mode4 := false, abit := o.abit, keyhit := o.keyhit }
    dst := s.dst.writePixel p o.pixel
    seq := s.seq + 1 }

/-- The working registers after the block fetch and palette stages (45_dxt1.md R171 to R178). -/
def blockStages (oba : Bool) (b : Block) (w : Work) : Work :=
  let raw0 := word16 b.b0 b.b1
  let raw1 := word16 b.b2 b.b3
  let c0 := refColour b.b0 b.b1
  let c1 := refColour b.b2 b.b3
  let m4 := mode4 raw0 raw1
  { w with blk := b, raw0 := raw0, raw1 := raw1, c0 := c0, c1 := c1, pal := makePalette oba m4 c0 c1,
           mode4 := m4, abit := false, keyhit := false }

/-- Column of the pixel inside its block: `SUB = 4*y + x` (10_state.md R18). -/
def subX (sub : BitVec 4) : Fin 4 := (sub.extractLsb' 0 2).toFin

/-- Row of the pixel inside its block. -/
def subY (sub : BitVec 4) : Fin 4 := (sub.extractLsb' 2 2).toFin

/-- The raster index of pixel `(x, y)` of block `k` in an image `width` pixels wide (45_dxt1.md R170, R180). -/
def blockRaster (width k : Nat) (x y : Fin 4) : Nat :=
  let bx := k % (width / 4)
  let by' := k / (width / 4)
  (4 * by' + y.val) * width + (4 * bx + x.val)

/-- One pixel of a DXT1 format (45_dxt1.md R181): the block is fetched and its palette made, the pixel's
index selects an entry, the entry is written, SUB and SEQ advance (10_state.md R18). The block is fetched
again for each of its pixels (20_memory.md R51; log 15). -/
def blockPixel (oba : Bool) (s : State) : State :=
  let k := s.seq
  let w := blockStages oba (fetchBlock s.src k) s.work
  let px := w.pal.entry (pixelIndex (w.blk.indexByte (subY s.sub)) (subX s.sub))
  { s with
    work := { w with pixel := px }
    dst := s.dst.writePixel (blockRaster s.cmd.width k (subX s.sub) (subY s.sub)) px
    sub := s.sub + 1
    seq := if s.sub = 15#4 then s.seq + 1 else s.seq }

/-- The loop body of the selected loader. -/
def Datapath.pixel (d : Datapath) (s : State) : State :=
  match d with
  | .linear bpp load => linearPixel bpp load s
  | .block oba => blockPixel oba s

/-- The end-of-loop test (10_state.md R18, 46_dispatch.md R208): DONE when SEQ has reached its bound. -/
def Datapath.finish (d : Datapath) (s : State) : State :=
  if d.bound s.cmd ≤ s.seq then s.complete else s

/-- One turn of DEC while it runs a command: one pixel, and DONE with the last one (10_state.md R14, R18). -/
def Datapath.turn (d : Datapath) (s : State) : State :=
  if s.seq < d.bound s.cmd then d.finish (d.pixel s) else d.finish s

/-- `n` turns one after another. -/
def Datapath.run (d : Datapath) : Nat → State → State
  | 0, s => s
  | n + 1, s => d.run n (d.turn s)

/-! ### The command as a whole (30_encoding.md R71, 46_dispatch.md R211) -/

/-- A command with a loader: while BUSY its register writes and its START are ignored (10_state.md R16);
otherwise the registers are written, START is pulsed, and an accepted command runs to DONE in this one
step (20_memory.md R52; log 7). -/
def State.runCommand (s : State) (fmt : BitVec Config.fmtw) (d : Datapath) (a : CmdArgs) : State :=
  if s.status = .busy then s
  else
    let t := (s.writeCmd (a.toCmd s.params fmt)).startCommand
    if t.status = .busy then d.run (d.turns t.cmd) t else t

/-- A command whose FMT has no loader: the same register writes and START, of which validation makes the
exception UnsupportedFormat (46_dispatch.md R203 step 1, 60_exceptions.md R231). -/
def State.refuseCommand (s : State) (fmt : BitVec Config.fmtw) (a : CmdArgs) : State :=
  if s.status = .busy then s else (s.writeCmd (a.toCmd s.params fmt)).startCommand

end Sys2Proof.Machine
end

