-- ==== Sys2Proof/Machine/ByteLane.lean ====
section
/-! DEFINITION. The byte-lane loaders (41_byte_lane.md R110 to R120), FMT codes 0 to 8. -/

namespace Sys2Proof.Machine

/-- The generic channel-order loader (41_byte_lane.md R110): the lane of each channel, alpha forced to 255
where the format has none. -/
def generic (ir ig ib : Fin 4) (ia : Option (Fin 4)) (i : InReg) : LoadOut where
  pixel := ⟨i.lane ir, i.lane ig, i.lane ib, match ia with | some l => i.lane l | none => 255⟩
  abit := false
  keyhit := false

/-- R111. -/
def pathRgba8888 : Datapath := .linear 4 (generic 0 1 2 (some 3))
/-- R112. -/
def pathBgra8888 : Datapath := .linear 4 (generic 2 1 0 (some 3))
/-- R113: the source bytes are green, blue, alpha, red. -/
def pathArgb8888 : Datapath := .linear 4 (generic 3 0 1 (some 2))
/-- R114. -/
def pathAbgr8888 : Datapath := .linear 4 (generic 3 2 1 (some 0))
/-- R115. -/
def pathRgb888 : Datapath := .linear 3 (generic 0 1 2 none)
/-- R116. -/
def pathBgr888 : Datapath := .linear 3 (generic 2 1 0 none)
/-- R117: stride 4, byte 3 ignored. -/
def pathBgrx8888 : Datapath := .linear 4 (generic 2 1 0 none)
/-- R118: decoded as RGBA8888. -/
def pathUvlx8888 : Datapath := .linear 4 (generic 0 1 2 (some 3))
/-- R119: decoded as RGBA8888. -/
def pathUvwq8888 : Datapath := .linear 4 (generic 0 1 2 (some 3))

/-- `RGBA8888`, R111. -/
def execRgba8888 (a : CmdArgs) (s : State) : Result := .next (s.runCommand 0 pathRgba8888 a)
/-- `BGRA8888`, R112. -/
def execBgra8888 (a : CmdArgs) (s : State) : Result := .next (s.runCommand 1 pathBgra8888 a)
/-- `ARGB8888`, R113. -/
def execArgb8888 (a : CmdArgs) (s : State) : Result := .next (s.runCommand 2 pathArgb8888 a)
/-- `ABGR8888`, R114. -/
def execAbgr8888 (a : CmdArgs) (s : State) : Result := .next (s.runCommand 3 pathAbgr8888 a)
/-- `RGB888`, R115. -/
def execRgb888 (a : CmdArgs) (s : State) : Result := .next (s.runCommand 4 pathRgb888 a)
/-- `BGR888`, R116. -/
def execBgr888 (a : CmdArgs) (s : State) : Result := .next (s.runCommand 5 pathBgr888 a)
/-- `BGRX8888`, R117. -/
def execBgrx8888 (a : CmdArgs) (s : State) : Result := .next (s.runCommand 6 pathBgrx8888 a)
/-- `UVLX8888`, R118. -/
def execUvlx8888 (a : CmdArgs) (s : State) : Result := .next (s.runCommand 7 pathUvlx8888 a)
/-- `UVWQ8888`, R119. -/
def execUvwq8888 (a : CmdArgs) (s : State) : Result := .next (s.runCommand 8 pathUvwq8888 a)

end Sys2Proof.Machine
end

