-- ==== Sys2Proof/Machine/ColorKey.lean ====
section
/-! DEFINITION. The colour-key loaders (44_colorkey.md R160 to R162), FMT codes 18 and 19. -/

namespace Sys2Proof.Machine

/-- `key(R, G, B)` (44_colorkey.md R160), on the decoded triplet. -/
def key (r g b : Byte) : LoadOut where
  pixel := if keyhit r g b then ⟨0, 0, 0, 0⟩ else ⟨r, g, b, 255⟩
  abit := false
  keyhit := keyhit r g b

/-- R161. -/
def loadRgb888Bluescreen (i : InReg) : LoadOut := key i.i0 i.i1 i.i2

/-- R162: routed by the BGR order first, then tested. -/
def loadBgr888Bluescreen (i : InReg) : LoadOut := key i.i2 i.i1 i.i0

/-- R161. -/
def pathRgb888Bluescreen : Datapath := .linear 3 loadRgb888Bluescreen
/-- R162. -/
def pathBgr888Bluescreen : Datapath := .linear 3 loadBgr888Bluescreen

/-- `RGB888_BLUESCREEN`, R161. -/
def execRgb888Bluescreen (a : CmdArgs) (s : State) : Result := .next (s.runCommand 18 pathRgb888Bluescreen a)
/-- `BGR888_BLUESCREEN`, R162. -/
def execBgr888Bluescreen (a : CmdArgs) (s : State) : Result := .next (s.runCommand 19 pathBgr888Bluescreen a)

end Sys2Proof.Machine
end

