-- ==== Sys2Proof/Machine/Dxt1.lean ====
section
/-! DEFINITION. The two operations of the block decompressor (45_dxt1.md R181, R182), FMT codes 20 and 21;
their datapath stands in Machine/Sequencer.lean. -/

namespace Sys2Proof.Machine

/-- R181: `oba = 0`. -/
def pathDxt1 : Datapath := .block false
/-- R182: `oba = 1`. -/
def pathDxt1OneBitAlpha : Datapath := .block true

/-- `DXT1`, R181. -/
def execDxt1 (a : CmdArgs) (s : State) : Result := .next (s.runCommand 20 pathDxt1 a)
/-- `DXT1_ONEBITALPHA`, R182. -/
def execDxt1OneBitAlpha (a : CmdArgs) (s : State) : Result := .next (s.runCommand 21 pathDxt1OneBitAlpha a)

end Sys2Proof.Machine
end

