-- ==== Sys2Proof/Machine/PackedBit.lean ====
section
/-! DEFINITION. The packed-bit loaders (42_packed_bit.md R130 to R136), FMT codes 9 to 13. `IN[0]` is the
byte `a` and `IN[1]` the byte `b` of the spec's pseudocode. -/

namespace Sys2Proof.Machine

/-- R131: red is the low field. -/
def loadRgb565 (i : InReg) : LoadOut :=
  let e := expand565 i.i0 i.i1
  ⟨⟨e.1, e.2.1, e.2.2, 255⟩, false, false⟩

/-- R132: blue is the low field. -/
def loadBgr565 (i : InReg) : LoadOut :=
  let e := expand565 i.i0 i.i1
  ⟨⟨e.2.2, e.2.1, e.1, 255⟩, false, false⟩

/-- R133, with the nibble of each channel as NIBBLE_MAP says (log 19). -/
def loadBgra4444 (m : NibbleMap) (i : InReg) : LoadOut :=
  let ch := fun n => rep4 (nibble i.i0 i.i1 n)
  ⟨⟨ch m.red, ch m.green, ch m.blue, ch m.alpha⟩, false, false⟩

/-- R134. -/
def loadBgra5551 (i : InReg) : LoadOut :=
  let bit := abit i.i1
  ⟨⟨up5 (field5551P2 i.i1), up5 (field5551P1 i.i0 i.i1), up5 (field5551P0 i.i0), sel1 bit⟩, bit, false⟩

/-- R135: the alpha bit is ignored. -/
def loadBgrx5551 (i : InReg) : LoadOut :=
  ⟨⟨up5 (field5551P2 i.i1), up5 (field5551P1 i.i0 i.i1), up5 (field5551P0 i.i0), 255⟩, false, false⟩

/-- R131. -/
def pathRgb565 : Datapath := .linear 2 loadRgb565
/-- R132. -/
def pathBgr565 : Datapath := .linear 2 loadBgr565
/-- R133. -/
def pathBgra4444 (m : NibbleMap) : Datapath := .linear 2 (loadBgra4444 m)
/-- R134. -/
def pathBgra5551 : Datapath := .linear 2 loadBgra5551
/-- R135. -/
def pathBgrx5551 : Datapath := .linear 2 loadBgrx5551

/-- `RGB565`, R131. -/
def execRgb565 (a : CmdArgs) (s : State) : Result := .next (s.runCommand 9 pathRgb565 a)
/-- `BGR565`, R132. -/
def execBgr565 (a : CmdArgs) (s : State) : Result := .next (s.runCommand 10 pathBgr565 a)
/-- `BGRA4444`, R133. -/
def execBgra4444 (a : CmdArgs) (s : State) : Result :=
  .next (s.runCommand 11 (pathBgra4444 s.params.nibbles) a)
/-- `BGRA5551`, R134. -/
def execBgra5551 (a : CmdArgs) (s : State) : Result := .next (s.runCommand 12 pathBgra5551 a)
/-- `BGRX5551`, R135. -/
def execBgrx5551 (a : CmdArgs) (s : State) : Result := .next (s.runCommand 13 pathBgrx5551 a)

end Sys2Proof.Machine
end

