-- ==== Sys2Proof/Machine/Scalar.lean ====
section
/-! DEFINITION. The scalar and dual-channel loaders (43_scalar.md R150 to R154), FMT codes 14 to 17. -/

namespace Sys2Proof.Machine

/-- R151: the byte broadcast to R, G, B. -/
def loadI8 (i : InReg) : LoadOut := ⟨⟨i.i0, i.i0, i.i0, 255⟩, false, false⟩

/-- R152: byte 0 broadcast, byte 1 alpha. -/
def loadIa88 (i : InReg) : LoadOut := ⟨⟨i.i0, i.i0, i.i0, i.i1⟩, false, false⟩

/-- R153: alpha only, black. -/
def loadA8 (i : InReg) : LoadOut := ⟨⟨0, 0, 0, i.i0⟩, false, false⟩

/-- R154: byte 0 to R, byte 1 to G. -/
def loadUv88 (i : InReg) : LoadOut := ⟨⟨i.i0, i.i1, 0, 255⟩, false, false⟩

/-- R151. -/
def pathI8 : Datapath := .linear 1 loadI8
/-- R152. -/
def pathIa88 : Datapath := .linear 2 loadIa88
/-- R153. -/
def pathA8 : Datapath := .linear 1 loadA8
/-- R154. -/
def pathUv88 : Datapath := .linear 2 loadUv88

/-- `I8`, R151. -/
def execI8 (a : CmdArgs) (s : State) : Result := .next (s.runCommand 14 pathI8 a)
/-- `IA88`, R152. -/
def execIa88 (a : CmdArgs) (s : State) : Result := .next (s.runCommand 15 pathIa88 a)
/-- `A8`, R153. -/
def execA8 (a : CmdArgs) (s : State) : Result := .next (s.runCommand 16 pathA8 a)
/-- `UV88`, R154. -/
def execUv88 (a : CmdArgs) (s : State) : Result := .next (s.runCommand 17 pathUv88 a)

end Sys2Proof.Machine
end

