-- ==== Sys2Proof/Machine/System.lean ====
section
/-! DEFINITION. The two pulses of CTRL (46_dispatch.md R202, R210; 10_state.md R13). Each consumes its own
pending bit. -/

namespace Sys2Proof.Machine

/-- `START`, R202: validation and BUSY or ERROR, in this one step; ignored while BUSY (10_state.md R16). -/
def execStart (s : State) : Result := .next (s.start.setCtrl (s.ctrl &&& 2#2))

/-- `ACK`, R210. -/
def execAck (s : State) : Result := .next (s.acknowledge.setCtrl (s.ctrl &&& 1#2))

end Sys2Proof.Machine
end

