-- ==== Sys2Proof/Machine/Unsupported.lean ====
section
/-! DEFINITION. The formats without a loader: their command takes the exception UnsupportedFormat
(43_scalar.md R155, 45_dxt1.md R184 to R186, 30_encoding.md R73), FMT codes 22 to 31. -/

namespace Sys2Proof.Machine

/-- `P8`, R155. -/
def execP8 (a : CmdArgs) (s : State) : Result := .next (s.refuseCommand 22 a)
/-- `DXT3`, R184. -/
def execDxt3 (a : CmdArgs) (s : State) : Result := .next (s.refuseCommand 23 a)
/-- `DXT5`, R185. -/
def execDxt5 (a : CmdArgs) (s : State) : Result := .next (s.refuseCommand 24 a)
/-- `FLOAT16`, R186. -/
def execFloat16 (a : CmdArgs) (s : State) : Result := .next (s.refuseCommand 25 a)
/-- Code 26, R73. -/
def execUnassigned26 (a : CmdArgs) (s : State) : Result := .next (s.refuseCommand 26 a)
/-- Code 27, R73. -/
def execUnassigned27 (a : CmdArgs) (s : State) : Result := .next (s.refuseCommand 27 a)
/-- Code 28, R73. -/
def execUnassigned28 (a : CmdArgs) (s : State) : Result := .next (s.refuseCommand 28 a)
/-- Code 29, R73. -/
def execUnassigned29 (a : CmdArgs) (s : State) : Result := .next (s.refuseCommand 29 a)
/-- Code 30, R73. -/
def execUnassigned30 (a : CmdArgs) (s : State) : Result := .next (s.refuseCommand 30 a)
/-- Code 31, R73. -/
def execUnassigned31 (a : CmdArgs) (s : State) : Result := .next (s.refuseCommand 31 a)

end Sys2Proof.Machine
end

