-- ==== Sys2Proof/Machine/Dispatch.lean ====
section
/-! DEFINITION. One arm per instruction. -/

namespace Sys2Proof.Machine

def exec (i : Instr) (s : State) : Host.Outcome State Fault Refusal :=
  match i with
  | .rgba8888 a => Sys2Proof.Machine.execRgba8888 a s
  | .bgra8888 a => Sys2Proof.Machine.execBgra8888 a s
  | .argb8888 a => Sys2Proof.Machine.execArgb8888 a s
  | .abgr8888 a => Sys2Proof.Machine.execAbgr8888 a s
  | .rgb888 a => Sys2Proof.Machine.execRgb888 a s
  | .bgr888 a => Sys2Proof.Machine.execBgr888 a s
  | .bgrx8888 a => Sys2Proof.Machine.execBgrx8888 a s
  | .uvlx8888 a => Sys2Proof.Machine.execUvlx8888 a s
  | .uvwq8888 a => Sys2Proof.Machine.execUvwq8888 a s
  | .rgb565 a => Sys2Proof.Machine.execRgb565 a s
  | .bgr565 a => Sys2Proof.Machine.execBgr565 a s
  | .bgra4444 a => Sys2Proof.Machine.execBgra4444 a s
  | .bgra5551 a => Sys2Proof.Machine.execBgra5551 a s
  | .bgrx5551 a => Sys2Proof.Machine.execBgrx5551 a s
  | .i8 a => Sys2Proof.Machine.execI8 a s
  | .ia88 a => Sys2Proof.Machine.execIa88 a s
  | .a8 a => Sys2Proof.Machine.execA8 a s
  | .uv88 a => Sys2Proof.Machine.execUv88 a s
  | .rgb888Bluescreen a => Sys2Proof.Machine.execRgb888Bluescreen a s
  | .bgr888Bluescreen a => Sys2Proof.Machine.execBgr888Bluescreen a s
  | .dxt1 a => Sys2Proof.Machine.execDxt1 a s
  | .dxt1OneBitAlpha a => Sys2Proof.Machine.execDxt1OneBitAlpha a s
  | .p8 a => Sys2Proof.Machine.execP8 a s
  | .dxt3 a => Sys2Proof.Machine.execDxt3 a s
  | .dxt5 a => Sys2Proof.Machine.execDxt5 a s
  | .float16 a => Sys2Proof.Machine.execFloat16 a s
  | .unassigned26 a => Sys2Proof.Machine.execUnassigned26 a s
  | .unassigned27 a => Sys2Proof.Machine.execUnassigned27 a s
  | .unassigned28 a => Sys2Proof.Machine.execUnassigned28 a s
  | .unassigned29 a => Sys2Proof.Machine.execUnassigned29 a s
  | .unassigned30 a => Sys2Proof.Machine.execUnassigned30 a s
  | .unassigned31 a => Sys2Proof.Machine.execUnassigned31 a s
  | .start => Sys2Proof.Machine.execStart s
  | .ack => Sys2Proof.Machine.execAck s

end Sys2Proof.Machine
end

