-- ==== Sys2Proof/Machine/Mux.lean ====
section
/-! DEFINITION. The format-dispatch multiplexer: the dispatch table (30_encoding.md R72, 46_dispatch.md R200)
and DEC's turn on the command that its registers hold. -/

namespace Sys2Proof.Machine

/-- The dispatch table: FMT code to loader, or nothing (46_dispatch.md R200). A constant of the unit (10_state.md
R22), whose one parameter is NIBBLE_MAP (log 19). -/
def loaderOf (m : NibbleMap) (fmt : BitVec Config.fmtw) : Option Datapath :=
  match fmt.toNat with
  | 0 => some pathRgba8888
  | 1 => some pathBgra8888
  | 2 => some pathArgb8888
  | 3 => some pathAbgr8888
  | 4 => some pathRgb888
  | 5 => some pathBgr888
  | 6 => some pathBgrx8888
  | 7 => some pathUvlx8888
  | 8 => some pathUvwq8888
  | 9 => some pathRgb565
  | 10 => some pathBgr565
  | 11 => some (pathBgra4444 m)
  | 12 => some pathBgra5551
  | 13 => some pathBgrx5551
  | 14 => some pathI8
  | 15 => some pathIa88
  | 16 => some pathA8
  | 17 => some pathUv88
  | 18 => some pathRgb888Bluescreen
  | 19 => some pathBgr888Bluescreen
  | 20 => some pathDxt1
  | 21 => some pathDxt1OneBitAlpha
  | _ => none   -- 22 to 31: no loader

/-- DEC's turn: while BUSY, one pixel of the running command by the loader that FMT selects; otherwise
nothing (10_state.md R14, R18). -/
def decTurn (s : State) : Result :=
  if s.status = .busy then
    match loaderOf s.params.nibbles s.cmd.fmt with
    | some d => .next (d.turn s)
    | none => .fault (.noLoaderSelected s.cmd.fmt)
  else .next s

end Sys2Proof.Machine
end

