-- ==== Sys2Proof/Machine/HostPort.lean ====
section
/-! DEFINITION. Fetching what runs next, and HOST's moves at the interface (10_state.md R10, R12, R13, R16,
R24; 20_memory.md R53, R56; 70_reset_and_hazards.md R260). -/

namespace Sys2Proof.Machine

/-- Decode one encoded instruction and run it. -/
def runEncoded (e : Encoded) (s : State) : Result :=
  match decode s.params e with
  | .ok i => exec i s
  | .error why => .refused (.undecodable why)

/-- Run encoded instructions one after another. -/
def runAll : List Encoded → State → Result
  | [], s => .next s
  | e :: rest, s => andThen (runEncoded e s) (runAll rest)

/-- Serve the pulses pending in CTRL: ACK first, then START (10_state.md R13). -/
def servePulses (s : State) : Result := runAll (pulseWords s.ctrl) s

/-- A HOST write of a register that exists. A write of CTRL sets its pulses, and the same step serves them
(46_dispatch.md R202, 70_reset_and_hazards.md R275). -/
def hostWrite (r : Reg) (v : Nat) (s : State) : Result :=
  match r with
  | .ctrl => servePulses (s.setCtrl (s.ctrl ||| BitVec.ofNat 2 v))
  | .fmt => .next (s.writeReg .fmt v)
  | .width => .next (s.writeReg .width v)
  | .height => .next (s.writeReg .height v)
  | .srcLen => .next (s.writeReg .srcLen v)
  | .dstLen => .next (s.writeReg .dstLen v)
  | .status => .next (s.writeReg .status v)
  | .err => .next (s.writeReg .err v)

/-- A HOST read of a register that exists (10_state.md R12). The counter of free values moves with every
read, so that a register not written since reset need not read the same twice (R24). -/
def hostRead (r : Reg) (s : State) : Result :=
  .next { s with readData := s.readReg r, free := s.free + 1 }

/-- A HOST store to SRC. In the declared range during BUSY it breaks HOST's duty (20_memory.md R56). -/
def hostStoreSrc (off : Nat) (v : Byte) (s : State) : Result :=
  .next { s with
    src := s.src.write off v
    tainted := s.tainted || (s.status = .busy && off < s.cmd.srcLen) }

/-- A HOST store to DST. In the declared range during BUSY it breaks HOST's duty (20_memory.md R56). -/
def hostStoreDst (off : Nat) (v : Byte) (s : State) : Result :=
  .next { s with
    dst := s.dst.write off v
    tainted := s.tainted || (s.status = .busy && off < s.cmd.dstLen) }

/-- A HOST load from SRC. -/
def hostLoadSrc (off : Nat) (s : State) : Result := .next { s with readData := (s.src.read off).toNat }

/-- A HOST load from DST: a free value in the declared range during BUSY (20_memory.md R56,
93_implementation_defined.md U3; log 11). -/
def hostLoadDst (off : Nat) (s : State) : Result :=
  if s.status = .busy ∧ off < s.cmd.dstLen then
    .next { s with readData := freeNumber 8 s.free, free := s.free + 1 }
  else .next { s with readData := (s.dst.read off).toNat }

/-- A HOST access at an offset, which exists only if it has LENW bits (20_memory.md R40; log 22). -/
def atOffset (off : Nat) (s : State) (access : State → Result) : Result :=
  if off < 2 ^ s.params.lenw then access s else .refused (.noSuchOffset off)

/-- One move of HOST. -/
def hostMove (m : HostMove) (s : State) : Result :=
  match m with
  | .write n v =>
    match Reg.ofNumber? n with
    | some r => hostWrite r v s
    | none => .refused (.noSuchRegister n)
  | .read n =>
    match Reg.ofNumber? n with
    | some r => hostRead r s
    | none => .refused (.noSuchRegister n)
  | .storeSrc off v => atOffset off s (hostStoreSrc off v)
  | .loadSrc off => atOffset off s (hostLoadSrc off)
  | .storeDst off v => atOffset off s (hostStoreDst off v)
  | .loadDst off => atOffset off s (hostLoadDst off)
  | .command w => runEncoded (.cmd w) s
  | .reset => .next s.hostReset
  | .wait => decTurn s

/-- What moves next (log 6): pulses pending in CTRL; else HOST's next move; else DEC. -/
def nextMove (s : State) : Result :=
  if s.ctrl ≠ 0 then servePulses s
  else
    match s.bus with
    | [] => decTurn s
    | m :: rest => hostMove m { s with bus := rest }

/-- Put an encoded instruction where the next step fetches it: a pulse in CTRL, a command at the head of
HOST's moves with no pulse before it (log 9). -/
def State.place (s : State) (e : Encoded) : State :=
  match e with
  | .ctrl v => s.setCtrl v
  | .cmd w => { s with ctrl := 0, bus := .command w :: s.bus }

end Sys2Proof.Machine
end

