-- ==== Sys2Proof/Safety.lean ====
section
/-! DEFINITION. What counts as a safe run: the invariant of the machine, in the terms the claims use. -/

namespace Sys2Proof.Machine

/-- ERR agrees with STATUS: an error code exactly in ERROR, and INFO a format without a loader exactly for
UnsupportedFormat (10_state.md R14, R15; 60_exceptions.md R230). -/
def State.errAgrees (s : State) : Prop :=
  (s.status = .error ↔ s.err.code ≠ .none) ∧
    (if s.err.code = .unsupportedFormat then 22 ≤ s.err.info.toNat else s.err.info = 0)

/-- While BUSY the registers hold a command that passed validation, its loader is selected, SEQ is below its
bound, and SUB is 0 for a linear format (10_state.md R14, R18; 46_dispatch.md R203). -/
def State.busyOk (s : State) : Prop :=
  validate s.cmd = none ∧
    match loaderOf s.params.nibbles s.cmd.fmt with
    | some d =>
      s.seq < d.bound s.cmd ∧
        match d with
        | .linear _ _ => s.sub = 0
        | .block _ => True
    | none => False

/-- Both memories are in canonical form and lie in the LENW-bit space (20_memory.md R40). -/
def State.memOk (s : State) : Prop :=
  s.src.wf ∧ s.dst.wf ∧ s.src.inSpace s.params ∧ s.dst.inSpace s.params

/-- Every register whose width the parameters give holds a value of that width (10_state.md R12, R18;
00_scope.md R6, R7). -/
def State.widthsOk (s : State) : Prop := s.cmd.fits s.params ∧ s.seq < 2 ^ s.params.seqw

/-- The invariant that every step keeps. -/
structure Inv (s : State) : Prop where
  legal   : s.params.legal
  widths  : s.widthsOk
  mem     : s.memOk
  err     : s.errAgrees
  busy    : s.status = .busy → s.busyOk
  pulses  : s.ctrl = 0
  tainted : s.tainted = true → s.status = .busy

end Sys2Proof.Machine
end

