-- ==== Sys2Proof/Certificates/Slice0/Obligations.lean ====
section
/-! DEFINITION. The statements for the provers. The formulas of a statement are written from the spec's rules,
in numbers over the bytes of SRC, and use the model's datapaths nowhere. -/

namespace Sys2Proof.Claims

open Sys2Proof.Machine

/-! ### Numbers -/

/-- A `u8` (00_scope.md R8). -/
abbrev u8 (n : Nat) : Byte := BitVec.ofNat 8 n

/-- The little-endian 16-bit word at an offset (20_memory.md R48). -/
def word (m : Memory) (o : Nat) : Nat := (m.read o).toNat + 256 * (m.read (o + 1)).toNat

/-- A 5-bit field widened to 8 bits (40_bit_expansion.md R102). -/
def wide5 (n : Nat) : Nat := 8 * n + n / 4

/-- A 6-bit field widened to 8 bits (R102). -/
def wide6 (n : Nat) : Nat := 4 * n + n / 16

/-! ### The pixel `[R, G, B, A]` of each format, from the bytes of SRC -/

/-- 41_byte_lane.md R111. -/
def pxRgba8888 (m : Memory) (p : Nat) : List Byte :=
  [m.read (4 * p), m.read (4 * p + 1), m.read (4 * p + 2), m.read (4 * p + 3)]

/-- R112. -/
def pxBgra8888 (m : Memory) (p : Nat) : List Byte :=
  [m.read (4 * p + 2), m.read (4 * p + 1), m.read (4 * p), m.read (4 * p + 3)]

/-- R113: the source bytes are green, blue, alpha, red. -/
def pxArgb8888 (m : Memory) (p : Nat) : List Byte :=
  [m.read (4 * p + 3), m.read (4 * p), m.read (4 * p + 1), m.read (4 * p + 2)]

/-- R114. -/
def pxAbgr8888 (m : Memory) (p : Nat) : List Byte :=
  [m.read (4 * p + 3), m.read (4 * p + 2), m.read (4 * p + 1), m.read (4 * p)]

/-- R115. -/
def pxRgb888 (m : Memory) (p : Nat) : List Byte :=
  [m.read (3 * p), m.read (3 * p + 1), m.read (3 * p + 2), 255]

/-- R116. -/
def pxBgr888 (m : Memory) (p : Nat) : List Byte :=
  [m.read (3 * p + 2), m.read (3 * p + 1), m.read (3 * p), 255]

/-- R117: stride 4, byte 3 ignored. -/
def pxBgrx8888 (m : Memory) (p : Nat) : List Byte :=
  [m.read (4 * p + 2), m.read (4 * p + 1), m.read (4 * p), 255]

/-- 42_packed_bit.md R131: red is the low five bits of the word. -/
def pxRgb565 (m : Memory) (p : Nat) : List Byte :=
  let v := word m (2 * p)
  [u8 (wide5 (v % 32)), u8 (wide6 (v / 32 % 64)), u8 (wide5 (v / 2048)), 255]

/-- R132: blue is the low five bits of the word. -/
def pxBgr565 (m : Memory) (p : Nat) : List Byte :=
  let v := word m (2 * p)
  [u8 (wide5 (v / 2048)), u8 (wide6 (v / 32 % 64)), u8 (wide5 (v % 32)), 255]

/-- R133 as it stands: the nibbles, from the lowest, are blue, green, red, alpha. -/
def pxBgra4444 (m : Memory) (p : Nat) : List Byte :=
  let v := word m (2 * p)
  [u8 (17 * (v / 256 % 16)), u8 (17 * (v / 16 % 16)), u8 (17 * (v % 16)), u8 (17 * (v / 4096))]

/-- R133 with NIBBLE_MAP as a parameter (92_eei_decisions.md D11). -/
def pxNibbles (k : NibbleMap) (m : Memory) (p : Nat) : List Byte :=
  let ch := fun n : Fin 4 => u8 (17 * (word m (2 * p) / 16 ^ n.val % 16))
  [ch k.red, ch k.green, ch k.blue, ch k.alpha]

/-- R134: five bits each of blue, green, red, from the lowest, and the alpha bit. -/
def pxBgra5551 (m : Memory) (p : Nat) : List Byte :=
  let v := word m (2 * p)
  [u8 (wide5 (v / 1024 % 32)), u8 (wide5 (v / 32 % 32)), u8 (wide5 (v % 32)), if v / 32768 = 1 then 255 else 0]

/-- R135: as R134 with alpha 255. -/
def pxBgrx5551 (m : Memory) (p : Nat) : List Byte :=
  let v := word m (2 * p)
  [u8 (wide5 (v / 1024 % 32)), u8 (wide5 (v / 32 % 32)), u8 (wide5 (v % 32)), 255]

/-- 43_scalar.md R151. -/
def pxI8 (m : Memory) (p : Nat) : List Byte := [m.read p, m.read p, m.read p, 255]

/-- R152. -/
def pxIa88 (m : Memory) (p : Nat) : List Byte :=
  [m.read (2 * p), m.read (2 * p), m.read (2 * p), m.read (2 * p + 1)]

/-- R153. -/
def pxA8 (m : Memory) (p : Nat) : List Byte := [0, 0, 0, m.read p]

/-- R154. -/
def pxUv88 (m : Memory) (p : Nat) : List Byte := [m.read (2 * p), m.read (2 * p + 1), 0, 255]

/-- The colour key of 44_colorkey.md R160 on a decoded triplet. -/
def keyed (r g b : Byte) : List Byte :=
  if [r, g, b] = [0, 0, 255] then [0, 0, 0, 0] else [r, g, b, 255]

/-- R161. -/
def pxRgb888Bluescreen (m : Memory) (p : Nat) : List Byte :=
  keyed (m.read (3 * p)) (m.read (3 * p + 1)) (m.read (3 * p + 2))

/-- R162: routed by the BGR order first. -/
def pxBgr888Bluescreen (m : Memory) (p : Nat) : List Byte :=
  keyed (m.read (3 * p + 2)) (m.read (3 * p + 1)) (m.read (3 * p))

/-- A channel of a reference colour, 0 red, 1 green, 2 blue (45_dxt1.md R173). -/
def refChannel (v : Nat) : Fin 3 → Nat
  | 0 => wide5 (v % 32)
  | 1 => wide6 (v / 32 % 64)
  | 2 => wide5 (v / 2048)

/-- A channel of palette entry `i` of a block with endpoint words `v0` and `v1` (R174 to R178). -/
def paletteChannel (v0 v1 i : Nat) (ch : Fin 3) : Nat :=
  let x := refChannel v0 ch
  let y := refChannel v1 ch
  match i with
  | 0 => x
  | 1 => y
  | 2 => if v0 > v1 then (2 * x + y) / 3 else (x + y) / 2
  | _ => if v0 > v1 then (x + 2 * y) / 3 else 0

/-- The alpha of palette entry `i`: 255, but 0 for entry 3 of 3-colour mode in the one-bit-alpha variant
(R177, R178). -/
def paletteAlpha (oba : Bool) (v0 v1 i : Nat) : Nat :=
  if oba = true ∧ i = 3 ∧ ¬ v0 > v1 then 0 else 255

/-- The block that image pixel `p` stands in, in an image `w` pixels wide (R170, R180). -/
def blockOf (w p : Nat) : Nat := p / w / 4 * (w / 4) + p % w / 4

/-- The palette entry that the index of image pixel `p` selects: row byte `4 + y`, column `x` from the top
(R179; 30_encoding.md R80, R81). -/
def indexOf (m : Memory) (w p : Nat) : Nat :=
  (m.read (8 * blockOf w p + 4 + p / w % 4)).toNat / 2 ^ (6 - 2 * (p % w % 4)) % 4

/-- R181 (`oba` false) and R182 (`oba` true). -/
def pxDxt1 (oba : Bool) (w : Nat) (m : Memory) (p : Nat) : List Byte :=
  let v0 := word m (8 * blockOf w p)
  let v1 := word m (8 * blockOf w p + 2)
  let i := indexOf m w p
  [u8 (paletteChannel v0 v1 i 0), u8 (paletteChannel v0 v1 i 1), u8 (paletteChannel v0 v1 i 2),
    u8 (paletteAlpha oba v0 v1 i)]

/-- Pixel `p` of an image `w` pixels wide, by FMT code (30_encoding.md R72). -/
def pixelOf (k : NibbleMap) (f w : Nat) (m : Memory) (p : Nat) : List Byte :=
  match f with
  | 0 => pxRgba8888 m p
  | 1 => pxBgra8888 m p
  | 2 => pxArgb8888 m p
  | 3 => pxAbgr8888 m p
  | 4 => pxRgb888 m p
  | 5 => pxBgr888 m p
  | 6 => pxBgrx8888 m p
  | 7 => pxRgba8888 m p
  | 8 => pxRgba8888 m p
  | 9 => pxRgb565 m p
  | 10 => pxBgr565 m p
  | 11 => pxNibbles k m p
  | 12 => pxBgra5551 m p
  | 13 => pxBgrx5551 m p
  | 14 => pxI8 m p
  | 15 => pxIa88 m p
  | 16 => pxA8 m p
  | 17 => pxUv88 m p
  | 18 => pxRgb888Bluescreen m p
  | 19 => pxBgr888Bluescreen m p
  | 20 => pxDxt1 false w m p
  | 21 => pxDxt1 true w m p
  | _ => []

/-! ### Commands -/

/-- The operands of an accepted command of a linear format of `bpp` bytes a pixel (46_dispatch.md R203 to
R205), in registers of DIMW bits. -/
def ValidLinear (p : Params) (bpp : Nat) (a : CmdArgs) : Prop :=
  (0 < a.width ∧ a.width < 2 ^ p.dimw) ∧ (0 < a.height ∧ a.height < 2 ^ p.dimw) ∧
    a.srcLen = a.width * a.height * bpp ∧ a.dstLen = a.width * a.height * 4

/-- The operands of an accepted command of the DXT1 pair. -/
def ValidBlock (p : Params) (a : CmdArgs) : Prop :=
  (0 < a.width ∧ a.width < 2 ^ p.dimw ∧ a.width % 4 = 0) ∧
    (0 < a.height ∧ a.height < 2 ^ p.dimw ∧ a.height % 4 = 0) ∧
    a.srcLen = a.width / 4 * (a.height / 4) * 8 ∧ a.dstLen = a.width * a.height * 4

/-- The register tuple of a command, each register with the bits it has (30_encoding.md R70, 00_scope.md
R6). -/
def registers (p : Params) (code : Nat) (a : CmdArgs) : Cmd :=
  ⟨BitVec.ofNat _ code, a.width % 2 ^ p.dimw, a.height % 2 ^ p.dimw, a.srcLen % 2 ^ (2 * p.dimw + 2),
    a.dstLen % 2 ^ (2 * p.dimw + 2)⟩

/-- The four bytes of pixel `p` (20_memory.md R44). -/
def bytesAt (m : Memory) (p : Nat) : List Byte :=
  [m.read (4 * p), m.read (4 * p + 1), m.read (4 * p + 2), m.read (4 * p + 3)]

/-- What a command that ends in DONE leaves, and its frame: the five command registers hold the command,
STATUS and ERR say DONE and NONE, each pixel of the image is as given, every byte of DST past the image
reads as before, and SRC, CTRL, and HOST's side are unchanged. SEQ, SUB and the working registers have no
specified value between commands (93_implementation_defined.md U2). -/
structure Decoded (code : Nat) (a : CmdArgs) (image : Nat → List Byte) (s t : State) : Prop where
  params   : t.params = s.params
  cmd      : t.cmd = registers s.params code a
  written  : t.written = ⟨true, true, true, true, true⟩
  status   : t.status = .done
  err      : t.err = ⟨.none, 0⟩
  image    : ∀ p < a.width * a.height, bytesAt t.dst p = image p
  rest     : ∀ off, a.width * a.height * 4 ≤ off → t.dst.read off = s.dst.read off
  src      : t.src = s.src
  ctrl     : t.ctrl = s.ctrl
  tainted  : t.tainted = false
  readData : t.readData = s.readData
  free     : t.free = s.free
  bus      : t.bus = s.bus

/-- An instruction of a linear format completes on all valid operands, outside BUSY, with this image, whatever
the unit's parameters. The instruction is the whole command (46_dispatch.md R211; log 7). -/
def LinearDecodesBy (i : CmdArgs → Instr) (code bpp : Nat) (px : Params → Memory → Nat → List Byte) : Prop :=
  ∀ (a : CmdArgs) (s : State), s.status ≠ .busy → s.dst.wf → ValidLinear s.params bpp a →
    ∃ t, exec (i a) s = .next t ∧ Decoded code a (px s.params s.src) s t

/-- The same where the image does not depend on the parameters. -/
def LinearDecodes (i : CmdArgs → Instr) (code bpp : Nat) (px : Memory → Nat → List Byte) : Prop :=
  LinearDecodesBy i code bpp fun _ => px

/-- An instruction of the DXT1 pair completes on all valid operands, outside BUSY, with this image, whatever
the unit's parameters. -/
def BlockDecodes (i : CmdArgs → Instr) (code : Nat) (oba : Bool) : Prop :=
  ∀ (a : CmdArgs) (s : State), s.status ≠ .busy → s.dst.wf → ValidBlock s.params a →
    ∃ t, exec (i a) s = .next t ∧ Decoded code a (pxDxt1 oba a.width s.src) s t

/-- The required length of SRC (46_dispatch.md R204). -/
def srcLenOf (f w h : Nat) : Nat :=
  match f with
  | 0 | 1 | 2 | 3 | 6 | 7 | 8 => w * h * 4
  | 4 | 5 | 18 | 19 => w * h * 3
  | 9 | 10 | 11 | 12 | 13 | 15 | 17 => w * h * 2
  | 14 | 16 => w * h
  | _ => w / 4 * (h / 4) * 8

/-- The first failing check, as the numbers left in ERR.CODE and ERR.INFO (46_dispatch.md R203, 60_exceptions.md
R230). -/
def firstError (c : Cmd) : Option (Nat × Nat) :=
  let f := c.fmt.toNat
  let w := c.width
  let h := c.height
  if 22 ≤ f then some (1, f)
  else if w = 0 ∨ h = 0 then some (2, 0)
  else if (f = 20 ∨ f = 21) ∧ (w % 4 ≠ 0 ∨ h % 4 ≠ 0) then some (2, 0)
  else if c.dstLen ≠ w * h * 4 then some (3, 0)
  else if c.srcLen ≠ srcLenOf f w h then some (3, 0)
  else none

/-- ERR holds these numbers (10_state.md R15). -/
def errIs (e : Err) (k : Nat × Nat) : Prop := e.code.number = k.1 ∧ e.info.toNat = k.2

/-! ### Moves -/

/-- The move of HOST that the next step makes, if it makes one. -/
def nextHostMove (s : State) : Option HostMove := if s.ctrl = 0 then s.bus.head? else none

/-- The pulses that the next step serves: those pending, or those of a CTRL write (10_state.md R13). -/
def pulses (s : State) : BitVec 2 :=
  match nextHostMove s with
  | some (.write 5 v) => BitVec.ofNat 2 v
  | _ => s.ctrl

/-- The next step is a turn of DEC: HOST has no move, or waits. -/
def decMoves (s : State) : Prop := s.ctrl = 0 ∧ (s.bus = [] ∨ s.bus.head? = some .wait)

/-- The next step may change command register `n`: HOST writes it, issues a command, or asserts RESET. -/
def touches (s : State) (n : Nat) : Prop :=
  (∃ v, nextHostMove s = some (.write n v)) ∨ (∃ w, nextHostMove s = some (.command w)) ∨
    nextHostMove s = some .reset

/-- The five register writes of a command (30_encoding.md R71). -/
def registerWrites (c : Cmd) : List HostMove :=
  [.write 0 c.fmt.toNat, .write 1 c.width, .write 2 c.height, .write 3 c.srcLen, .write 4 c.dstLen]

/-- DEC stands at the last pixel of its command: of the image, or of the last block (10_state.md R14, R18). -/
def lastPixel (s : State) : Prop :=
  if s.cmd.fmt.toNat < 20 then s.seq + 1 = s.cmd.width * s.cmd.height
  else s.sub = 15 ∧ s.seq + 1 = s.cmd.width / 4 * (s.cmd.height / 4)

/-- HOST's move is a load or store at this offset. -/
def accesses (m : HostMove) (off : Nat) : Prop :=
  (∃ v, m = .storeSrc off v) ∨ (∃ v, m = .storeDst off v) ∨ m = .loadSrc off ∨ m = .loadDst off

/-- The raster index of position `sub` of block `k` (45_dxt1.md R180). -/
def rasterOf (w k sub : Nat) : Nat :=
  (4 * (k / (w / 4)) + sub / 4) * w + (4 * (k % (w / 4)) + sub % 4)

/-- One turn of DEC wrote pixel `p` and nothing else of DST, and left all but the sequencer, STATUS and the
working registers as they were. -/
structure TurnWrites (s t : State) (p : Nat) : Prop where
  params   : t.params = s.params
  pixel    : bytesAt t.dst p = pixelOf s.params.nibbles s.cmd.fmt.toNat s.cmd.width s.src p
  rest     : ∀ off, off < 4 * p ∨ 4 * p + 4 ≤ off → t.dst.read off = s.dst.read off
  cmd      : t.cmd = s.cmd
  written  : t.written = s.written
  ctrl     : t.ctrl = s.ctrl
  err      : t.err = s.err
  src      : t.src = s.src
  tainted  : t.tainted = s.tainted
  readData : t.readData = s.readData
  free     : t.free = s.free
  bus      : t.bus = s.bus

end Sys2Proof.Claims

open Sys2Proof Sys2Proof.Machine Sys2Proof.Claims

/-! ### Encoding -/

/-- Decoding the encoding of a well-formed instruction gives it back: all 34 instructions, every operand at
every value its register holds, for every DIMW (30_encoding.md R70, R72, R73; 10_state.md R13; 00_scope.md
R6). -/
def Obligations.DecodeOfEncode : Prop :=
  ∀ (p : Params) (i : Instr), i.wellFormed p = true → decode p (encode p i) = .ok i

/-- Each encoded form has one meaning: what decodes to an instruction is that instruction's encoding, and the
instruction is well formed; the bits of every register tuple decode, bits past the last register being
ignored (30_encoding.md R70, R72, R73; 10_state.md R12). That the five registers are one number, and that a
CTRL word of no pulse or of two is no single instruction, is the model's choice (log 8). -/
def Obligations.EncodeOfDecode : Prop :=
  (∀ (p : Params) (w : Nat) (i : Instr), decode p (.cmd w) = .ok i →
      encode p i = .cmd (w % 2 ^ (5 + 2 * p.dimw + 2 * (2 * p.dimw + 2))) ∧ i.wellFormed p = true) ∧
    (∀ (p : Params) (w : Nat), ∃ i, decode p (.cmd w) = .ok i) ∧
    (∀ (p : Params) (v : BitVec 2) (i : Instr), decode p (.ctrl v) = .ok i →
      encode p i = .ctrl v ∧ i.wellFormed p = true) ∧
    ∀ (p : Params) (v : BitVec 2), (∃ why, decode p (.ctrl v) = .error why) ↔ v = 0 ∨ v = 3

/-- One written-out word of each family decodes to its instruction: the bits of FMT, WIDTH, HEIGHT, SRC_LEN and
DST_LEN, each at its place, or the bits of CTRL (30_encoding.md R72; programs C1 to C4 of
95_test_vectors.md; the order of the registers in the word is log 8). The last CMD word is one of a unit with
DIMW 4. -/
def Obligations.WordsDecode : Prop :=
  let d := decode Params.standard
  d (.cmd (0b00010 + 3 * 2 ^ 5 + 5 * 2 ^ 21 + 60 * 2 ^ 37 + 60 * 2 ^ 71)) = .ok (.argb8888 ⟨3, 5, 60, 60⟩) ∧
    d (.cmd (0b01001 + 2 * 2 ^ 5 + 1 * 2 ^ 21 + 4 * 2 ^ 37 + 8 * 2 ^ 71)) = .ok (.rgb565 ⟨2, 1, 4, 8⟩) ∧
    d (.cmd (0b01110 + 256 * 2 ^ 5 + 256 * 2 ^ 21 + 65536 * 2 ^ 37 + 262144 * 2 ^ 71)) =
      .ok (.i8 ⟨256, 256, 65536, 262144⟩) ∧
    d (.cmd (0b10011 + 1 * 2 ^ 5 + 1 * 2 ^ 21 + 3 * 2 ^ 37 + 4 * 2 ^ 71)) = .ok (.bgr888Bluescreen ⟨1, 1, 3, 4⟩) ∧
    d (.cmd (0b10101 + 8 * 2 ^ 5 + 4 * 2 ^ 21 + 16 * 2 ^ 37 + 128 * 2 ^ 71)) =
      .ok (.dxt1OneBitAlpha ⟨8, 4, 16, 128⟩) ∧
    d (.cmd (0b10110 + 2 * 2 ^ 5 + 2 * 2 ^ 21 + 4 * 2 ^ 37 + 16 * 2 ^ 71)) = .ok (.p8 ⟨2, 2, 4, 16⟩) ∧
    d (.cmd 0b11111) = .ok (.unassigned31 ⟨0, 0, 0, 0⟩) ∧
    decode ⟨4, NibbleMap.standard⟩ (.cmd (0b10100 + 8 * 2 ^ 5 + 4 * 2 ^ 9 + 16 * 2 ^ 13 + 128 * 2 ^ 23)) =
      .ok (.dxt1 ⟨8, 4, 16, 128⟩) ∧
    d (.ctrl 0b01) = .ok .start ∧ d (.ctrl 0b10) = .ok .ack

/-! ### Steps -/

/-- A step runs the decoded instruction: a command at the head of HOST's moves with no pulse pending, a
single pulse pending in CTRL, and a word of the opcode table placed by `withFetchWord` in a unit with the
default parameters. Around `exec` the step only takes the command off HOST's moves (10_state.md R13,
30_encoding.md R70, R71; log 6, 7, 9). -/
def Obligations.StepRunsDecodedInstruction : Prop :=
  (∀ (s : State) (w : Nat) (rest : List HostMove) (i : Instr), s.ctrl = 0 → s.bus = .command w :: rest →
      decode s.params (.cmd w) = .ok i → step s = exec i { s with bus := rest }) ∧
    (∀ (s : State) (i : Instr), decode s.params (.ctrl s.ctrl) = .ok i → step s = exec i s) ∧
    ∀ (s : State) (nbits w : Nat) (i : Instr), s.params = Params.standard → decodeTableWord nbits w = some i →
      step (s.withFetchWord nbits w) =
        exec i (match tableWord nbits w with
          | .cmd _ => { s with ctrl := 0 }
          | .ctrl v => { s with ctrl := v })

/-- A HOST write of CTRL: bit 0 requests START, bit 1 ACK, no bit does nothing, both bits are ACK followed by
START, and a read of CTRL returns 0 (10_state.md R13). -/
def Obligations.CtrlWritePulses : Prop :=
  (∀ (s : State) (v : Nat) (rest : List HostMove), s.ctrl = 0 → s.bus = .write 5 v :: rest →
      (v.testBit 0 = false → v.testBit 1 = false → step s = .next { s with bus := rest }) ∧
      (v.testBit 0 = true → v.testBit 1 = false →
        step s = exec .start { s with bus := rest, ctrl := 1 }) ∧
      (v.testBit 0 = false → v.testBit 1 = true →
        step s = exec .ack { s with bus := rest, ctrl := 2 }) ∧
      (v.testBit 0 = true → v.testBit 1 = true →
        ∃ u, exec .ack { s with bus := rest, ctrl := 3 } = .next u ∧ step s = exec .start u)) ∧
    ∀ (s : State) (rest : List HostMove), s.ctrl = 0 → s.bus = .read 5 :: rest →
      ∃ t, step s = .next t ∧ t.readData = 0

/-- While BUSY, HOST writes to registers 0 to 4, a START pulse and an ACK pulse are ignored: the registers
keep their values and nothing else changes. In every other state a write to one of registers 0 to 4 takes
effect at once, on that register alone, which takes the bits it has (10_state.md R12, R16). -/
def Obligations.BusyIgnoresHost : Prop :=
  ∀ (s : State) (n v : Nat) (rest : List HostMove), s.ctrl = 0 →
    s.bus = .write n v :: rest →
    (s.status = .busy → n ≤ 5 → step s = .next { s with bus := rest }) ∧
    (s.status ≠ .busy →
      (n = 0 → step s = .next { s with bus := rest, cmd := { s.cmd with fmt := BitVec.ofNat _ v },
                                       written := { s.written with fmt := true } }) ∧
      (n = 1 → step s = .next { s with bus := rest, cmd := { s.cmd with width := v % 2 ^ s.params.dimw },
                                       written := { s.written with width := true } }) ∧
      (n = 2 → step s = .next { s with bus := rest, cmd := { s.cmd with height := v % 2 ^ s.params.dimw },
                                       written := { s.written with height := true } }) ∧
      (n = 3 → step s = .next { s with bus := rest, cmd := { s.cmd with srcLen := v % 2 ^ (2 * s.params.dimw + 2) },
                                       written := { s.written with srcLen := true } }) ∧
      (n = 4 → step s = .next { s with bus := rest, cmd := { s.cmd with dstLen := v % 2 ^ (2 * s.params.dimw + 2) },
                                       written := { s.written with dstLen := true } }))

/-- What a HOST read returns: each command register that HOST has written, CTRL as 0, STATUS as its number,
ERR with CODE in bits 1:0 and INFO in bits 12:8 and 0 elsewhere. A read changes nothing else that HOST or
DEC can see (10_state.md R12, R13, R14, R15). A register number above 7 is refused
(93_implementation_defined.md U17; log 5). -/
def Obligations.RegisterReads : Prop :=
  ∀ (s : State) (n : Nat) (rest : List HostMove), s.ctrl = 0 → s.bus = .read n :: rest →
    (∀ r, (n = 0 ∧ s.written.fmt = true ∧ r = s.cmd.fmt.toNat) ∨
          (n = 1 ∧ s.written.width = true ∧ r = s.cmd.width) ∨
          (n = 2 ∧ s.written.height = true ∧ r = s.cmd.height) ∨
          (n = 3 ∧ s.written.srcLen = true ∧ r = s.cmd.srcLen) ∨
          (n = 4 ∧ s.written.dstLen = true ∧ r = s.cmd.dstLen) ∨
          (n = 5 ∧ r = 0) ∨
          (n = 6 ∧ r = (match s.status with | .idle => 0 | .busy => 1 | .done => 2 | .error => 3)) ∨
          (n = 7 ∧ r = (match s.err.code with
            | .none => 0 | .unsupportedFormat => 1 | .invalidDimensions => 2 | .bufferSizeMismatch => 3) +
              256 * s.err.info.toNat) →
      step s = .next { s with bus := rest, readData := r, free := s.free + 1 }) ∧
    (7 < n → step s = .refused (.noSuchRegister n))

/-- A HOST write of STATUS or ERR, which are read only, changes nothing (10_state.md R12; log 5), and a write
that names a register above 7 is refused (93_implementation_defined.md U17). -/
def Obligations.ReadOnlyRegisterWrites : Prop :=
  ∀ (s : State) (n v : Nat) (rest : List HostMove), s.ctrl = 0 →
    s.bus = .write n v :: rest →
    (n = 6 ∨ n = 7 → step s = .next { s with bus := rest }) ∧
    (7 < n → step s = .refused (.noSuchRegister n))

/-- A command register that HOST has not written since reset reads as a free value (10_state.md R24; log 2);
the read of it leaves every register as it was. -/
def Obligations.UnwrittenRegisterReadsFree : Prop :=
  ∀ (s : State) (n : Nat) (rest : List HostMove), s.ctrl = 0 → s.bus = .read n :: rest →
    (n = 0 → s.written.fmt = false → step s = .next { s with
      bus := rest, readData := (Config.freeValue 5 s.free).toNat, free := s.free + 1 }) ∧
    (n = 1 → s.written.width = false → step s = .next { s with
      bus := rest, readData := (Config.freeValue s.params.dimw s.free).toNat, free := s.free + 1 }) ∧
    (n = 2 → s.written.height = false → step s = .next { s with
      bus := rest, readData := (Config.freeValue s.params.dimw s.free).toNat, free := s.free + 1 }) ∧
    (n = 3 → s.written.srcLen = false → step s = .next { s with
      bus := rest, readData := (Config.freeValue s.params.lenw s.free).toNat, free := s.free + 1 }) ∧
    (n = 4 → s.written.dstLen = false → step s = .next { s with
      bus := rest, readData := (Config.freeValue s.params.lenw s.free).toNat, free := s.free + 1 })

/-- A command register that HOST has written keeps its value over every step in which HOST does not write
that register, issue a command or assert RESET: DEC never writes it (10_state.md R12, R24). -/
def Obligations.CommandRegistersAreHosts : Prop :=
  ∀ s t : State, step s = .next t →
    (s.written.fmt = true → ¬ touches s 0 → t.written.fmt = true ∧ t.cmd.fmt = s.cmd.fmt) ∧
    (s.written.width = true → ¬ touches s 1 → t.written.width = true ∧ t.cmd.width = s.cmd.width) ∧
    (s.written.height = true → ¬ touches s 2 → t.written.height = true ∧ t.cmd.height = s.cmd.height) ∧
    (s.written.srcLen = true → ¬ touches s 3 → t.written.srcLen = true ∧ t.cmd.srcLen = s.cmd.srcLen) ∧
    (s.written.dstLen = true → ¬ touches s 4 → t.written.dstLen = true ∧ t.cmd.dstLen = s.cmd.dstLen)

/-- STATUS changes in no other way than these: START takes IDLE, DONE or ERROR to BUSY or ERROR; the last pixel
takes BUSY to DONE, and no other turn of DEC does in a state that meets the invariant; ACK takes DONE or ERROR
to IDLE (10_state.md R14); RESET gives IDLE (70_reset_and_hazards.md R260); a whole command, START to its end in
one step, takes IDLE, DONE or ERROR to DONE or ERROR (20_memory.md R52; log 7). -/
def Obligations.StatusTransitions : Prop :=
  ∀ s t : State, step s = .next t → t.status ≠ s.status →
    (s.status ≠ .busy ∧ (pulses s).getLsbD 0 = true ∧ (t.status = .busy ∨ t.status = .error)) ∨
    (s.status = .busy ∧ decMoves s ∧ t.status = .done ∧ (Inv s → lastPixel s)) ∨
    ((s.status = .done ∨ s.status = .error) ∧ (pulses s).getLsbD 1 = true ∧
      (pulses s).getLsbD 0 = false ∧ t.status = .idle) ∨
    (nextHostMove s = some .reset ∧ t.status = .idle) ∨
    (s.status ≠ .busy ∧ (∃ w, nextHostMove s = some (.command w)) ∧ (t.status = .done ∨ t.status = .error))

/-- SRC changes only where HOST stores a byte to it, and then only that byte (20_memory.md R41). -/
def Obligations.SrcIsReadOnlyToDec : Prop :=
  ∀ s t : State, step s = .next t →
    (t.src = s.src ∨ ∃ off v, nextHostMove s = some (.storeSrc off v)) ∧
    ∀ off v, nextHostMove s = some (.storeSrc off v) →
      ∀ o : Nat, o ≠ off → t.src.read o = s.src.read o

/-- HOST's stores and loads, in every STATUS: a store changes the one byte, and besides it only marks a running
command when it falls into that command's declared range; a load of SRC, and a load of DST outside BUSY or
at or past DST_LEN, returns the byte; a load changes nothing of DEC. An offset of more than LENW bits is
refused (20_memory.md R40 to R42, R47; what HOST sees through its interface, and the refusal, are the model's
choice, log 22; the mark, log 12; a load of SRC while BUSY, log 22). -/
def Obligations.HostMemoryAccess : Prop :=
  ∀ (s : State) (off : Nat) (v : Byte) (rest : List HostMove), s.ctrl = 0 →
    (off < 2 ^ s.params.lenw →
      (s.src.wf → s.bus = .storeSrc off v :: rest → ∃ m, step s = .next { s with
          bus := rest, src := m, tainted := s.tainted || (s.status = .busy && off < s.cmd.srcLen) } ∧
        m.wf ∧ m.read off = v ∧ ∀ o : Nat, o ≠ off → m.read o = s.src.read o) ∧
      (s.dst.wf → s.bus = .storeDst off v :: rest → ∃ m, step s = .next { s with
          bus := rest, dst := m, tainted := s.tainted || (s.status = .busy && off < s.cmd.dstLen) } ∧
        m.wf ∧ m.read off = v ∧ ∀ o : Nat, o ≠ off → m.read o = s.dst.read o) ∧
      (s.bus = .loadSrc off :: rest →
        step s = .next { s with bus := rest, readData := (s.src.read off).toNat }) ∧
      (s.bus = .loadDst off :: rest → s.status ≠ .busy ∨ s.cmd.dstLen ≤ off →
        step s = .next { s with bus := rest, readData := (s.dst.read off).toNat })) ∧
    (2 ^ s.params.lenw ≤ off → ∀ m, accesses m off → s.bus = m :: rest →
      step s = .refused (.noSuchOffset off))

/-- A byte of DST in the declared range that HOST reads while BUSY is a free value; the read changes nothing
of DEC (20_memory.md R56; 93_implementation_defined.md U3; log 11). -/
def Obligations.BusyDstReadIsFree : Prop :=
  ∀ (s : State) (off : Nat) (rest : List HostMove), s.ctrl = 0 → s.status = .busy →
    off < 2 ^ s.params.lenw → off < s.cmd.dstLen → s.bus = .loadDst off :: rest →
    step s = .next { s with bus := rest, readData := (Config.freeValue 8 s.free).toNat, free := s.free + 1 }

/-- If HOST stores into the declared range of SRC or DST while BUSY, the command still reaches DONE without an
error, and then every byte of DST in the declared range is a free value, the bytes past it as they were
(20_memory.md R56; 93_implementation_defined.md U4; log 12). First the store marks the command; then the
marked command's last turn. -/
def Obligations.HostStoreWhileBusySpoilsDst : Prop :=
  (∀ (s t : State) (off : Nat) (v : Byte) (rest : List HostMove), s.ctrl = 0 →
      s.status = .busy → step s = .next t →
      (s.bus = .storeSrc off v :: rest → off < s.cmd.srcLen → t.tainted = true) ∧
      (s.bus = .storeDst off v :: rest → off < s.cmd.dstLen → t.tainted = true)) ∧
    ∀ s t : State, Inv s → s.status = .busy → s.tainted = true → decMoves s → step s = .next t →
      (t.status = .busy ∧ t.tainted = true) ∨
      (t.status = .done ∧ t.err = ⟨.none, 0⟩ ∧
        (∀ off < s.cmd.dstLen, t.dst.read off = Config.freeValue 8 (s.free + off)) ∧
        ∀ off : Nat, s.cmd.dstLen ≤ off → t.dst.read off = s.dst.read off)

/-! ### Reset -/

/-- The values after reset that 10_state.md R23 gives, whatever the parameters: IDLE, no error, no pulse pending,
SEQ and SUB 0; no command register counts as written by HOST. The unit that the model starts from has the
default DIMW of 00_scope.md R6. -/
def Obligations.ResetValues : Prop :=
  (∀ p : Params, let r := State.resetOf p
    r.params = p ∧ r.status = .idle ∧ r.err = ⟨.none, 0⟩ ∧ r.ctrl = 0 ∧ r.seq = 0 ∧ r.sub = 0 ∧
      r.written = ⟨false, false, false, false, false⟩) ∧
    State.reset = State.resetOf ⟨16, ⟨0, 1, 2, 3⟩⟩

/-- RESET when no command runs gives IDLE, no error, no pulse pending, SEQ and SUB 0, no command register
written, and touches neither SRC nor DST (70_reset_and_hazards.md R260). -/
def Obligations.HostReset : Prop :=
  ∀ (s : State) (rest : List HostMove), s.ctrl = 0 → s.bus = .reset :: rest → s.status ≠ .busy →
    ∃ t, step s = .next t ∧ t.status = .idle ∧ t.err = ⟨.none, 0⟩ ∧ t.ctrl = 0 ∧ t.seq = 0 ∧ t.sub = 0 ∧
      t.written = ⟨false, false, false, false, false⟩ ∧ t.params = s.params ∧ t.src = s.src ∧ t.dst = s.dst ∧ t.bus = rest

/-- RESET while BUSY abandons the command: the registers as after any reset, SRC untouched, every byte of DST
in the declared range a free value, the bytes past it as they were (R261; log 13). -/
def Obligations.HostResetWhileBusy : Prop :=
  ∀ (s : State) (rest : List HostMove), s.ctrl = 0 → s.bus = .reset :: rest → s.status = .busy → s.dst.wf →
    ∃ t, step s = .next t ∧ t.status = .idle ∧ t.err = ⟨.none, 0⟩ ∧ t.ctrl = 0 ∧ t.seq = 0 ∧ t.sub = 0 ∧
      t.written = ⟨false, false, false, false, false⟩ ∧ t.params = s.params ∧ t.src = s.src ∧ t.bus = rest ∧
      (∀ off < s.cmd.dstLen, t.dst.read off = Config.freeValue 8 (s.free + off)) ∧
      ∀ off : Nat, s.cmd.dstLen ≤ off → t.dst.read off = s.dst.read off

/-! ### The invariant -/

/-- The invariant holds after reset, for all parameters that R6 and D11 allow, the defaults among them. -/
def Obligations.InvAtReset : Prop :=
  (∀ p : Params, p.legal → Inv (State.resetOf p)) ∧ Params.standard.legal ∧ Inv State.reset

/-- Every step keeps the invariant: DIMW at least 3, each command register and SEQ of its width, both memories
canonical and inside the LENW-bit space, ERR in agreement with STATUS, a running command one that passed
validation with SEQ below its bound, no pulse left pending (00_scope.md R6; 10_state.md R12 to R16, R18; 20_memory.md R40; 46_dispatch.md R203). -/
def Obligations.StepKeepsInv : Prop := ∀ s t : State, Inv s → step s = .next t → Inv t

/-- Under the invariant no step faults, and the only refusals are of HOST's moves: the naming of a register above
7, and an offset of more than LENW bits. An accepted command cannot raise or stop (60_exceptions.md R239; the
refusals, log 5 and log 22). -/
def Obligations.StepsGoOn : Prop :=
  ∀ s : State, Inv s → (∃ t, step s = .next t) ∨
    (∃ n, 7 < n ∧ step s = .refused (.noSuchRegister n) ∧
      ((∃ v, nextHostMove s = some (.write n v)) ∨ nextHostMove s = some (.read n))) ∨
    ∃ off m, 2 ^ s.params.lenw ≤ off ∧ step s = .refused (.noSuchOffset off) ∧
      nextHostMove s = some m ∧ accesses m off

/-! ### The bit-expansion primitives -/

/-- `decomp565` returns the fields of the little-endian word, each shifted to the top of a byte
(40_bit_expansion.md R100). -/
def Obligations.Decomp565Fields : Prop :=
  ∀ a b : Byte, let v := a.toNat + 256 * b.toNat
    (decomp565 a b).1.toNat = v % 32 * 8 ∧ (decomp565 a b).2.1.toNat = v / 32 % 64 * 4 ∧
      (decomp565 a b).2.2.toNat = v / 2048 * 8

/-- `up5` and `up6` are the or of the value with its own shift to the right (R101); on their domains they have
the closed forms of R102, from 0 to 255, and are monotone. -/
def Obligations.UpsampleValues : Prop :=
  (∀ v : Byte, up5 v = v ||| (v >>> 5)) ∧ (∀ v : Byte, up6 v = v ||| (v >>> 6)) ∧
    (∀ n ≤ 31, up5 (BitVec.ofNat 8 (8 * n)) = BitVec.ofNat 8 (8 * n + n / 4)) ∧
    (∀ n ≤ 63, up6 (BitVec.ofNat 8 (4 * n)) = BitVec.ofNat 8 (4 * n + n / 16)) ∧
    up5 0 = 0 ∧ up6 0 = 0 ∧ up5 0xF8 = 255 ∧ up6 0xFC = 255 ∧
    (∀ m n : Nat, m ≤ n → n ≤ 31 →
      (up5 (BitVec.ofNat 8 (8 * m))).toNat ≤ (up5 (BitVec.ofNat 8 (8 * n))).toNat) ∧
    ∀ m n : Nat, m ≤ n → n ≤ 63 →
      (up6 (BitVec.ofNat 8 (4 * m))).toNat ≤ (up6 (BitVec.ofNat 8 (4 * n))).toNat

/-- `expand565` is `up5`, `up6`, `up5` of the fields of the word (R103). -/
def Obligations.Expand565Values : Prop :=
  ∀ a b : Byte, let v := a.toNat + 256 * b.toNat
    (expand565 a b).1.toNat = wide5 (v % 32) ∧ (expand565 a b).2.1.toNat = wide6 (v / 32 % 64) ∧
      (expand565 a b).2.2.toNat = wide5 (v / 2048)

/-- `rep4(n)` is `17*n`, strictly increasing, and `sel1` is 0 or 255 (R104, R105). -/
def Obligations.Rep4AndSel1 : Prop :=
  (∀ n : BitVec 4, (rep4 n).toNat = 17 * n.toNat) ∧
    (∀ m n : BitVec 4, m.toNat < n.toNat → (rep4 m).toNat < (rep4 n).toNat) ∧
    sel1 true = 255 ∧ sel1 false = 0

/-! ### The instructions: results, completion and frame -/

/-- `RGBA8888` and `BGRA8888` (41_byte_lane.md R111, R112). -/
def Obligations.RgbaAndBgraDecode : Prop :=
  LinearDecodes .rgba8888 0 4 pxRgba8888 ∧ LinearDecodes .bgra8888 1 4 pxBgra8888

/-- `ARGB8888`, whose source bytes are green, blue, alpha, red (R113). -/
def Obligations.ArgbDecodes : Prop := LinearDecodes .argb8888 2 4 pxArgb8888

/-- `ABGR8888` (R114). -/
def Obligations.AbgrDecodes : Prop := LinearDecodes .abgr8888 3 4 pxAbgr8888

/-- `RGB888` and `BGR888`, alpha forced to 255 (R115, R116). -/
def Obligations.RgbAndBgr888Decode : Prop :=
  LinearDecodes .rgb888 4 3 pxRgb888 ∧ LinearDecodes .bgr888 5 3 pxBgr888

/-- `BGRX8888`: stride 4, byte 3 ignored, alpha 255 (R117). -/
def Obligations.BgrxDecodes : Prop := LinearDecodes .bgrx8888 6 4 pxBgrx8888

/-- `UVLX8888` and `UVWQ8888` decode as `RGBA8888` does (R118, R119). -/
def Obligations.UvlxAndUvwqDecode : Prop :=
  LinearDecodes .uvlx8888 7 4 pxRgba8888 ∧ LinearDecodes .uvwq8888 8 4 pxRgba8888

/-- `RGB565` and `BGR565` (42_packed_bit.md R131, R132). -/
def Obligations.Packed565Decode : Prop :=
  LinearDecodes .rgb565 9 2 pxRgb565 ∧ LinearDecodes .bgr565 10 2 pxBgr565

/-- `BGRA4444`: every channel is 17 times its nibble (R133). Which nibble feeds which channel is NIBBLE_MAP, a
parameter that 92_eei_decisions.md D11 and U19 leave to the model (log 19); with the default map, that of
`State.reset`, the image is R133's own. -/
def Obligations.Bgra4444Decodes : Prop :=
  LinearDecodesBy .bgra4444 11 2 (fun p => pxNibbles p.nibbles) ∧
    ∀ (a : CmdArgs) (s : State), s.status ≠ .busy → s.dst.wf → ValidLinear s.params 2 a →
      s.params.nibbles = ⟨0, 1, 2, 3⟩ →
      ∃ t, exec (.bgra4444 a) s = .next t ∧ Decoded 11 a (pxBgra4444 s.src) s t

/-- `BGRA5551` and `BGRX5551` (R134, R135). -/
def Obligations.Packed5551Decode : Prop :=
  LinearDecodes .bgra5551 12 2 pxBgra5551 ∧ LinearDecodes .bgrx5551 13 2 pxBgrx5551

/-- `I8`, `IA88`, `A8` and `UV88` (43_scalar.md R151 to R154). -/
def Obligations.ScalarFormatsDecode : Prop :=
  LinearDecodes .i8 14 1 pxI8 ∧ LinearDecodes .ia88 15 2 pxIa88 ∧ LinearDecodes .a8 16 1 pxA8 ∧
    LinearDecodes .uv88 17 2 pxUv88

/-- `RGB888_BLUESCREEN` and `BGR888_BLUESCREEN`: the key is tested on the decoded triplet (44_colorkey.md R160
to R162). -/
def Obligations.BluescreenFormatsDecode : Prop :=
  LinearDecodes .rgb888Bluescreen 18 3 pxRgb888Bluescreen ∧
    LinearDecodes .bgr888Bluescreen 19 3 pxBgr888Bluescreen

/-- `DXT1` (45_dxt1.md R170 to R181). -/
def Obligations.Dxt1Decodes : Prop := BlockDecodes .dxt1 20 false

/-- `DXT1_ONEBITALPHA` (R182). -/
def Obligations.Dxt1OneBitAlphaDecodes : Prop := BlockDecodes .dxt1OneBitAlpha 21 true

/-- `P8`, `DXT3`, `DXT5`, `FLOAT16` and the six unassigned codes: outside BUSY the command ends at once in ERROR
with UnsupportedFormat and the code, whatever its operands; SRC and DST are untouched, and the command
registers hold the command (30_encoding.md R73, 43_scalar.md R155, 45_dxt1.md R184 to R186, 60_exceptions.md
R231). -/
def Obligations.FormatsWithoutLoaderAreRefused : Prop :=
  ∀ p ∈ ([(.p8, 22), (.dxt3, 23), (.dxt5, 24), (.float16, 25), (.unassigned26, 26), (.unassigned27, 27),
      (.unassigned28, 28), (.unassigned29, 29), (.unassigned30, 30), (.unassigned31, 31)] :
        List ((CmdArgs → Instr) × Nat)),
    ∀ (a : CmdArgs) (s : State), s.status ≠ .busy →
      exec (p.1 a) s = .next { s with
        cmd := registers s.params p.2 a, written := ⟨true, true, true, true, true⟩, seq := 0, sub := 0,
        status := .error, err := ⟨.unsupportedFormat, BitVec.ofNat _ p.2⟩ }

/-- START of a command that passes validation, outside BUSY: SEQ and SUB cleared, ERR cleared, STATUS BUSY, the
pulse consumed, nothing else changed; accepted in IDLE, DONE and ERROR alike (46_dispatch.md R202). -/
def Obligations.StartAccepts : Prop :=
  ∀ s : State, s.status ≠ .busy → s.written = ⟨true, true, true, true, true⟩ → firstError s.cmd = none →
    exec .start s = .next { s with
      seq := 0, sub := 0, err := ⟨.none, 0⟩, status := .busy, tainted := false, ctrl := s.ctrl &&& 2#2 }

/-- Trap entry: START of a command that fails validation writes the error's code and information to ERR and
ERROR to STATUS, in the same step, and changes nothing else but SEQ and SUB, set to 0, and the pulse,
consumed. The error is the first that fails in the order of 46_dispatch.md R203 (60_exceptions.md R230 to
R236, R238). -/
def Obligations.StartTraps : Prop :=
  ∀ (s : State) (k : Nat × Nat), s.status ≠ .busy → s.written = ⟨true, true, true, true, true⟩ →
    firstError s.cmd = some k →
    ∃ e, errIs e k ∧ exec .start s = .next { s with
      seq := 0, sub := 0, err := e, status := .error, ctrl := s.ctrl &&& 2#2 }

/-- START with a command register that HOST has not written since reset: the register takes a free value, fixed
for this command, and START does what it does for that value: BUSY with ERR cleared if the command is valid,
else ERROR with the error of the first failing check; SEQ and SUB 0, the pulse consumed, everything else as
it was (10_state.md R24, 93_implementation_defined.md U1; the model's choice, log 2). -/
def Obligations.StartSamplesFreeValues : Prop :=
  ∀ s : State, s.status ≠ .busy → s.written ≠ ⟨true, true, true, true, true⟩ →
    let c : Cmd := ⟨if s.written.fmt then s.cmd.fmt else Config.freeValue _ s.free,
      if s.written.width then s.cmd.width else (Config.freeValue s.params.dimw (s.free + 1)).toNat,
      if s.written.height then s.cmd.height else (Config.freeValue s.params.dimw (s.free + 2)).toNat,
      if s.written.srcLen then s.cmd.srcLen else (Config.freeValue s.params.lenw (s.free + 3)).toNat,
      if s.written.dstLen then s.cmd.dstLen else (Config.freeValue s.params.lenw (s.free + 4)).toNat⟩
    let u := { s with cmd := c, free := s.free + 5, seq := 0, sub := 0, ctrl := s.ctrl &&& 2#2 }
    match firstError c with
    | none => exec .start s = .next { u with err := ⟨.none, 0⟩, status := .busy, tainted := false }
    | some k => ∃ e, errIs e k ∧ exec .start s = .next { u with err := e, status := .error }

/-- ACK in DONE or ERROR sets IDLE and clears ERR and changes nothing else but the pulse, consumed; in IDLE it
does nothing; in BUSY it is ignored (46_dispatch.md R210). -/
def Obligations.AckAcknowledges : Prop :=
  ∀ s : State,
    (s.status = .done ∨ s.status = .error →
      exec .ack s = .next { s with status := .idle, err := ⟨.none, 0⟩, ctrl := s.ctrl &&& 1#2 }) ∧
    (s.status = .idle ∨ s.status = .busy → exec .ack s = .next { s with ctrl := s.ctrl &&& 1#2 })

/-- START while BUSY is ignored, and so is a whole command: nothing changes but the pulse, consumed
(10_state.md R16, 46_dispatch.md R202). -/
def Obligations.BusyIgnoresCommands : Prop :=
  ∀ s : State, s.status = .busy →
    exec .start s = .next { s with ctrl := s.ctrl &&& 2#2 } ∧
    ∀ (i : Instr) (w : Nat), encode s.params i = .cmd w → exec i s = .next s

/-- A command of any of the 32 codes that fails validation takes the exception of its first failing check and
leaves SRC and DST untouched (46_dispatch.md R203 to R205; 60_exceptions.md R230 to R237). -/
def Obligations.InvalidCommandTraps : Prop :=
  ∀ (i : Instr) (w : Nat) (s : State) (k : Nat × Nat), encode s.params i = .cmd w → s.status ≠ .busy →
    firstError (Cmd.unpack s.params w) = some k →
    ∃ e, errIs e k ∧ exec i s = .next { s with
      cmd := Cmd.unpack s.params w, written := ⟨true, true, true, true, true⟩, seq := 0, sub := 0, err := e, status := .error }

/-- A command that ends in ERROR leaves every byte of DST as it was, whichever instruction it is
(60_exceptions.md R237). -/
def Obligations.NoPartialWrites : Prop :=
  ∀ (i : Instr) (s t : State), s.status ≠ .busy → exec i s = .next t → t.status = .error →
    ∀ off : Nat, t.dst.read off = s.dst.read off

/-- Every instruction answers a next state in every state: an accepted command completes, no SRC content makes
it fail, and no instruction stops the machine (46_dispatch.md R208, R211; 60_exceptions.md R239). -/
def Obligations.CommandsAreTotal : Prop :=
  ∀ (i : Instr) (s : State), ∃ t, exec i s = .next t ∧
    ∀ w, encode s.params i = .cmd w → s.status ≠ .busy →
      (t.status = .done ↔ firstError (Cmd.unpack s.params w) = none)

/-! ### DEC's turns and the whole command -/

/-- A turn of DEC in a linear format: the pixel at SEQ is decoded and written, SEQ advances by one, SUB stays 0,
and the turn of the last pixel sets DONE (10_state.md R18, 46_dispatch.md R206, R208). That a step of DEC is one
pixel is the model's choice among those of 92_eei_decisions.md D10 (log 6). -/
def Obligations.LinearTurn : Prop :=
  ∀ s : State, Inv s → s.status = .busy → s.tainted = false → s.bus = [] → s.cmd.fmt.toNat < 20 →
    ∃ t, step s = .next t ∧ TurnWrites s t s.seq ∧
      t.seq = s.seq + 1 ∧ t.sub = 0 ∧
      t.status = (if s.seq + 1 = s.cmd.width * s.cmd.height then .done else .busy)

/-- A turn of DEC in a DXT1 format: the pixel at position SUB of block SEQ is decoded and written at its
row and column, SUB advances, after 15 to 0 with SEQ advancing, and the turn of the last pixel of the last
block sets DONE (10_state.md R18, 45_dxt1.md R180, R181; one pixel a step, log 6). -/
def Obligations.BlockTurn : Prop :=
  ∀ s : State, Inv s → s.status = .busy → s.tainted = false → s.bus = [] → 20 ≤ s.cmd.fmt.toNat →
    ∃ t, step s = .next t ∧
      TurnWrites s t (rasterOf s.cmd.width s.seq s.sub.toNat) ∧
      (s.sub ≠ 15 → t.sub = s.sub + 1 ∧ t.seq = s.seq ∧ t.status = .busy) ∧
      (s.sub = 15 → t.sub = 0 ∧ t.seq = s.seq + 1 ∧
        t.status = (if s.seq + 1 = s.cmd.width / 4 * (s.cmd.height / 4) then .done else .busy))

/-- The one-bit predicates after a turn of DEC: ABIT of a `BGRA5551` pixel, KEYHIT of a bluescreen pixel, and
MODE4 of a DXT1 block with the raw endpoint words it compares (10_state.md R19, 45_dxt1.md R172, R174). That a
turn is one pixel (log 6) and that the block is fetched again for each of its pixels, so that the words are
those SRC holds at this turn whatever HOST has done (log 15), are the model's choices. -/
def Obligations.PredicatesOfATurn : Prop :=
  ∀ s : State, Inv s → s.status = .busy → s.bus = [] →
    ∃ t, step s = .next t ∧
      let f := s.cmd.fmt.toNat
      let n := s.seq
      (f = 12 → (t.work.abit = true ↔ word s.src (2 * n) / 32768 = 1)) ∧
      (f = 18 → (t.work.keyhit = true ↔
        [s.src.read (3 * n), s.src.read (3 * n + 1), s.src.read (3 * n + 2)] = [0, 0, 255])) ∧
      (f = 19 → (t.work.keyhit = true ↔
        [s.src.read (3 * n + 2), s.src.read (3 * n + 1), s.src.read (3 * n)] = [0, 0, 255])) ∧
      (20 ≤ f → t.work.raw0.toNat = word s.src (8 * n) ∧ t.work.raw1.toNat = word s.src (8 * n + 2) ∧
        (t.work.mode4 = true ↔ word s.src (8 * n) > word s.src (8 * n + 2)))

/-- Outside BUSY, with no move of HOST, a step changes nothing (10_state.md R14; log 6). -/
def Obligations.DecIdlesOutsideBusy : Prop :=
  ∀ s : State, s.ctrl = 0 → s.bus = [] → s.status ≠ .busy → step s = .next s

/-- DEC writes no byte of DST at or past DST_LEN, whatever HOST has done (20_memory.md R47). -/
def Obligations.DecStaysInBounds : Prop :=
  ∀ s t : State, Inv s → decMoves s → step s = .next t →
    ∀ off : Nat, s.cmd.dstLen ≤ off → t.dst.read off = s.dst.read off

/-- An accepted command always completes: with HOST making no move, DEC reaches DONE in at most one turn a
pixel, and changes no command register on the way (46_dispatch.md R208, 70_reset_and_hazards.md R280; one pixel
a turn is the model's choice, log 6 and log 21). -/
def Obligations.AcceptedCommandCompletes : Prop :=
  ∀ s : State, Inv s → s.status = .busy → s.bus = [] →
    ∃ n ≤ s.cmd.width * s.cmd.height, ∃ t : State,
      Host.Core.run Sys2Proof.core n s = .next t ∧ t.status = .done ∧ t.err = ⟨.none, 0⟩ ∧ t.cmd = s.cmd

/-- The whole command as one function is what the register interface and the sequencer do: HOST writes the five
command registers, in any order and any number of times each, then START; DEC then takes at least one turn
a pixel. The state is, field by field, the one that the instruction leaves in one step (30_encoding.md R71,
46_dispatch.md R211, 20_memory.md R52). That a turn is one pixel (log 6, log 21) and that the instruction is
the whole command in one step (log 7) are the model's choices among those of 92_eei_decisions.md D10. -/
def Obligations.SequenceRefinesCommand : Prop :=
  ∀ (c : Cmd) (ws : List HostMove) (s : State) (n : Nat), s.ctrl = 0 → s.status ≠ .busy →
    (∀ m, m ∈ ws ↔ m ∈ registerWrites c) → s.bus = ws ++ [.write 5 1] →
    c.width * c.height ≤ n →
    Host.Core.run Sys2Proof.core (ws.length + 1 + n) s = exec (decodeCmd c) { s with bus := [] }

/-- The image depends only on the command and the SRC bytes below SRC_LEN: two machines that agree on these end
an accepted command with the same STATUS, ERR and image, whatever their earlier commands, the previous
contents of DST, ERR, and the working registers (10_state.md R21, 20_memory.md R47, R50). -/
def Obligations.ImageDependsOnSourceOnly : Prop :=
  ∀ (i : Instr) (w : Nat) (s s' t t' : State), s'.params = s.params → encode s.params i = .cmd w →
    firstError (Cmd.unpack s.params w) = none →
    s.status ≠ .busy → s'.status ≠ .busy → s.dst.wf → s'.dst.wf →
    (∀ o < (Cmd.unpack s.params w).srcLen, s.src.read o = s'.src.read o) →
    exec i s = .next t → exec i s' = .next t' →
    t.status = t'.status ∧ t.err = t'.err ∧
      ∀ o < (Cmd.unpack s.params w).dstLen, t.dst.read o = t'.dst.read o

/-- A linear format decodes a `w` by `h` image exactly as a `w*h` by 1 image, where both fit the registers
(46_dispatch.md R206). -/
def Obligations.LinearSeesOnlyTheProduct : Prop :=
  ∀ (f : BitVec Config.fmtw) (w h n d : Nat) (s t t' : State), f.toNat < 20 → 0 < w → 0 < h → w * h < 2 ^ s.params.dimw →
    s.status ≠ .busy → s.dst.wf → n = srcLenOf f.toNat w h → d = w * h * 4 →
    exec (decodeCmd (registers s.params f.toNat ⟨w, h, n, d⟩)) s = .next t →
    exec (decodeCmd (registers s.params f.toNat ⟨w * h, 1, n, d⟩)) s = .next t' →
    t.status = .done ∧ t'.status = .done ∧ t.dst = t'.dst

/-- For every image the `BGR565` result is the `RGB565` result with R and B exchanged (42_packed_bit.md R132). -/
def Obligations.Bgr565SwapsRedAndBlue : Prop :=
  ∀ (a : CmdArgs) (s t u : State), s.status ≠ .busy → s.dst.wf → ValidLinear s.params 2 a →
    exec (.rgb565 a) s = .next t → exec (.bgr565 a) s = .next u →
    ∀ p < a.width * a.height,
      u.dst.read (4 * p) = t.dst.read (4 * p + 2) ∧ u.dst.read (4 * p + 2) = t.dst.read (4 * p) ∧
        u.dst.read (4 * p + 1) = t.dst.read (4 * p + 1) ∧ u.dst.read (4 * p + 3) = t.dst.read (4 * p + 3)

/-- `DXT1` and `DXT1_ONEBITALPHA` differ only in the alpha byte of the pixels with index 3 in a block in
3-colour mode: 255 in the first, 0 in the second. Every other alpha is 255 in both, and the colour bytes of
those pixels are 0 (45_dxt1.md R181, R182). -/
def Obligations.OneBitAlphaDiffersOnlyInSentinel : Prop :=
  ∀ (a : CmdArgs) (s t u : State), s.status ≠ .busy → s.dst.wf → ValidBlock s.params a →
    exec (.dxt1 a) s = .next t → exec (.dxt1OneBitAlpha a) s = .next u →
    ∀ p < a.width * a.height,
      let transparent := indexOf s.src a.width p = 3 ∧
        word s.src (8 * blockOf a.width p) ≤ word s.src (8 * blockOf a.width p + 2)
      (∀ j < 3, u.dst.read (4 * p + j) = t.dst.read (4 * p + j)) ∧
        t.dst.read (4 * p + 3) = 255 ∧
        (transparent → u.dst.read (4 * p + 3) = 0 ∧ ∀ j < 3, u.dst.read (4 * p + j) = 0) ∧
        (¬ transparent → u.dst.read (4 * p + 3) = 255)

/-- In 4-colour mode each derived channel of the palette is the truncated third of the exact sum and lies between
the two reference channels (45_dxt1.md R175, R176, R183 (f)); in 3-colour mode the third entry is the
truncated half of the sum and the fourth is 0 (R177). -/
def Obligations.DerivedColoursLieBetween : Prop :=
  ∀ (oba : Bool) (b : Block), let w := blockStages oba b Work.reset
    ∀ ch ∈ [(w.c0.r, w.c1.r, w.pal.p2.r, w.pal.p3.r), (w.c0.g, w.c1.g, w.pal.p2.g, w.pal.p3.g),
        (w.c0.b, w.c1.b, w.pal.p2.b, w.pal.p3.b)],
      (w.raw0.toNat > w.raw1.toNat →
        ch.2.2.1.toNat = (2 * ch.1.toNat + ch.2.1.toNat) / 3 ∧
        ch.2.2.2.toNat = (ch.1.toNat + 2 * ch.2.1.toNat) / 3 ∧
        min ch.1.toNat ch.2.1.toNat ≤ ch.2.2.1.toNat ∧ ch.2.2.1.toNat ≤ max ch.1.toNat ch.2.1.toNat ∧
        min ch.1.toNat ch.2.1.toNat ≤ ch.2.2.2.toNat ∧ ch.2.2.2.toNat ≤ max ch.1.toNat ch.2.1.toNat) ∧
      (w.raw0.toNat ≤ w.raw1.toNat →
        ch.2.2.1.toNat = (ch.1.toNat + ch.2.1.toNat) / 2 ∧ ch.2.2.2.toNat = 0)

/-- The parameters are fixed: no step and no instruction changes them (00_scope.md R6, 10_state.md R11; that
they stand in State is the model's choice, log 1). -/
def Obligations.ParametersAreFixed : Prop :=
  (∀ s t : State, step s = .next t → t.params = s.params) ∧
    ∀ (i : Instr) (s t : State), exec i s = .next t → t.params = s.params
end

