-- ==== Sys2Proof/Laws/Bits.lean ====
section
/-! SUPPORT. The field extractor and the expanders as arithmetic on unsigned numbers (40_bit_expansion.md
R100 to R105, 45_dxt1.md R176, R179). -/

namespace Sys2Proof.Machine

theorem toNat_append_low {m n : Nat} (x : BitVec m) (y : BitVec n) :
    (x ++ y).toNat = x.toNat * 2 ^ n + y.toNat := by
  rw [BitVec.toNat_append, ← Nat.shiftLeft_add_eq_or_of_lt y.isLt, Nat.shiftLeft_eq]

theorem word16_toNat (a b : Byte) : (word16 a b).toNat = a.toNat + 256 * b.toNat := by
  rw [word16, toNat_append_low]; omega

theorem byte_lt (a : Byte) : a.toNat < 256 := a.isLt

/-- F0 of `decomp565`: the low five bits, times 8. -/
theorem decomp565_f0 (a b : Byte) :
    (decomp565 a b).1.toNat = 8 * ((a.toNat + 256 * b.toNat) % 32) := by
  simp only [decomp565, toNat_append_low, BitVec.extractLsb'_toNat, word16_toNat]
  simp [Nat.shiftRight_eq_div_pow]; omega

/-- F1 of `decomp565`: the middle six bits, times 4. -/
theorem decomp565_f1 (a b : Byte) :
    (decomp565 a b).2.1.toNat = 4 * ((a.toNat + 256 * b.toNat) / 32 % 64) := by
  simp only [decomp565, toNat_append_low, BitVec.extractLsb'_toNat, word16_toNat]
  simp [Nat.shiftRight_eq_div_pow]; omega

/-- F2 of `decomp565`: the high five bits, times 8. -/
theorem decomp565_f2 (a b : Byte) :
    (decomp565 a b).2.2.toNat = 8 * ((a.toNat + 256 * b.toNat) / 2048) := by
  have ha := byte_lt a
  have hb := byte_lt b
  simp only [decomp565, toNat_append_low, BitVec.extractLsb'_toNat, word16_toNat]
  simp [Nat.shiftRight_eq_div_pow]; omega

/-- `up5` on its domain (R102). -/
theorem up5_toNat {v : Byte} {n : Nat} (h : v.toNat = 8 * n) : (up5 v).toNat = 8 * n + n / 4 := by
  have key : ∀ w : Byte, w.toNat % 8 = 0 → (up5 w).toNat = w.toNat + w.toNat / 32 := by decide
  rw [key v (by omega), h]; omega

/-- `up6` on its domain (R102). -/
theorem up6_toNat {v : Byte} {n : Nat} (h : v.toNat = 4 * n) : (up6 v).toNat = 4 * n + n / 16 := by
  have key : ∀ w : Byte, w.toNat % 4 = 0 → (up6 w).toNat = w.toNat + w.toNat / 64 := by decide
  rw [key v (by omega), h]; omega

theorem expand565_e0 (a b : Byte) :
    (expand565 a b).1.toNat =
      8 * ((a.toNat + 256 * b.toNat) % 32) + (a.toNat + 256 * b.toNat) % 32 / 4 :=
  up5_toNat (decomp565_f0 a b)

theorem expand565_e1 (a b : Byte) :
    (expand565 a b).2.1.toNat =
      4 * ((a.toNat + 256 * b.toNat) / 32 % 64) + (a.toNat + 256 * b.toNat) / 32 % 64 / 16 :=
  up6_toNat (decomp565_f1 a b)

theorem expand565_e2 (a b : Byte) :
    (expand565 a b).2.2.toNat =
      8 * ((a.toNat + 256 * b.toNat) / 2048) + (a.toNat + 256 * b.toNat) / 2048 / 4 :=
  up5_toNat (decomp565_f2 a b)

theorem rep4_toNat (n : BitVec 4) : (rep4 n).toNat = 17 * n.toNat := by
  rw [rep4, toNat_append_low]; omega

theorem field5551P0_toNat (a b : Byte) :
    (field5551P0 a).toNat = 8 * ((a.toNat + 256 * b.toNat) % 32) := by
  have key : ∀ w : Byte, (field5551P0 w).toNat = 8 * (w.toNat % 32) := by decide
  rw [key]; omega

theorem field5551P1_toNat (a b : Byte) :
    (field5551P1 a b).toNat = 8 * ((a.toNat + 256 * b.toNat) / 32 % 32) := by
  have ka : ∀ w : Byte, ((w &&& 0xE0#8) >>> 2).toNat = 8 * (w.toNat / 32) := by decide
  have kb : ∀ w : Byte, ((w &&& 0x03#8) <<< 6).toNat = (w.toNat % 4) <<< 6 := by decide
  have ha := byte_lt a
  rw [field5551P1, BitVec.toNat_or, ka, kb, Nat.or_comm,
    ← Nat.shiftLeft_add_eq_or_of_lt (by omega), Nat.shiftLeft_eq]
  omega

theorem field5551P2_toNat (a b : Byte) :
    (field5551P2 b).toNat = 8 * ((a.toNat + 256 * b.toNat) / 1024 % 32) := by
  have key : ∀ w : Byte, (field5551P2 w).toNat = 8 * (w.toNat / 4 % 32) := by decide
  have ha := byte_lt a
  rw [key]; omega

theorem sel1_abit_toNat (a b : Byte) :
    (sel1 (abit b)).toNat = 255 * ((a.toNat + 256 * b.toNat) / 32768) := by
  have key : ∀ w : Byte, (sel1 (abit w)).toNat = 255 * (w.toNat / 128) := by decide
  have ha := byte_lt a
  rw [key]; omega

theorem nibble_toNat (a b : Byte) (n : Fin 4) :
    (nibble a b n).toNat = (a.toNat + 256 * b.toNat) / 16 ^ n.val % 16 := by
  have ha := byte_lt a
  have hb := byte_lt b
  fin_cases n <;>
    simp [nibble, BitVec.extractLsb'_toNat, Nat.shiftRight_eq_div_pow] <;> omega

/-- The index of column `x`, as 45_dxt1.md R179 computes it. -/
theorem pixelIndex_val (row : Byte) (x : Fin 4) :
    (pixelIndex row x).val = row.toNat / 2 ^ (6 - 2 * x.val) % 4 := by
  fin_cases x <;>
    simp [pixelIndex, Nat.shiftRight_eq_div_pow]

theorem subX_val (sub : BitVec 4) : (subX sub).val = sub.toNat % 4 := by
  simp [subX]

theorem subY_val (sub : BitVec 4) : (subY sub).val = sub.toNat / 4 := by
  have := sub.isLt
  simp [subY, Nat.shiftRight_eq_div_pow]
  omega

/-- The interpolator's quotient is a byte where the weights sum to the divisor (R176). -/
theorem interpolate_toNat {wa wb d : Nat} (hd : wa + wb = d) (h0 : 0 < d) (x y : Byte) :
    (interpolate wa wb d x y).toNat = (wa * x.toNat + wb * y.toNat) / d := by
  have hx := byte_lt x
  have hy := byte_lt y
  have : (wa * x.toNat + wb * y.toNat) / d < 256 := by
    rw [Nat.div_lt_iff_lt_mul h0]
    subst hd
    nlinarith
  simp [interpolate, Nat.mod_eq_of_lt this]

theorem mode4_eq (a b c d : Byte) :
    mode4 (word16 a b) (word16 c d) =
      decide (c.toNat + 256 * d.toNat < a.toNat + 256 * b.toNat) := by
  simp [mode4, word16_toNat]

/-- The key test is the comparison with `(0, 0, 255)`. -/
theorem keyhit_iff (r g b : Byte) : keyhit r g b = true ↔ r = 0#8 ∧ g = 0#8 ∧ b = 255#8 := by
  simp [keyhit, and_assoc]

end Sys2Proof.Machine
end

