-- ==== Sys2Proof/Laws/Encoding.lean ====
section
/-! SUPPORT. The bits of a command and its five registers say the same (30_encoding.md R70; log 8). -/

namespace Sys2Proof

/-- The lowest field of a packed number, and the rest. -/
theorem unpack_field {x n : Nat} (h : x < 2 ^ n) (y : Nat) :
    (x + 2 ^ n * y) % 2 ^ n = x ∧ (x + 2 ^ n * y) / 2 ^ n = y := by
  refine ⟨by rw [Nat.add_mul_mod_self_left, Nat.mod_eq_of_lt h], ?_⟩
  rw [Nat.add_mul_div_left _ _ (Nat.two_pow_pos n), Nat.div_eq_of_lt h, Nat.zero_add]

theorem Cmd.unpack_fits (p : Params) (w : Nat) : (Cmd.unpack p w).fits p :=
  ⟨Nat.mod_lt _ (Nat.two_pow_pos _), Nat.mod_lt _ (Nat.two_pow_pos _), Nat.mod_lt _ (Nat.two_pow_pos _),
    Nat.mod_lt _ (Nat.two_pow_pos _)⟩

/-- Registers that hold values of their widths are what their bits say. -/
theorem Cmd.unpack_pack {p : Params} {c : Cmd} (h : c.fits p) : Cmd.unpack p (c.pack p) = c := by
  obtain ⟨f, w, ht, sl, dl⟩ := c
  obtain ⟨hw, hh, hs, hd⟩ := h
  have hf := unpack_field f.isLt (w + 2 ^ p.dimw * (ht + 2 ^ p.dimw * (sl + 2 ^ p.lenw * dl)))
  have hf' : BitVec.ofNat Config.fmtw (Cmd.pack p ⟨f, w, ht, sl, dl⟩) = f :=
    BitVec.eq_of_toNat_eq (by rw [BitVec.toNat_ofNat]; exact hf.1)
  have h1 : Cmd.pack p ⟨f, w, ht, sl, dl⟩ / 2 ^ Config.fmtw =
    w + 2 ^ p.dimw * (ht + 2 ^ p.dimw * (sl + 2 ^ p.lenw * dl)) := hf.2
  simp only [Cmd.unpack, hf', h1, unpack_field hw, unpack_field hh, unpack_field hs, Nat.mod_eq_of_lt hd]

/-- The bits of the registers that a number stands for are the number's bits, as many as there are. -/
theorem Cmd.pack_unpack (p : Params) (w : Nat) : (Cmd.unpack p w).pack p = w % 2 ^ p.cmdw := by
  have e : 2 ^ p.cmdw = 2 ^ Config.fmtw * (2 ^ p.dimw * (2 ^ p.dimw * (2 ^ p.lenw * 2 ^ p.lenw))) := by
    simp only [Params.cmdw, Nat.pow_add, Nat.mul_assoc]
  simp only [e, Nat.mod_mul, Cmd.pack, Cmd.unpack, BitVec.toNat_ofNat]

theorem CmdArgs.toCmd_fits (p : Params) (f : BitVec Config.fmtw) (a : CmdArgs) : (a.toCmd p f).fits p :=
  ⟨Nat.mod_lt _ (Nat.two_pow_pos _), Nat.mod_lt _ (Nat.two_pow_pos _), Nat.mod_lt _ (Nat.two_pow_pos _),
    Nat.mod_lt _ (Nat.two_pow_pos _)⟩

@[simp] theorem CmdArgs.toCmd_fmt (p : Params) (f : BitVec Config.fmtw) (a : CmdArgs) :
    (a.toCmd p f).fmt = f := rfl

/-- Operands that fit their registers are what the registers hold. -/
theorem CmdArgs.args_toCmd {p : Params} {a : CmdArgs} (h : a.fits p) (f : BitVec Config.fmtw) :
    (a.toCmd p f).args = a := by
  obtain ⟨hw, hh, hs, hd⟩ := h
  simp only [CmdArgs.toCmd, Cmd.args, Nat.mod_eq_of_lt hw, Nat.mod_eq_of_lt hh, Nat.mod_eq_of_lt hs,
    Nat.mod_eq_of_lt hd]

/-- A register tuple that fits is that of its own FMT and operands. -/
theorem Cmd.toCmd_args {p : Params} {c : Cmd} (h : c.fits p) : c.args.toCmd p c.fmt = c := by
  obtain ⟨hw, hh, hs, hd⟩ := h
  simp only [CmdArgs.toCmd, Cmd.args, Nat.mod_eq_of_lt hw, Nat.mod_eq_of_lt hh, Nat.mod_eq_of_lt hs,
    Nat.mod_eq_of_lt hd]

/-- What the decoder reads from the encoding of a command. -/
theorem decode_encode_cmd (p : Params) (f : BitVec Config.fmtw) (a : CmdArgs) :
    decode p (a.encode p f) = .ok (decodeCmd (a.toCmd p f)) := by
  rw [CmdArgs.encode, decode, Cmd.unpack_pack (a.toCmd_fits p f)]

/-- A property of FMT codes holds of all if it holds of the 32. -/
theorem fmt_cases {P : BitVec Config.fmtw → Prop} (h : ∀ n : Fin 32, P (BitVec.ofFin n)) :
    ∀ f, P f := fun f => h f.toFin

/-- Every command has its FMT code's encoding. -/
theorem encode_decodeCmd (p : Params) (c : Cmd) : encode p (decodeCmd c) = c.args.encode p c.fmt := by
  obtain ⟨f, w, h, sl, dl⟩ := c
  have key : ∀ f : BitVec Config.fmtw, ∀ a : CmdArgs,
      encode p (decodeCmd ⟨f, a.width, a.height, a.srcLen, a.dstLen⟩) = a.encode p f := by
    refine fmt_cases fun n => ?_
    fin_cases n <;> intro a <;> rfl
  exact key f ⟨w, h, sl, dl⟩

/-- The operands of the instruction that a register tuple decodes to. -/
theorem args?_decodeCmd (c : Cmd) : (decodeCmd c).args? = some c.args := by
  obtain ⟨f, w, h, sl, dl⟩ := c
  have key : ∀ f : BitVec Config.fmtw, ∀ a : CmdArgs,
      (decodeCmd ⟨f, a.width, a.height, a.srcLen, a.dstLen⟩).args? = some a := by
    refine fmt_cases fun n => ?_
    fin_cases n <;> intro a <;> rfl
  exact key f ⟨w, h, sl, dl⟩

end Sys2Proof
end

