-- ==== Sys2Proof/Laws/PerInstr.lean ====
section
/-! SUPPORT. Decode and encode agree, instruction by instruction. -/

namespace Sys2Proof

namespace Laws.RoundTrip

/-- Decoding the encoding of a well-formed instruction gives it back, whatever the parameters. -/
def Statement (i : Instr) : Prop :=
  ∀ p : Params, i.wellFormed p = true → decode p (encode p i) = .ok i

/-- The shape shared by the 32 CMD instructions. -/
theorem of_cmd {i : Instr} {a : CmdArgs} {f : BitVec Config.fmtw} (ha : i.args? = some a)
    (he : ∀ p, encode p i = a.encode p f)
    (hd : ∀ c : Cmd, c.fmt = f → c.args = a → decodeCmd c = i) : Statement i := by
  intro p hw
  have hf : a.fits p := by simpa [Instr.wellFormed, ha] using hw
  rw [he, decode_encode_cmd, hd _ rfl (CmdArgs.args_toCmd hf f)]

theorem rgba8888 (a : CmdArgs) : Statement (.rgba8888 a) := of_cmd rfl (fun _ => rfl) (by rintro ⟨_, _⟩ rfl rfl; rfl)
theorem bgra8888 (a : CmdArgs) : Statement (.bgra8888 a) := of_cmd rfl (fun _ => rfl) (by rintro ⟨_, _⟩ rfl rfl; rfl)
theorem argb8888 (a : CmdArgs) : Statement (.argb8888 a) := of_cmd rfl (fun _ => rfl) (by rintro ⟨_, _⟩ rfl rfl; rfl)
theorem abgr8888 (a : CmdArgs) : Statement (.abgr8888 a) := of_cmd rfl (fun _ => rfl) (by rintro ⟨_, _⟩ rfl rfl; rfl)
theorem rgb888 (a : CmdArgs) : Statement (.rgb888 a) := of_cmd rfl (fun _ => rfl) (by rintro ⟨_, _⟩ rfl rfl; rfl)
theorem bgr888 (a : CmdArgs) : Statement (.bgr888 a) := of_cmd rfl (fun _ => rfl) (by rintro ⟨_, _⟩ rfl rfl; rfl)
theorem bgrx8888 (a : CmdArgs) : Statement (.bgrx8888 a) := of_cmd rfl (fun _ => rfl) (by rintro ⟨_, _⟩ rfl rfl; rfl)
theorem uvlx8888 (a : CmdArgs) : Statement (.uvlx8888 a) := of_cmd rfl (fun _ => rfl) (by rintro ⟨_, _⟩ rfl rfl; rfl)
theorem uvwq8888 (a : CmdArgs) : Statement (.uvwq8888 a) := of_cmd rfl (fun _ => rfl) (by rintro ⟨_, _⟩ rfl rfl; rfl)
theorem rgb565 (a : CmdArgs) : Statement (.rgb565 a) := of_cmd rfl (fun _ => rfl) (by rintro ⟨_, _⟩ rfl rfl; rfl)
theorem bgr565 (a : CmdArgs) : Statement (.bgr565 a) := of_cmd rfl (fun _ => rfl) (by rintro ⟨_, _⟩ rfl rfl; rfl)
theorem bgra4444 (a : CmdArgs) : Statement (.bgra4444 a) := of_cmd rfl (fun _ => rfl) (by rintro ⟨_, _⟩ rfl rfl; rfl)
theorem bgra5551 (a : CmdArgs) : Statement (.bgra5551 a) := of_cmd rfl (fun _ => rfl) (by rintro ⟨_, _⟩ rfl rfl; rfl)
theorem bgrx5551 (a : CmdArgs) : Statement (.bgrx5551 a) := of_cmd rfl (fun _ => rfl) (by rintro ⟨_, _⟩ rfl rfl; rfl)
theorem i8 (a : CmdArgs) : Statement (.i8 a) := of_cmd rfl (fun _ => rfl) (by rintro ⟨_, _⟩ rfl rfl; rfl)
theorem ia88 (a : CmdArgs) : Statement (.ia88 a) := of_cmd rfl (fun _ => rfl) (by rintro ⟨_, _⟩ rfl rfl; rfl)
theorem a8 (a : CmdArgs) : Statement (.a8 a) := of_cmd rfl (fun _ => rfl) (by rintro ⟨_, _⟩ rfl rfl; rfl)
theorem uv88 (a : CmdArgs) : Statement (.uv88 a) := of_cmd rfl (fun _ => rfl) (by rintro ⟨_, _⟩ rfl rfl; rfl)
theorem rgb888Bluescreen (a : CmdArgs) : Statement (.rgb888Bluescreen a) := of_cmd rfl (fun _ => rfl) (by rintro ⟨_, _⟩ rfl rfl; rfl)
theorem bgr888Bluescreen (a : CmdArgs) : Statement (.bgr888Bluescreen a) := of_cmd rfl (fun _ => rfl) (by rintro ⟨_, _⟩ rfl rfl; rfl)
theorem dxt1 (a : CmdArgs) : Statement (.dxt1 a) := of_cmd rfl (fun _ => rfl) (by rintro ⟨_, _⟩ rfl rfl; rfl)
theorem dxt1OneBitAlpha (a : CmdArgs) : Statement (.dxt1OneBitAlpha a) := of_cmd rfl (fun _ => rfl) (by rintro ⟨_, _⟩ rfl rfl; rfl)
theorem p8 (a : CmdArgs) : Statement (.p8 a) := of_cmd rfl (fun _ => rfl) (by rintro ⟨_, _⟩ rfl rfl; rfl)
theorem dxt3 (a : CmdArgs) : Statement (.dxt3 a) := of_cmd rfl (fun _ => rfl) (by rintro ⟨_, _⟩ rfl rfl; rfl)
theorem dxt5 (a : CmdArgs) : Statement (.dxt5 a) := of_cmd rfl (fun _ => rfl) (by rintro ⟨_, _⟩ rfl rfl; rfl)
theorem float16 (a : CmdArgs) : Statement (.float16 a) := of_cmd rfl (fun _ => rfl) (by rintro ⟨_, _⟩ rfl rfl; rfl)
theorem unassigned26 (a : CmdArgs) : Statement (.unassigned26 a) := of_cmd rfl (fun _ => rfl) (by rintro ⟨_, _⟩ rfl rfl; rfl)
theorem unassigned27 (a : CmdArgs) : Statement (.unassigned27 a) := of_cmd rfl (fun _ => rfl) (by rintro ⟨_, _⟩ rfl rfl; rfl)
theorem unassigned28 (a : CmdArgs) : Statement (.unassigned28 a) := of_cmd rfl (fun _ => rfl) (by rintro ⟨_, _⟩ rfl rfl; rfl)
theorem unassigned29 (a : CmdArgs) : Statement (.unassigned29 a) := of_cmd rfl (fun _ => rfl) (by rintro ⟨_, _⟩ rfl rfl; rfl)
theorem unassigned30 (a : CmdArgs) : Statement (.unassigned30 a) := of_cmd rfl (fun _ => rfl) (by rintro ⟨_, _⟩ rfl rfl; rfl)
theorem unassigned31 (a : CmdArgs) : Statement (.unassigned31 a) := of_cmd rfl (fun _ => rfl) (by rintro ⟨_, _⟩ rfl rfl; rfl)
theorem start : Statement .start := fun _ _ => rfl
theorem ack : Statement .ack := fun _ _ => rfl

end Laws.RoundTrip

end Sys2Proof
end

