-- ==== Sys2Proof/Laws/Memory.lean ====
section
/-! SUPPORT. The laws of the two memories: read after write, and the canonical form. -/

namespace Sys2Proof.Machine

theorem Memory.read_nil (off : Nat) : Memory.read [] off = Memory.unlisted := rfl

theorem Memory.read_cons (a : Nat) (v : Byte) (m : Memory) (off : Nat) :
    Memory.read ((a, v) :: m) off = if a = off then v else Memory.read m off := rfl

/-- An offset below every listed one is not listed. -/
theorem Memory.read_below {m : Memory} {off : Nat} (h : ∀ c ∈ m, off < c.1) :
    Memory.read m off = Memory.unlisted := by
  induction m with
  | nil => rfl
  | cons c m ih =>
    obtain ⟨a, v⟩ := c
    have ha : off < a := h (a, v) (by simp)
    rw [Memory.read_cons, if_neg (by omega)]
    exact ih fun c hc => h c (by simp [hc])

theorem Memory.wf_tail {c : Host.Cell} {m : Memory} (h : Memory.wf (c :: m)) : Memory.wf m :=
  ⟨(List.pairwise_cons.1 h.1).2, fun x hx => h.2 x (by simp [hx])⟩

theorem Memory.wf_below {c : Host.Cell} {m : Memory} (h : Memory.wf (c :: m)) :
    ∀ x ∈ m, c.1 < x.1 := (List.pairwise_cons.1 h.1).1

/-- A canonical memory reads back what was written. -/
theorem Memory.read_write_same {m : Memory} (h : Memory.wf m) (off : Nat) (v : Byte) :
    (m.write off v).read off = v := by
  induction m with
  | nil =>
    by_cases hv : v = Memory.unlisted
    · simp [Memory.write, Memory.read, hv]
    · simp [Memory.write, Memory.read, hv]
  | cons c m ih =>
    obtain ⟨a, w⟩ := c
    have hb := Memory.wf_below h
    unfold Memory.write
    split
    · next hlt =>
      split
      · next hv =>
        rw [hv]
        refine Memory.read_below fun c hc => ?_
        rcases List.mem_cons.1 hc with rfl | hc
        · exact hlt
        · exact lt_trans hlt (hb c hc)
      · simp [Memory.read]
    · next hge =>
      split
      · next heq =>
        subst heq
        split
        · next hv => rw [hv]; exact Memory.read_below hb
        · simp [Memory.read]
      · next hne =>
        rw [Memory.read_cons, if_neg (fun e => hne e.symm)]
        exact ih (Memory.wf_tail h)

/-- A write leaves every other offset alone, whatever the memory. -/
theorem Memory.read_write_other (m : Memory) {off off' : Nat} (v : Byte) (h : off' ≠ off) :
    (m.write off v).read off' = m.read off' := by
  induction m with
  | nil =>
    unfold Memory.write
    split
    · rfl
    · rw [Memory.read_cons, if_neg (fun e => h e.symm)]
  | cons c m ih =>
    obtain ⟨a, w⟩ := c
    unfold Memory.write
    split
    · split
      · rfl
      · rw [Memory.read_cons, if_neg (fun e => h e.symm)]
    · split
      · next heq =>
        subst heq
        split
        · rw [Memory.read_cons, if_neg (fun e => h e.symm)]
        · rw [Memory.read_cons, Memory.read_cons, if_neg (fun e => h e.symm),
            if_neg (fun e => h e.symm)]
      · rw [Memory.read_cons, Memory.read_cons, ih]

theorem Memory.read_write {m : Memory} (h : Memory.wf m) (off off' : Nat) (v : Byte) :
    (m.write off v).read off' = if off' = off then v else m.read off' := by
  split
  · next e => rw [e, Memory.read_write_same h]
  · next e => exact Memory.read_write_other m v e

/-- The cells after a write are the written one and old ones. -/
theorem Memory.mem_write {m : Memory} {off : Nat} {v : Byte} {c : Host.Cell}
    (h : c ∈ m.write off v) : (c = (off, v) ∧ v ≠ Memory.unlisted) ∨ c ∈ m := by
  induction m with
  | nil =>
    unfold Memory.write at h
    split at h
    · simp at h
    · next hv => exact .inl ⟨by simpa using h, hv⟩
  | cons d m ih =>
    obtain ⟨a, w⟩ := d
    unfold Memory.write at h
    split at h
    · split at h
      · exact .inr h
      · next hv =>
        rcases List.mem_cons.1 h with rfl | h
        · exact .inl ⟨rfl, hv⟩
        · exact .inr h
    · split at h
      · split at h
        · exact .inr (List.mem_cons_of_mem _ h)
        · next hv =>
          rcases List.mem_cons.1 h with rfl | h
          · exact .inl ⟨rfl, hv⟩
          · exact .inr (List.mem_cons_of_mem _ h)
      · rcases List.mem_cons.1 h with rfl | h
        · exact .inr (by simp)
        · rcases ih h with hc | hc
          · exact .inl hc
          · exact .inr (List.mem_cons_of_mem _ hc)

/-- A write keeps the canonical form. -/
theorem Memory.write_wf {m : Memory} (h : Memory.wf m) (off : Nat) (v : Byte) :
    (m.write off v).wf := by
  refine ⟨?_, fun c hc => ?_⟩
  · induction m with
    | nil =>
      unfold Memory.write
      split
      · simp
      · simp
    | cons d m ih =>
      obtain ⟨a, w⟩ := d
      have hb := Memory.wf_below h
      have hp := h.1
      unfold Memory.write
      split
      · next hlt =>
        split
        · exact hp
        · refine List.pairwise_cons.2 ⟨fun c hc => ?_, hp⟩
          rcases List.mem_cons.1 hc with rfl | hc
          · exact hlt
          · exact lt_trans hlt (hb c hc)
      · next hge =>
        split
        · next heq =>
          subst heq
          split
          · exact (Memory.wf_tail h).1
          · exact List.pairwise_cons.2 ⟨hb, (Memory.wf_tail h).1⟩
        · next hne =>
          refine List.pairwise_cons.2 ⟨fun c hc => ?_, ih (Memory.wf_tail h)⟩
          rcases Memory.mem_write hc with ⟨rfl, -⟩ | hc
          · show a < off
            omega
          · exact hb c hc
  · rcases Memory.mem_write hc with ⟨rfl, hv⟩ | hc
    · exact hv
    · exact h.2 c hc

theorem Memory.write_inSpace {q : Params} {m : Memory} (h : m.inSpace q) {off : Nat} (ho : off < 2 ^ q.lenw)
    (v : Byte) : (m.write off v).inSpace q := by
  intro c hc
  rcases Memory.mem_write hc with ⟨rfl, -⟩ | hc
  · exact ho
  · exact h c hc

/-- Canonical memories that read the same everywhere are the same data. -/
theorem Memory.ext_read {m n : Memory} (hm : m.wf) (hn : n.wf) (h : ∀ off, m.read off = n.read off) :
    m = n := by
  induction m generalizing n with
  | nil =>
    cases n with
    | nil => rfl
    | cons d n =>
      obtain ⟨b, w⟩ := d
      have hw := hn.2 (b, w) (by simp)
      have := h b
      simp [Memory.read] at this
      exact absurd this.symm hw
  | cons c m ih =>
    obtain ⟨a, v⟩ := c
    have hv := hm.2 (a, v) (by simp)
    have hbm := Memory.wf_below hm
    cases n with
    | nil =>
      have := h a
      simp [Memory.read] at this
      exact absurd this hv
    | cons d n =>
      obtain ⟨b, w⟩ := d
      have hw := hn.2 (b, w) (by simp)
      have hbn := Memory.wf_below hn
      have hab : a = b := by
        rcases lt_trichotomy a b with hlt | heq | hgt
        · have := h a
          rw [Memory.read_cons, if_pos rfl, Memory.read_below (m := (b, w) :: n)] at this
          · exact absurd this hv
          · intro c hc
            rcases List.mem_cons.1 hc with rfl | hc
            · exact hlt
            · exact lt_trans hlt (hbn c hc)
        · exact heq
        · have := h b
          rw [Memory.read_cons (m := n), if_pos rfl, Memory.read_below (m := (a, v) :: m)] at this
          · exact absurd this.symm hw
          · intro c hc
            rcases List.mem_cons.1 hc with rfl | hc
            · exact hgt
            · exact lt_trans hgt (hbm c hc)
      subst hab
      have hvw : v = w := by simpa [Memory.read] using h a
      subst hvw
      congr 1
      refine ih (Memory.wf_tail hm) (Memory.wf_tail hn) fun off => ?_
      by_cases ho : a = off
      · subst ho
        rw [Memory.read_below hbm, Memory.read_below hbn]
      · simpa [Memory.read, ho] using h off

/-! ### Pixels -/

theorem Memory.writePixel_wf {m : Memory} (h : m.wf) (p : Nat) (px : Pixel) :
    (m.writePixel p px).wf :=
  Memory.write_wf (Memory.write_wf (Memory.write_wf (Memory.write_wf h _ _) _ _) _ _) _ _

theorem Memory.writePixel_inSpace {q : Params} {m : Memory} (h : m.inSpace q) {p : Nat}
    (hp : 4 * p + 3 < 2 ^ q.lenw) (px : Pixel) : (m.writePixel p px).inSpace q :=
  Memory.write_inSpace (Memory.write_inSpace (Memory.write_inSpace (Memory.write_inSpace h
    (by omega) _) (by omega) _) (by omega) _) hp _

/-- Writing a pixel leaves every byte outside its four alone. -/
theorem Memory.read_writePixel_other (m : Memory) {p off : Nat} (px : Pixel)
    (h : off < 4 * p ∨ 4 * p + 4 ≤ off) : (m.writePixel p px).read off = m.read off := by
  unfold Memory.writePixel
  rw [Memory.read_write_other _ _ (by omega), Memory.read_write_other _ _ (by omega),
    Memory.read_write_other _ _ (by omega), Memory.read_write_other _ _ (by omega)]

theorem Memory.pixel_writePixel_same {m : Memory} (h : m.wf) (p : Nat) (px : Pixel) :
    (m.writePixel p px).pixel p = px := by
  have h1 := Memory.write_wf h (4 * p) px.r
  have h2 := Memory.write_wf h1 (4 * p + 1) px.g
  have h3 := Memory.write_wf h2 (4 * p + 2) px.b
  simp only [Memory.pixel, Memory.writePixel, Memory.read_write h3, Memory.read_write h2,
    Memory.read_write h1, Memory.read_write h]
  simp

theorem Memory.pixel_writePixel_other (m : Memory) {p q : Nat} (px : Pixel) (h : q ≠ p) :
    (m.writePixel p px).pixel q = m.pixel q := by
  simp only [Memory.pixel]
  rw [Memory.read_writePixel_other _ _ (by omega), Memory.read_writePixel_other _ _ (by omega),
    Memory.read_writePixel_other _ _ (by omega), Memory.read_writePixel_other _ _ (by omega)]

theorem Memory.pixel_writePixel {m : Memory} (h : m.wf) (p q : Nat) (px : Pixel) :
    (m.writePixel p px).pixel q = if q = p then px else m.pixel q := by
  split
  · next e => rw [e, Memory.pixel_writePixel_same h]
  · next e => exact Memory.pixel_writePixel_other m px e

/-- Two memories with the same pixels below `n` have the same bytes below `4 * n`. -/
theorem Memory.read_eq_of_pixel_eq {m m' : Memory} {n : Nat} (h : ∀ p < n, m.pixel p = m'.pixel p) :
    ∀ off < 4 * n, m.read off = m'.read off := by
  intro off ho
  have hp := h (off / 4) (by omega)
  simp only [Memory.pixel, Pixel.mk.injEq] at hp
  have hr := Nat.mod_lt off (show 4 > 0 by decide)
  have he : off = 4 * (off / 4) + off % 4 := by omega
  rw [he]
  rcases (by omega : off % 4 = 0 ∨ off % 4 = 1 ∨ off % 4 = 2 ∨ off % 4 = 3) with e | e | e | e <;>
    rw [e]
  · exact hp.1
  · exact hp.2.1
  · exact hp.2.2.1
  · exact hp.2.2.2

/-! ### Unspecified contents -/

theorem Memory.scramble_wf {m : Memory} (h : m.wf) (k n : Nat) : (m.scramble k n).wf := by
  induction n with
  | zero => exact h
  | succ n ih => exact Memory.write_wf ih _ _

theorem Memory.scramble_inSpace {q : Params} {m : Memory} (h : m.inSpace q) (k : Nat) {n : Nat}
    (hn : n ≤ 2 ^ q.lenw) : (m.scramble k n).inSpace q := by
  induction n with
  | zero => exact h
  | succ n ih => exact Memory.write_inSpace (ih (by omega)) (by omega) _

theorem Memory.read_scramble {m : Memory} (h : m.wf) (k n off : Nat) :
    (m.scramble k n).read off = if off < n then Config.freeValue 8 (k + off) else m.read off := by
  induction n with
  | zero => simp [Memory.scramble]
  | succ n ih =>
    rw [Memory.scramble, Memory.read_write (Memory.scramble_wf h k n), ih]
    by_cases e : off = n
    · subst e; simp
    · rw [if_neg e]
      by_cases hlt : off < n
      · rw [if_pos hlt, if_pos (by omega)]
      · rw [if_neg hlt, if_neg (by omega)]

end Sys2Proof.Machine
end

