-- ==== Sys2Proof/Laws/State.lean ====
section
/-! SUPPORT. What each shared update of the state leaves, field by field, so that no later proof unfolds a
record update. -/

namespace Sys2Proof.Machine

section setCtrl
variable (s : State) (v : BitVec 2)
@[simp] theorem State.setCtrl_cmd : (s.setCtrl v).cmd = s.cmd := rfl
@[simp] theorem State.setCtrl_written : (s.setCtrl v).written = s.written := rfl
@[simp] theorem State.setCtrl_params : (s.setCtrl v).params = s.params := rfl
@[simp] theorem State.setCtrl_ctrl : (s.setCtrl v).ctrl = v := rfl
@[simp] theorem State.setCtrl_status : (s.setCtrl v).status = s.status := rfl
@[simp] theorem State.setCtrl_err : (s.setCtrl v).err = s.err := rfl
@[simp] theorem State.setCtrl_seq : (s.setCtrl v).seq = s.seq := rfl
@[simp] theorem State.setCtrl_sub : (s.setCtrl v).sub = s.sub := rfl
@[simp] theorem State.setCtrl_work : (s.setCtrl v).work = s.work := rfl
@[simp] theorem State.setCtrl_src : (s.setCtrl v).src = s.src := rfl
@[simp] theorem State.setCtrl_dst : (s.setCtrl v).dst = s.dst := rfl
@[simp] theorem State.setCtrl_tainted : (s.setCtrl v).tainted = s.tainted := rfl
@[simp] theorem State.setCtrl_readData : (s.setCtrl v).readData = s.readData := rfl
@[simp] theorem State.setCtrl_free : (s.setCtrl v).free = s.free := rfl
@[simp] theorem State.setCtrl_bus : (s.setCtrl v).bus = s.bus := rfl
@[simp] theorem State.setCtrl_setCtrl (w : BitVec 2) : (s.setCtrl v).setCtrl w = s.setCtrl w := rfl
theorem State.setCtrl_self : s.setCtrl s.ctrl = s := rfl
end setCtrl

section raise
variable (s : State) (e : ErrorKind)
@[simp] theorem State.raise_cmd : (s.raise e).cmd = s.cmd := rfl
@[simp] theorem State.raise_written : (s.raise e).written = s.written := rfl
@[simp] theorem State.raise_params : (s.raise e).params = s.params := rfl
@[simp] theorem State.raise_ctrl : (s.raise e).ctrl = s.ctrl := rfl
@[simp] theorem State.raise_status : (s.raise e).status = .error := rfl
@[simp] theorem State.raise_err : (s.raise e).err = e.err := rfl
@[simp] theorem State.raise_seq : (s.raise e).seq = s.seq := rfl
@[simp] theorem State.raise_sub : (s.raise e).sub = s.sub := rfl
@[simp] theorem State.raise_work : (s.raise e).work = s.work := rfl
@[simp] theorem State.raise_src : (s.raise e).src = s.src := rfl
@[simp] theorem State.raise_dst : (s.raise e).dst = s.dst := rfl
@[simp] theorem State.raise_tainted : (s.raise e).tainted = s.tainted := rfl
@[simp] theorem State.raise_readData : (s.raise e).readData = s.readData := rfl
@[simp] theorem State.raise_free : (s.raise e).free = s.free := rfl
@[simp] theorem State.raise_bus : (s.raise e).bus = s.bus := rfl
end raise

section accept
variable (s : State)
@[simp] theorem State.accept_cmd : s.accept.cmd = s.cmd := rfl
@[simp] theorem State.accept_written : s.accept.written = s.written := rfl
@[simp] theorem State.accept_params : s.accept.params = s.params := rfl
@[simp] theorem State.accept_ctrl : s.accept.ctrl = s.ctrl := rfl
@[simp] theorem State.accept_status : s.accept.status = .busy := rfl
@[simp] theorem State.accept_err : s.accept.err = ⟨.none, 0⟩ := rfl
@[simp] theorem State.accept_seq : s.accept.seq = s.seq := rfl
@[simp] theorem State.accept_sub : s.accept.sub = s.sub := rfl
@[simp] theorem State.accept_work : s.accept.work = s.work := rfl
@[simp] theorem State.accept_src : s.accept.src = s.src := rfl
@[simp] theorem State.accept_dst : s.accept.dst = s.dst := rfl
@[simp] theorem State.accept_tainted : s.accept.tainted = false := rfl
@[simp] theorem State.accept_readData : s.accept.readData = s.readData := rfl
@[simp] theorem State.accept_free : s.accept.free = s.free := rfl
@[simp] theorem State.accept_bus : s.accept.bus = s.bus := rfl
end accept

section writeCmd
variable (s : State) (c : Cmd)
@[simp] theorem State.writeCmd_cmd : (s.writeCmd c).cmd = c := rfl
@[simp] theorem State.writeCmd_written : (s.writeCmd c).written = ⟨true, true, true, true, true⟩ := rfl
@[simp] theorem State.writeCmd_params : (s.writeCmd c).params = s.params := rfl
@[simp] theorem State.writeCmd_ctrl : (s.writeCmd c).ctrl = s.ctrl := rfl
@[simp] theorem State.writeCmd_status : (s.writeCmd c).status = s.status := rfl
@[simp] theorem State.writeCmd_err : (s.writeCmd c).err = s.err := rfl
@[simp] theorem State.writeCmd_seq : (s.writeCmd c).seq = s.seq := rfl
@[simp] theorem State.writeCmd_sub : (s.writeCmd c).sub = s.sub := rfl
@[simp] theorem State.writeCmd_work : (s.writeCmd c).work = s.work := rfl
@[simp] theorem State.writeCmd_src : (s.writeCmd c).src = s.src := rfl
@[simp] theorem State.writeCmd_dst : (s.writeCmd c).dst = s.dst := rfl
@[simp] theorem State.writeCmd_tainted : (s.writeCmd c).tainted = s.tainted := rfl
@[simp] theorem State.writeCmd_readData : (s.writeCmd c).readData = s.readData := rfl
@[simp] theorem State.writeCmd_free : (s.writeCmd c).free = s.free := rfl
@[simp] theorem State.writeCmd_bus : (s.writeCmd c).bus = s.bus := rfl
end writeCmd

section scrambleDst
variable (s : State)
@[simp] theorem State.scrambleDst_cmd : s.scrambleDst.cmd = s.cmd := rfl
@[simp] theorem State.scrambleDst_written : s.scrambleDst.written = s.written := rfl
@[simp] theorem State.scrambleDst_params : s.scrambleDst.params = s.params := rfl
@[simp] theorem State.scrambleDst_ctrl : s.scrambleDst.ctrl = s.ctrl := rfl
@[simp] theorem State.scrambleDst_status : s.scrambleDst.status = s.status := rfl
@[simp] theorem State.scrambleDst_err : s.scrambleDst.err = s.err := rfl
@[simp] theorem State.scrambleDst_seq : s.scrambleDst.seq = s.seq := rfl
@[simp] theorem State.scrambleDst_sub : s.scrambleDst.sub = s.sub := rfl
@[simp] theorem State.scrambleDst_work : s.scrambleDst.work = s.work := rfl
@[simp] theorem State.scrambleDst_src : s.scrambleDst.src = s.src := rfl
@[simp] theorem State.scrambleDst_tainted : s.scrambleDst.tainted = s.tainted := rfl
@[simp] theorem State.scrambleDst_readData : s.scrambleDst.readData = s.readData := rfl
@[simp] theorem State.scrambleDst_bus : s.scrambleDst.bus = s.bus := rfl
end scrambleDst

section complete
variable (s : State)
@[simp] theorem State.complete_cmd : s.complete.cmd = s.cmd := by unfold State.complete; split <;> rfl
@[simp] theorem State.complete_written : s.complete.written = s.written := by
  unfold State.complete; split <;> rfl
@[simp] theorem State.complete_params : s.complete.params = s.params := by unfold State.complete; split <;> rfl
@[simp] theorem State.complete_ctrl : s.complete.ctrl = s.ctrl := by unfold State.complete; split <;> rfl
@[simp] theorem State.complete_status : s.complete.status = .done := by unfold State.complete; split <;> rfl
@[simp] theorem State.complete_err : s.complete.err = s.err := by unfold State.complete; split <;> rfl
@[simp] theorem State.complete_seq : s.complete.seq = s.seq := by unfold State.complete; split <;> rfl
@[simp] theorem State.complete_sub : s.complete.sub = s.sub := by unfold State.complete; split <;> rfl
@[simp] theorem State.complete_work : s.complete.work = s.work := by unfold State.complete; split <;> rfl
@[simp] theorem State.complete_src : s.complete.src = s.src := by unfold State.complete; split <;> rfl
@[simp] theorem State.complete_readData : s.complete.readData = s.readData := by
  unfold State.complete; split <;> rfl
@[simp] theorem State.complete_bus : s.complete.bus = s.bus := by unfold State.complete; split <;> rfl
@[simp] theorem State.complete_tainted : s.complete.tainted = false := by
  unfold State.complete; split
  · rfl
  · next h => simpa using h
/-- Completion of a command whose HOST kept its duties writes STATUS alone. -/
theorem State.complete_untainted (h : s.tainted = false) : s.complete = { s with status := .done } := by
  simp [State.complete, h]
end complete

section sample
variable (s : State)
@[simp] theorem State.sample_written : s.sample.written = s.written := by
  unfold State.sample; split <;> rfl
@[simp] theorem State.sample_params : s.sample.params = s.params := by unfold State.sample; split <;> rfl
@[simp] theorem State.sample_ctrl : s.sample.ctrl = s.ctrl := by unfold State.sample; split <;> rfl
@[simp] theorem State.sample_status : s.sample.status = s.status := by unfold State.sample; split <;> rfl
@[simp] theorem State.sample_err : s.sample.err = s.err := by unfold State.sample; split <;> rfl
@[simp] theorem State.sample_seq : s.sample.seq = s.seq := by unfold State.sample; split <;> rfl
@[simp] theorem State.sample_sub : s.sample.sub = s.sub := by unfold State.sample; split <;> rfl
@[simp] theorem State.sample_work : s.sample.work = s.work := by unfold State.sample; split <;> rfl
@[simp] theorem State.sample_src : s.sample.src = s.src := by unfold State.sample; split <;> rfl
@[simp] theorem State.sample_dst : s.sample.dst = s.dst := by unfold State.sample; split <;> rfl
@[simp] theorem State.sample_tainted : s.sample.tainted = s.tainted := by
  unfold State.sample; split <;> rfl
@[simp] theorem State.sample_readData : s.sample.readData = s.readData := by
  unfold State.sample; split <;> rfl
@[simp] theorem State.sample_bus : s.sample.bus = s.bus := by unfold State.sample; split <;> rfl
/-- The registers that START runs on. -/
theorem State.sample_cmd : s.sample.cmd = s.sampledCmd := by
  unfold State.sample
  split
  · next h => simp [State.sampledCmd, h.1, h.2.1, h.2.2.1, h.2.2.2.1, h.2.2.2.2]
  · rfl
/-- With all five registers written, sampling takes them as they are. -/
theorem State.sample_of_written (h : s.written.all) : s.sample = s := by
  unfold State.sample; rw [if_pos h]
end sample

section acknowledge
variable (s : State)
@[simp] theorem State.acknowledge_cmd : s.acknowledge.cmd = s.cmd := by
  unfold State.acknowledge; split <;> rfl
@[simp] theorem State.acknowledge_written : s.acknowledge.written = s.written := by
  unfold State.acknowledge; split <;> rfl
@[simp] theorem State.acknowledge_params : s.acknowledge.params = s.params := by
  unfold State.acknowledge; split <;> rfl
@[simp] theorem State.acknowledge_ctrl : s.acknowledge.ctrl = s.ctrl := by
  unfold State.acknowledge; split <;> rfl
@[simp] theorem State.acknowledge_seq : s.acknowledge.seq = s.seq := by
  unfold State.acknowledge; split <;> rfl
@[simp] theorem State.acknowledge_sub : s.acknowledge.sub = s.sub := by
  unfold State.acknowledge; split <;> rfl
@[simp] theorem State.acknowledge_work : s.acknowledge.work = s.work := by
  unfold State.acknowledge; split <;> rfl
@[simp] theorem State.acknowledge_src : s.acknowledge.src = s.src := by
  unfold State.acknowledge; split <;> rfl
@[simp] theorem State.acknowledge_dst : s.acknowledge.dst = s.dst := by
  unfold State.acknowledge; split <;> rfl
@[simp] theorem State.acknowledge_tainted : s.acknowledge.tainted = s.tainted := by
  unfold State.acknowledge; split <;> rfl
@[simp] theorem State.acknowledge_readData : s.acknowledge.readData = s.readData := by
  unfold State.acknowledge; split <;> rfl
@[simp] theorem State.acknowledge_free : s.acknowledge.free = s.free := by
  unfold State.acknowledge; split <;> rfl
@[simp] theorem State.acknowledge_bus : s.acknowledge.bus = s.bus := by
  unfold State.acknowledge; split <;> rfl
end acknowledge

section writeReg
variable (s : State) (r : Reg) (v : Nat)
/-- A register write while BUSY changes nothing (10_state.md R16). -/
theorem State.writeReg_busy (h : s.status = .busy) : s.writeReg r v = s := by
  unfold State.writeReg; rw [if_pos h]
@[simp] theorem State.writeReg_params : (s.writeReg r v).params = s.params := by
  unfold State.writeReg; split <;> [rfl; cases r <;> rfl]
@[simp] theorem State.writeReg_ctrl : (s.writeReg r v).ctrl = s.ctrl := by
  unfold State.writeReg; split <;> [rfl; cases r <;> rfl]
@[simp] theorem State.writeReg_status : (s.writeReg r v).status = s.status := by
  unfold State.writeReg; split <;> [rfl; cases r <;> rfl]
@[simp] theorem State.writeReg_err : (s.writeReg r v).err = s.err := by
  unfold State.writeReg; split <;> [rfl; cases r <;> rfl]
@[simp] theorem State.writeReg_seq : (s.writeReg r v).seq = s.seq := by
  unfold State.writeReg; split <;> [rfl; cases r <;> rfl]
@[simp] theorem State.writeReg_sub : (s.writeReg r v).sub = s.sub := by
  unfold State.writeReg; split <;> [rfl; cases r <;> rfl]
@[simp] theorem State.writeReg_work : (s.writeReg r v).work = s.work := by
  unfold State.writeReg; split <;> [rfl; cases r <;> rfl]
@[simp] theorem State.writeReg_src : (s.writeReg r v).src = s.src := by
  unfold State.writeReg; split <;> [rfl; cases r <;> rfl]
@[simp] theorem State.writeReg_dst : (s.writeReg r v).dst = s.dst := by
  unfold State.writeReg; split <;> [rfl; cases r <;> rfl]
@[simp] theorem State.writeReg_tainted : (s.writeReg r v).tainted = s.tainted := by
  unfold State.writeReg; split <;> [rfl; cases r <;> rfl]
@[simp] theorem State.writeReg_readData : (s.writeReg r v).readData = s.readData := by
  unfold State.writeReg; split <;> [rfl; cases r <;> rfl]
@[simp] theorem State.writeReg_free : (s.writeReg r v).free = s.free := by
  unfold State.writeReg; split <;> [rfl; cases r <;> rfl]
@[simp] theorem State.writeReg_bus : (s.writeReg r v).bus = s.bus := by
  unfold State.writeReg; split <;> [rfl; cases r <;> rfl]
end writeReg

section hostReset
variable (s : State)
@[simp] theorem State.hostReset_params : s.hostReset.params = s.params := rfl
@[simp] theorem State.hostReset_cmd : s.hostReset.cmd = ⟨0, 0, 0, 0, 0⟩ := rfl
@[simp] theorem State.hostReset_written : s.hostReset.written = ⟨false, false, false, false, false⟩ := rfl
@[simp] theorem State.hostReset_ctrl : s.hostReset.ctrl = 0 := rfl
@[simp] theorem State.hostReset_status : s.hostReset.status = .idle := rfl
@[simp] theorem State.hostReset_err : s.hostReset.err = ⟨.none, 0⟩ := rfl
@[simp] theorem State.hostReset_seq : s.hostReset.seq = 0 := rfl
@[simp] theorem State.hostReset_sub : s.hostReset.sub = 0 := rfl
@[simp] theorem State.hostReset_work : s.hostReset.work = Work.reset := rfl
@[simp] theorem State.hostReset_src : s.hostReset.src = s.src := by
  simp only [State.hostReset]; split <;> rfl
@[simp] theorem State.hostReset_tainted : s.hostReset.tainted = false := rfl
@[simp] theorem State.hostReset_readData : s.hostReset.readData = s.readData := by
  simp only [State.hostReset]; split <;> rfl
@[simp] theorem State.hostReset_bus : s.hostReset.bus = s.bus := by
  simp only [State.hostReset]; split <;> rfl
/-- RESET spoils DST if a command was running, and otherwise leaves it. -/
theorem State.hostReset_dst : s.hostReset.dst = if s.status = .busy then s.scrambleDst.dst else s.dst := by
  simp only [State.hostReset]; split <;> rfl
end hostReset

section linearPixel
variable (bpp : Nat) (load : InReg → LoadOut) (s : State)
@[simp] theorem linearPixel_cmd : (linearPixel bpp load s).cmd = s.cmd := rfl
@[simp] theorem linearPixel_written : (linearPixel bpp load s).written = s.written := rfl
@[simp] theorem linearPixel_params : (linearPixel bpp load s).params = s.params := rfl
@[simp] theorem linearPixel_ctrl : (linearPixel bpp load s).ctrl = s.ctrl := rfl
@[simp] theorem linearPixel_status : (linearPixel bpp load s).status = s.status := rfl
@[simp] theorem linearPixel_err : (linearPixel bpp load s).err = s.err := rfl
@[simp] theorem linearPixel_seq : (linearPixel bpp load s).seq = s.seq + 1 := rfl
@[simp] theorem linearPixel_sub : (linearPixel bpp load s).sub = s.sub := rfl
@[simp] theorem linearPixel_src : (linearPixel bpp load s).src = s.src := rfl
@[simp] theorem linearPixel_tainted : (linearPixel bpp load s).tainted = s.tainted := rfl
@[simp] theorem linearPixel_readData : (linearPixel bpp load s).readData = s.readData := rfl
@[simp] theorem linearPixel_free : (linearPixel bpp load s).free = s.free := rfl
@[simp] theorem linearPixel_bus : (linearPixel bpp load s).bus = s.bus := rfl
end linearPixel

section blockPixel
variable (oba : Bool) (s : State)
@[simp] theorem blockPixel_cmd : (blockPixel oba s).cmd = s.cmd := rfl
@[simp] theorem blockPixel_written : (blockPixel oba s).written = s.written := rfl
@[simp] theorem blockPixel_params : (blockPixel oba s).params = s.params := rfl
@[simp] theorem blockPixel_ctrl : (blockPixel oba s).ctrl = s.ctrl := rfl
@[simp] theorem blockPixel_status : (blockPixel oba s).status = s.status := rfl
@[simp] theorem blockPixel_err : (blockPixel oba s).err = s.err := rfl
@[simp] theorem blockPixel_seq :
    (blockPixel oba s).seq = if s.sub = 15#4 then s.seq + 1 else s.seq := rfl
@[simp] theorem blockPixel_sub : (blockPixel oba s).sub = s.sub + 1 := rfl
@[simp] theorem blockPixel_src : (blockPixel oba s).src = s.src := rfl
@[simp] theorem blockPixel_tainted : (blockPixel oba s).tainted = s.tainted := rfl
@[simp] theorem blockPixel_readData : (blockPixel oba s).readData = s.readData := rfl
@[simp] theorem blockPixel_free : (blockPixel oba s).free = s.free := rfl
@[simp] theorem blockPixel_bus : (blockPixel oba s).bus = s.bus := rfl
end blockPixel

end Sys2Proof.Machine
end

