-- ==== Sys2Proof/Laws/Sequencer.lean ====
section
/-! SUPPORT. What a DEC turn does and what a run of turns leaves: the position advances by one, one pixel is
written, everything else stands (10_state.md R18, 46_dispatch.md R206, R207, 45_dxt1.md R180). -/

namespace Sys2Proof.Machine

/-! ### Positions -/

/-- How far the sequencer is: pixels done. -/
def Datapath.pos (d : Datapath) (s : State) : Nat :=
  match d with
  | .linear _ _ => s.seq
  | .block _ => 16 * s.seq + s.sub.toNat

/-- The raster index that position `i` writes. -/
def Datapath.addrAt (d : Datapath) (c : Cmd) (i : Nat) : Nat :=
  match d with
  | .linear _ _ => i
  | .block _ =>
    let w := c.width
    (4 * (i / 16 / (w / 4)) + i % 16 / 4) * w + (4 * (i / 16 % (w / 4)) + i % 4)

/-- The position that writes raster index `p`. -/
def Datapath.posOf (d : Datapath) (c : Cmd) (p : Nat) : Nat :=
  match d with
  | .linear _ _ => p
  | .block _ =>
    let w := c.width
    16 * ((p / w / 4) * (w / 4) + p % w / 4) + (4 * (p / w % 4) + p % w % 4)

/-- A loader reads only the lanes its stride fetches. -/
def Datapath.loadOk (d : Datapath) : Prop :=
  match d with
  | .linear bpp load => ∀ (m : Memory) (p : Nat) (x y : InReg),
      load (fetchPixel m bpp p x) = load (fetchPixel m bpp p y)
  | .block _ => True

/-- The pixel that position `i` writes. -/
def Datapath.outAt (d : Datapath) (src : Memory) (i : Nat) : Pixel :=
  match d with
  | .linear bpp load => (load (fetchPixel src bpp i Work.reset.inp)).pixel
  | .block oba =>
    let w := blockStages oba (fetchBlock src (i / 16)) Work.reset
    w.pal.entry (pixelIndex (w.blk.indexByte (subY (BitVec.ofNat 4 (i % 16)))) (subX (BitVec.ofNat 4 (i % 16))))

/-- SEQ's bound is at most the number of pixels. -/
theorem Datapath.bound_le (d : Datapath) (c : Cmd) : d.bound c ≤ c.width * c.height := by
  cases d with
  | linear _ _ => exact Nat.le_refl _
  | block _ => exact Nat.mul_le_mul (Nat.div_le_self _ _) (Nat.div_le_self _ _)

theorem sub_succ (x : BitVec 4) : (x + 1).toNat = if x = 15#4 then 0 else x.toNat + 1 := by
  revert x; decide

/-- What a turn, and a run of turns, leaves unchanged besides the sequencer, STATUS, DST and the working
registers. -/
structure RunFrame (s t : State) : Prop where
  params   : t.params = s.params
  cmd      : t.cmd = s.cmd
  written  : t.written = s.written
  ctrl     : t.ctrl = s.ctrl
  err      : t.err = s.err
  src      : t.src = s.src
  readData : t.readData = s.readData
  bus      : t.bus = s.bus

theorem RunFrame.rfl' (s : State) : RunFrame s s := ⟨rfl, rfl, rfl, rfl, rfl, rfl, rfl, rfl⟩

theorem RunFrame.trans' {s t u : State} (h : RunFrame s t) (h' : RunFrame t u) : RunFrame s u :=
  ⟨h'.params.trans h.params, h'.cmd.trans h.cmd, h'.written.trans h.written, h'.ctrl.trans h.ctrl, h'.err.trans h.err,
    h'.src.trans h.src, h'.readData.trans h.readData, h'.bus.trans h.bus⟩

theorem Datapath.pixel_frame (d : Datapath) (s : State) : RunFrame s (d.pixel s) := by
  cases d <;> exact ⟨rfl, rfl, rfl, rfl, rfl, rfl, rfl, rfl⟩

theorem Datapath.pixel_status (d : Datapath) (s : State) : (d.pixel s).status = s.status := by
  cases d <;> rfl

theorem Datapath.pixel_tainted (d : Datapath) (s : State) : (d.pixel s).tainted = s.tainted := by
  cases d <;> rfl

theorem Datapath.pixel_free (d : Datapath) (s : State) : (d.pixel s).free = s.free := by
  cases d <;> rfl

theorem Datapath.pixel_seq_le (d : Datapath) (s : State) : (d.pixel s).seq ≤ s.seq + 1 := by
  cases d with
  | linear _ _ => exact Nat.le_refl _
  | block _ => simp only [Datapath.pixel, blockPixel_seq]; split <;> omega

theorem complete_frame (s : State) : RunFrame s s.complete := by
  constructor <;> simp

theorem Datapath.finish_frame (d : Datapath) (s : State) : RunFrame s (d.finish s) := by
  unfold Datapath.finish
  split
  · exact complete_frame s
  · exact RunFrame.rfl' s

/-- A turn keeps the frame, whatever the state. -/
theorem Datapath.turn_frame (d : Datapath) (s : State) : RunFrame s (d.turn s) := by
  unfold Datapath.turn
  split
  · exact (d.pixel_frame s).trans' (d.finish_frame _)
  · exact d.finish_frame s

theorem Datapath.pixel_pos (d : Datapath) (s : State) : d.pos (d.pixel s) = d.pos s + 1 := by
  cases d with
  | linear _ _ => rfl
  | block oba =>
    simp only [Datapath.pos, Datapath.pixel, blockPixel_seq, blockPixel_sub, sub_succ]
    by_cases hx : s.sub = 15#4
    · rw [if_pos hx, if_pos hx, hx]; simp; omega
    · rw [if_neg hx, if_neg hx]; omega

/-- The loop body writes the pixel of its position and nothing else of DST. -/
theorem Datapath.pixel_dst {d : Datapath} (hl : d.loadOk) (s : State) :
    (d.pixel s).dst = s.dst.writePixel (d.addrAt s.cmd (d.pos s)) (d.outAt s.src (d.pos s)) := by
  cases d with
  | linear bpp load =>
    simp only [Datapath.pixel, linearPixel, Datapath.addrAt, Datapath.outAt, Datapath.pos]
    rw [hl s.src s.seq s.work.inp Work.reset.inp]
  | block oba =>
    have hsub := s.sub.isLt
    have e1 : (16 * s.seq + s.sub.toNat) / 16 = s.seq := by omega
    have e2 : (16 * s.seq + s.sub.toNat) % 16 = s.sub.toNat := by omega
    have e3 : (16 * s.seq + s.sub.toNat) % 4 = s.sub.toNat % 4 := by omega
    simp only [Datapath.pixel, blockPixel, Datapath.addrAt, Datapath.outAt, Datapath.pos, e1, e2, e3,
      BitVec.ofNat_toNat, BitVec.setWidth_eq, blockRaster, subX_val, subY_val]
    rfl

theorem Datapath.finish_running {d : Datapath} {s : State} (h : s.seq < d.bound s.cmd) :
    d.finish s = s := by
  unfold Datapath.finish; rw [if_neg (by omega)]

/-- How position and SEQ say the same: SEQ is below its bound exactly while pixels are left. -/
theorem Datapath.pos_lt_turns {d : Datapath} {s : State} :
    d.pos s < d.turns s.cmd ↔ s.seq < d.bound s.cmd := by
  have hsub := s.sub.isLt
  cases d with
  | linear _ _ => exact Iff.rfl
  | block _ => simp only [Datapath.pos, Datapath.turns]; omega

/-- One turn of a command whose HOST has kept its duties. -/
structure TurnSpec (d : Datapath) (s t : State) : Prop where
  frame   : RunFrame s t
  free    : t.free = s.free
  tainted : t.tainted = false
  pos     : d.pos t = d.pos s + 1
  dst     : t.dst = s.dst.writePixel (d.addrAt s.cmd (d.pos s)) (d.outAt s.src (d.pos s))
  status  : t.status = if d.pos s + 1 = d.turns s.cmd then .done else s.status
  inBound : d.pos s + 1 ≤ d.turns s.cmd

theorem Datapath.turn_spec {d : Datapath} (hl : d.loadOk) {s : State}
    (h : s.seq < d.bound s.cmd) (ht : s.tainted = false) : TurnSpec d s (d.turn s) := by
  have hp := d.pixel_pos s
  have hlt : d.pos s < d.turns s.cmd := d.pos_lt_turns.2 h
  have hc : (d.pixel s).cmd = s.cmd := (d.pixel_frame s).cmd
  have htp : (d.pixel s).tainted = false := (d.pixel_tainted s).trans ht
  have hturn : d.turn s = d.finish (d.pixel s) := by unfold Datapath.turn; rw [if_pos h]
  by_cases hb : d.pos s + 1 = d.turns s.cmd
  · have hn : ¬ (d.pixel s).seq < d.bound (d.pixel s).cmd := by
      rw [← d.pos_lt_turns, hp, hc]; omega
    have hf : d.turn s = { d.pixel s with status := .done } := by
      rw [hturn, Datapath.finish, if_pos (by omega), State.complete_untainted _ htp]
    have hfr := (d.turn_frame s)
    rw [hf] at hfr ⊢
    have hpos : d.pos { d.pixel s with status := .done } = d.pos (d.pixel s) := by cases d <;> rfl
    exact ⟨hfr, d.pixel_free s, htp, hpos.trans hp, d.pixel_dst hl s, by rw [if_pos hb], by omega⟩
  · have hr : (d.pixel s).seq < d.bound (d.pixel s).cmd := by
      rw [← d.pos_lt_turns, hp, hc]; omega
    rw [hturn, d.finish_running hr]
    exact ⟨d.pixel_frame s, d.pixel_free s, htp, hp, d.pixel_dst hl s,
      by rw [if_neg hb]; exact d.pixel_status s, by omega⟩

/-! ### Painting -/

/-- The pixels `out i` at raster indices `addr i`, for `n` positions from `k`. -/
def paint (m : Memory) (addr : Nat → Nat) (out : Nat → Pixel) (k : Nat) : Nat → Memory
  | 0 => m
  | n + 1 => (paint m addr out k n).writePixel (addr (k + n)) (out (k + n))

theorem paint_wf {m : Memory} (h : m.wf) (addr : Nat → Nat) (out : Nat → Pixel) (k n : Nat) :
    (paint m addr out k n).wf := by
  induction n with
  | zero => exact h
  | succ n ih => exact Memory.writePixel_wf ih _ _

/-- The first pixel of a painting may be written first. -/
theorem paint_succ (m : Memory) (addr : Nat → Nat) (out : Nat → Pixel) (k n : Nat) :
    paint m addr out k (n + 1) = paint (m.writePixel (addr k) (out k)) addr out (k + 1) n := by
  induction n with
  | zero => rfl
  | succ n ih =>
    rw [paint, ih]
    simp only [paint]
    rw [show k + (n + 1) = k + 1 + n by omega]

/-- Bytes of no painted pixel are left alone. -/
theorem read_paint_other {m : Memory} {addr : Nat → Nat} {out : Nat → Pixel} {k n off : Nat}
    (h : ∀ i, k ≤ i → i < k + n → off < 4 * addr i ∨ 4 * addr i + 4 ≤ off) :
    (paint m addr out k n).read off = m.read off := by
  induction n with
  | zero => rfl
  | succ n ih =>
    rw [paint, Memory.read_writePixel_other _ _ (h (k + n) (by omega) (by omega))]
    exact ih fun i hi hk => h i hi (by omega)

theorem pixel_paint {m : Memory} (hm : m.wf) {addr : Nat → Nat} {out : Nat → Pixel} {k n : Nat}
    (hinj : ∀ i j, i < k + n → j < k + n → addr i = addr j → i = j) {i : Nat} (hi : k ≤ i)
    (hik : i < k + n) : (paint m addr out k n).pixel (addr i) = out i := by
  induction n with
  | zero => omega
  | succ n ih =>
    rw [paint, Memory.pixel_writePixel (paint_wf hm addr out k n)]
    by_cases e : i = k + n
    · rw [e, if_pos rfl]
    · rw [if_neg fun h => e (hinj _ _ hik (by omega) h)]
      exact ih (fun a b ha hb => hinj a b (by omega) (by omega)) (by omega)

/-! ### Runs -/

/-- A run of turns inside one command whose HOST keeps its duties. -/
structure RunSpec (d : Datapath) (s t : State) (n : Nat) : Prop where
  frame   : RunFrame s t
  free    : t.free = s.free
  tainted : t.tainted = false
  pos     : d.pos t = d.pos s + n
  dst     : t.dst = paint s.dst (d.addrAt s.cmd) (d.outAt s.src) (d.pos s) n
  status  : t.status = if n ≠ 0 ∧ d.pos s + n = d.turns s.cmd then .done else s.status

theorem Datapath.run_spec {d : Datapath} (hl : d.loadOk) (n : Nat) {s : State}
    (hn : d.pos s + n ≤ d.turns s.cmd) (ht : s.tainted = false) : RunSpec d s (d.run n s) n := by
  induction n generalizing s with
  | zero => exact ⟨RunFrame.rfl' s, rfl, ht, rfl, rfl, by simp [Datapath.run]⟩
  | succ n ih =>
    have h : s.seq < d.bound s.cmd := d.pos_lt_turns.1 (by omega)
    have t := d.turn_spec hl h ht
    have r := ih (s := d.turn s) (by rw [t.pos, t.frame.cmd]; omega) t.tainted
    refine ⟨t.frame.trans' r.frame, r.free.trans t.free, r.tainted, ?_, ?_, ?_⟩
    · rw [Datapath.run, r.pos, t.pos]; omega
    · rw [Datapath.run, r.dst, t.dst, t.pos, t.frame.cmd, t.frame.src, paint_succ]
    · rw [Datapath.run, r.status, t.status, t.pos, t.frame.cmd]
      by_cases hz : n = 0
      · subst hz; simp
      · by_cases he : d.pos s + (n + 1) = d.turns s.cmd
        · rw [if_pos ⟨hz, by omega⟩, if_pos ⟨by omega, he⟩]
        · rw [if_neg (by omega), if_neg (by omega), if_neg (by omega)]

theorem Datapath.run_add (d : Datapath) (m n : Nat) (s : State) :
    d.run (m + n) s = d.run n (d.run m s) := by
  induction m generalizing s with
  | zero => simp [Datapath.run]
  | succ m ih => rw [Nat.succ_add, Datapath.run, Datapath.run, ih]

/-! ### The block raster (45_dxt1.md R170, R180: the blocks tile the image) -/

/-- A command whose dimensions suit its datapath. -/
def Datapath.dimsOk (d : Datapath) (c : Cmd) : Prop :=
  match d with
  | .linear _ _ => True
  | .block _ => c.width % 4 = 0 ∧ c.height % 4 = 0

theorem Datapath.turns_eq {d : Datapath} {c : Cmd} (h : d.dimsOk c) :
    d.turns c = c.width * c.height := by
  cases d with
  | linear _ _ => rfl
  | block _ =>
    obtain ⟨hw, hh⟩ := h
    obtain ⟨u, hu⟩ := Nat.dvd_of_mod_eq_zero hw
    obtain ⟨v, hv⟩ := Nat.dvd_of_mod_eq_zero hh
    simp only [Datapath.turns, Datapath.bound, hu, hv]
    rw [Nat.mul_div_cancel_left _ (by decide), Nat.mul_div_cancel_left _ (by decide)]
    ring

theorem Datapath.posOf_addrAt {d : Datapath} {c : Cmd} (h : d.dimsOk c) {i : Nat}
    (hi : i < d.turns c) : d.posOf c (d.addrAt c i) = i := by
  cases d with
  | linear _ _ => rfl
  | block _ =>
    obtain ⟨hw, hh⟩ := h
    obtain ⟨u, hu⟩ := Nat.dvd_of_mod_eq_zero hw
    simp only [Datapath.turns, Datapath.bound] at hi
    simp only [Datapath.posOf, Datapath.addrAt, hu] at hi ⊢
    rw [Nat.mul_div_cancel_left _ (by decide : 0 < 4)] at hi ⊢
    have hu0 : 0 < u := by
      rcases Nat.eq_zero_or_pos u with e | e
      · subst e; simp at hi
      · exact e
    have hX : 4 * (i / 16 % u) + i % 4 < 4 * u := by
      have := Nat.mod_lt (i / 16) hu0; omega
    have hdiv : ((4 * (i / 16 / u) + i % 16 / 4) * (4 * u) + (4 * (i / 16 % u) + i % 4)) / (4 * u)
        = 4 * (i / 16 / u) + i % 16 / 4 := by
      rw [Nat.mul_comm, Nat.mul_add_div (by omega), Nat.div_eq_of_lt hX, Nat.add_zero]
    have hmod : ((4 * (i / 16 / u) + i % 16 / 4) * (4 * u) + (4 * (i / 16 % u) + i % 4)) % (4 * u)
        = 4 * (i / 16 % u) + i % 4 := by
      rw [Nat.mul_comm, Nat.mul_add_mod, Nat.mod_eq_of_lt hX]
    rw [hdiv, hmod]
    have h1 : (4 * (i / 16 / u) + i % 16 / 4) / 4 = i / 16 / u := by omega
    have h2 : (4 * (i / 16 % u) + i % 4) / 4 = i / 16 % u := by omega
    rw [h1, h2, Nat.mul_comm (i / 16 / u) u, Nat.div_add_mod]
    omega

theorem Datapath.addrAt_inj {d : Datapath} {c : Cmd} (h : d.dimsOk c) :
    ∀ i j, i < d.turns c → j < d.turns c → d.addrAt c i = d.addrAt c j → i = j := by
  intro i j hi hj e
  rw [← d.posOf_addrAt h hi, ← d.posOf_addrAt h hj, e]

theorem Datapath.addrAt_lt {d : Datapath} {c : Cmd} {i : Nat} (hi : i < d.turns c) :
    d.addrAt c i < c.width * c.height := by
  cases d with
  | linear _ _ => exact hi
  | block _ =>
    simp only [Datapath.turns, Datapath.bound] at hi
    simp only [Datapath.addrAt]
    have hk : i / 16 < c.width / 4 * (c.height / 4) := by omega
    have hu0 : 0 < c.width / 4 := by
      rcases Nat.eq_zero_or_pos (c.width / 4) with e | e
      · rw [e] at hk; simp at hk
      · exact e
    have hm := Nat.mod_lt (i / 16) hu0
    have hq : i / 16 / (c.width / 4) < c.height / 4 := Nat.div_lt_of_lt_mul hk
    generalize i / 16 / (c.width / 4) = q at *
    generalize i / 16 % (c.width / 4) = r at *
    have hX : 4 * r + i % 4 < c.width := by omega
    have hY : 4 * q + i % 16 / 4 + 1 ≤ c.height := by omega
    generalize 4 * r + i % 4 = X at *
    generalize 4 * q + i % 16 / 4 = Y at *
    nlinarith

theorem Datapath.addrAt_posOf {d : Datapath} {c : Cmd} (h : d.dimsOk c) {p : Nat}
    (hp : p < c.width * c.height) :
    d.addrAt c (d.posOf c p) = p ∧ d.posOf c p < d.turns c := by
  cases d with
  | linear _ _ => exact ⟨rfl, hp⟩
  | block _ =>
    obtain ⟨hw, hh⟩ := h
    obtain ⟨u, hu⟩ := Nat.dvd_of_mod_eq_zero hw
    obtain ⟨v, hv⟩ := Nat.dvd_of_mod_eq_zero hh
    simp only [Datapath.posOf, Datapath.addrAt, Datapath.turns, Datapath.bound, hu, hv] at hp ⊢
    rw [Nat.mul_div_cancel_left _ (by decide : 0 < 4), Nat.mul_div_cancel_left _ (by decide : 0 < 4)]
    have hu0 : 0 < 4 * u := by
      rcases Nat.eq_zero_or_pos (4 * u) with e | e
      · rw [e] at hp; simp at hp
      · exact e
    have hX := Nat.mod_lt p hu0
    have hdm := Nat.div_add_mod p (4 * u)
    have hY : p / (4 * u) < 4 * v := Nat.div_lt_of_lt_mul hp
    generalize p / (4 * u) = Y at *
    generalize p % (4 * u) = X at *
    have hx : X / 4 < u := by omega
    have e1 : (16 * (Y / 4 * u + X / 4) + (4 * (Y % 4) + X % 4)) / 16 = Y / 4 * u + X / 4 := by omega
    have e2 : (16 * (Y / 4 * u + X / 4) + (4 * (Y % 4) + X % 4)) % 16 / 4 = Y % 4 := by omega
    have e3 : (16 * (Y / 4 * u + X / 4) + (4 * (Y % 4) + X % 4)) % 4 = X % 4 := by omega
    have e4 : (Y / 4 * u + X / 4) / u = Y / 4 := by
      rw [Nat.mul_comm, Nat.mul_add_div (by omega), Nat.div_eq_of_lt hx, Nat.add_zero]
    have e5 : (Y / 4 * u + X / 4) % u = X / 4 := by
      rw [Nat.mul_comm, Nat.mul_add_mod, Nat.mod_eq_of_lt hx]
    rw [e1, e2, e3, e4, e5]
    refine ⟨?_, ?_⟩
    · rw [show 4 * (Y / 4) + Y % 4 = Y by omega, show 4 * (X / 4) + X % 4 = X by omega, Nat.mul_comm]
      exact hdm
    · have hq : Y / 4 + 1 ≤ v := by omega
      have : Y / 4 * u + X / 4 < u * v := by nlinarith
      omega

/-- What DST holds when a run has painted a whole image: each pixel from the position that writes it, and
the bytes past the image as before. -/
theorem Datapath.paint_image {d : Datapath} {c : Cmd} (h : d.dimsOk c) {m : Memory} (hm : m.wf)
    (out : Nat → Pixel) :
    (∀ p < c.width * c.height,
      (paint m (d.addrAt c) out 0 (d.turns c)).pixel p = out (d.posOf c p)) ∧
    (∀ off, 4 * (c.width * c.height) ≤ off →
      (paint m (d.addrAt c) out 0 (d.turns c)).read off = m.read off) := by
  refine ⟨fun p hp => ?_, fun off ho => ?_⟩
  · obtain ⟨ha, hlt⟩ := d.addrAt_posOf h hp
    have := pixel_paint hm (out := out) (k := 0) (n := d.turns c)
      (fun i j hi hj => d.addrAt_inj h i j (by omega) (by omega)) (Nat.zero_le _)
      (show d.posOf c p < 0 + d.turns c by omega)
    rwa [ha] at this
  · refine read_paint_other fun i _ hi => .inr ?_
    have := d.addrAt_lt (c := c) (i := i) (by omega)
    omega

end Sys2Proof.Machine
end

