-- ==== Sys2Proof/Laws/Command.lean ====
section
/-! SUPPORT. What validation, START and a whole command do (46_dispatch.md R202 to R211). -/

namespace Sys2Proof.Machine

/-! ### The dispatch table -/

/-- Exactly the codes below 22 have a loader. -/
theorem loaderOf_isSome (m : NibbleMap) (f : BitVec Config.fmtw) :
    (loaderOf m f).isSome = hasLoader f.toNat := by
  revert f
  refine fmt_cases fun n => ?_
  fin_cases n <;> rfl

theorem loaderOf_none_iff (m : NibbleMap) (f : BitVec Config.fmtw) : loaderOf m f = none ↔ 22 ≤ f.toNat := by
  have h := loaderOf_isSome m f
  constructor
  · intro e
    rw [e] at h
    simpa [hasLoader] using h.symm
  · intro e
    cases hl : loaderOf m f with
    | none => rfl
    | some d => rw [hl] at h; simp [hasLoader] at h; omega

/-- Every loader of the table reads only the lanes its stride fetches. -/
theorem loaderOf_loadOk {m : NibbleMap} {f : BitVec Config.fmtw} {d : Datapath} (h : loaderOf m f = some d) :
    d.loadOk := by
  have key : ∀ f : BitVec Config.fmtw, ∀ d, loaderOf m f = some d → d.loadOk := by
    refine fmt_cases fun n => ?_
    fin_cases n <;> intro d h <;>
      first
      | (obtain rfl := Option.some.inj h
         first
         | trivial
         | (intro m p x y; rfl))
      | exact nomatch (show (none : Option Datapath) = some d from h)
  exact key f d h

/-- Whether a datapath is the block decompressor. -/
def Datapath.isBlock : Datapath → Bool
  | .linear _ _ => false
  | .block _ => true

/-- The table's loader is the block decompressor exactly for codes 20 and 21. -/
theorem loaderOf_block {m : NibbleMap} {f : BitVec Config.fmtw} {d : Datapath} (h : loaderOf m f = some d) :
    isBlockFormat f.toNat = d.isBlock := by
  have key : ∀ f : BitVec Config.fmtw, ∀ d, loaderOf m f = some d → isBlockFormat f.toNat = d.isBlock := by
    refine fmt_cases fun n => ?_
    fin_cases n <;> intro d h <;>
      first
      | (obtain rfl := Option.some.inj h; rfl)
      | exact nomatch (show (none : Option Datapath) = some d from h)
  exact key f d h

/-! ### Validation -/

/-- When a command passes all five checks (R203). -/
theorem validate_none_iff (c : Cmd) :
    validate c = none ↔
      c.fmt.toNat < 22 ∧ 0 < c.width ∧ 0 < c.height ∧
      (isBlockFormat c.fmt.toNat = true → c.width % 4 = 0 ∧ c.height % 4 = 0) ∧
      c.dstLen = c.width * c.height * 4 ∧
      c.srcLen = requiredSrcLen c.fmt.toNat c.width c.height := by
  unfold validate
  by_cases h1 : hasLoader c.fmt.toNat = false
  · rw [if_pos h1]; simp [hasLoader] at h1; simp; omega
  rw [if_neg h1]
  have h1' : c.fmt.toNat < 22 := by simpa [hasLoader] using h1
  by_cases h2 : c.width = 0 ∨ c.height = 0
  · rw [if_pos h2]; simp; omega
  rw [if_neg h2]
  by_cases h3 : isBlockFormat c.fmt.toNat = true ∧ (c.width % 4 ≠ 0 ∨ c.height % 4 ≠ 0)
  · rw [if_pos h3]
    simp only [reduceCtorEq, false_iff]
    rintro ⟨-, -, -, h, -⟩
    have := h h3.1
    omega
  rw [if_neg h3]
  by_cases h4 : c.dstLen ≠ c.width * c.height * 4
  · rw [if_pos h4]
    simp only [reduceCtorEq, false_iff]
    rintro ⟨-, -, -, -, h, -⟩
    exact h4 h
  rw [if_neg h4]
  by_cases h5 : c.srcLen ≠ requiredSrcLen c.fmt.toNat c.width c.height
  · rw [if_pos h5]
    simp only [reduceCtorEq, false_iff]
    rintro ⟨-, -, -, -, -, h⟩
    exact h5 h
  rw [if_neg h5]
  simp only [true_iff]
  refine ⟨h1', by omega, by omega, fun hb => ?_, not_not.1 h4, not_not.1 h5⟩
  by_contra hc
  exact h3 ⟨hb, by omega⟩

theorem validate_dimsOk {m : NibbleMap} {c : Cmd} {d : Datapath} (hd : loaderOf m c.fmt = some d)
    (hv : validate c = none) : d.dimsOk c := by
  have hb := loaderOf_block hd
  have hdims := ((validate_none_iff c).1 hv).2.2.2.1
  cases d with
  | linear _ _ => trivial
  | block _ => exact hdims hb

theorem turns_pos {c : Cmd} {d : Datapath} (hd : d.dimsOk c) (hv : validate c = none) :
    0 < d.turns c := by
  rw [d.turns_eq hd]
  have h := (validate_none_iff c).1 hv
  exact Nat.mul_pos h.2.1 h.2.2.1

/-- A FMT without a loader fails the first check, whatever the operands hold (R203 step 1, R234). -/
theorem validate_unsupported {c : Cmd} (h : 22 ≤ c.fmt.toNat) :
    validate c = some (.unsupportedFormat c.fmt) := by
  unfold validate
  rw [if_pos (by simp [hasLoader]; omega)]

/-! ### START -/

/-- START outside BUSY: the registers sampled, SEQ and SUB cleared, then the exception or BUSY. -/
theorem State.startCommand_eq (s : State) :
    s.startCommand =
      match validate s.sample.cmd with
      | some e => { s.sample with seq := 0, sub := 0 }.raise e
      | none => { s.sample with seq := 0, sub := 0 }.accept := rfl

theorem State.startCommand_accepted {s : State} (h : validate s.sample.cmd = none) :
    s.startCommand = { s.sample with seq := 0, sub := 0 }.accept := by
  rw [State.startCommand_eq, h]

theorem State.startCommand_refused {s : State} {e : ErrorKind} (h : validate s.sample.cmd = some e) :
    s.startCommand = { s.sample with seq := 0, sub := 0 }.raise e := by
  rw [State.startCommand_eq, h]

theorem State.sample_writeCmd (s : State) (c : Cmd) : (s.writeCmd c).sample = s.writeCmd c :=
  State.sample_of_written _ ⟨rfl, rfl, rfl, rfl, rfl⟩

/-! ### A command with a loader -/

theorem State.runCommand_busy {s : State} (h : s.status = .busy) (f : BitVec Config.fmtw)
    (d : Datapath) (a : CmdArgs) : s.runCommand f d a = s := by
  unfold State.runCommand; rw [if_pos h]

theorem State.refuseCommand_busy {s : State} (h : s.status = .busy) (f : BitVec Config.fmtw)
    (a : CmdArgs) : s.refuseCommand f a = s := by
  unfold State.refuseCommand; rw [if_pos h]

/-- The state in which an accepted command begins to run. -/
def State.begun (s : State) (c : Cmd) : State :=
  { s.writeCmd c with seq := 0, sub := 0 }.accept

theorem State.runCommand_accepted {s : State} (hb : s.status ≠ .busy) {f : BitVec Config.fmtw}
    {a : CmdArgs} (hv : validate (a.toCmd s.params f) = none) (d : Datapath) :
    s.runCommand f d a = d.run (d.turns (a.toCmd s.params f)) (s.begun (a.toCmd s.params f)) := by
  unfold State.runCommand
  rw [if_neg hb, State.startCommand_accepted (by rw [State.sample_writeCmd]; exact hv)]
  simp only [State.sample_writeCmd]
  rfl

theorem State.runCommand_refused {s : State} (hb : s.status ≠ .busy) {f : BitVec Config.fmtw}
    {a : CmdArgs} {e : ErrorKind} (hv : validate (a.toCmd s.params f) = some e) (d : Datapath) :
    s.runCommand f d a = { s.writeCmd (a.toCmd s.params f) with seq := 0, sub := 0 }.raise e := by
  unfold State.runCommand
  rw [if_neg hb, State.startCommand_refused (by rw [State.sample_writeCmd]; exact hv)]
  simp only [State.sample_writeCmd]
  rfl

theorem State.refuseCommand_eq {s : State} (hb : s.status ≠ .busy) {f : BitVec Config.fmtw}
    (hf : 22 ≤ f.toNat) (a : CmdArgs) :
    s.refuseCommand f a =
      { s.writeCmd (a.toCmd s.params f) with seq := 0, sub := 0 }.raise (.unsupportedFormat f) := by
  unfold State.refuseCommand
  rw [if_neg hb, State.startCommand_refused (e := .unsupportedFormat f)
    (by rw [State.sample_writeCmd]; exact validate_unsupported hf)]
  simp only [State.sample_writeCmd]

/-- What an accepted command leaves (R206 to R208, R211). -/
structure Accomplished (s t : State) (c : Cmd) (d : Datapath) : Prop where
  params   : t.params = s.params
  cmd      : t.cmd = c
  written  : t.written.all
  ctrl     : t.ctrl = s.ctrl
  status   : t.status = .done
  err      : t.err = ⟨.none, 0⟩
  src      : t.src = s.src
  tainted  : t.tainted = false
  readData : t.readData = s.readData
  free     : t.free = s.free
  bus      : t.bus = s.bus
  pos      : d.pos t = d.turns c
  dst      : t.dst = paint s.dst (d.addrAt c) (d.outAt s.src) 0 (d.turns c)

theorem State.runCommand_spec {s : State} (hb : s.status ≠ .busy) {f : BitVec Config.fmtw} {a : CmdArgs}
    {d : Datapath} (hd : loaderOf s.params.nibbles f = some d) (hv : validate (a.toCmd s.params f) = none) :
    Accomplished s (s.runCommand f d a) (a.toCmd s.params f) d := by
  have hdims : d.dimsOk (a.toCmd s.params f) := validate_dimsOk hd hv
  have hpos := turns_pos hdims hv
  have h0 : d.pos (s.begun (a.toCmd s.params f)) = 0 := by cases d <;> rfl
  have hc : (s.begun (a.toCmd s.params f)).cmd = a.toCmd s.params f := rfl
  have r := d.run_spec (loaderOf_loadOk hd) (d.turns (a.toCmd s.params f)) (s := s.begun (a.toCmd s.params f))
    (by rw [h0, hc]; omega) rfl
  rw [State.runCommand_accepted hb hv]
  refine ⟨r.frame.params, r.frame.cmd, ?_, r.frame.ctrl, ?_, r.frame.err, r.frame.src, r.tainted, r.frame.readData,
    r.free, r.frame.bus, by rw [r.pos, h0, Nat.zero_add], ?_⟩
  · rw [r.frame.written]; exact ⟨rfl, rfl, rfl, rfl, rfl⟩
  · rw [r.status, if_pos ⟨by omega, by rw [h0, hc, Nat.zero_add]⟩]
  · rw [r.dst, h0]; rfl

/-- The image an accepted command leaves: pixel `p` from the position that writes it, and every byte past
the image as before. -/
theorem Accomplished.image {s t : State} {c : Cmd} {d : Datapath} (h : Accomplished s t c d)
    (hd : d.dimsOk c) (hm : s.dst.wf) :
    (∀ p < c.width * c.height, t.dst.pixel p = d.outAt s.src (d.posOf c p)) ∧
    (∀ off, 4 * (c.width * c.height) ≤ off → t.dst.read off = s.dst.read off) := by
  rw [h.dst]
  exact d.paint_image hd hm _

/-! ### Instructions -/

/-- What an instruction is, in a unit with these parameters: a command with a loader, a command without, START
or ACK. -/
inductive Shape (p : Params) (i : Instr) : Prop where
  | run (f : BitVec Config.fmtw) (d : Datapath) (a : CmdArgs) (args : i.args? = some a)
      (enc : encode p i = a.encode p f) (loader : loaderOf p.nibbles f = some d)
      (meaning : ∀ s : State, s.params = p → exec i s = .next (s.runCommand f d a))
  | refuse (f : BitVec Config.fmtw) (a : CmdArgs) (args : i.args? = some a)
      (enc : encode p i = a.encode p f) (loader : 22 ≤ f.toNat)
      (meaning : ∀ s : State, s.params = p → exec i s = .next (s.refuseCommand f a))
  | start (eq : i = .start)
  | ack (eq : i = .ack)

/-- Every instruction has one of the four shapes; a claim about all instructions needs no more cases. -/
theorem instr_shape (p : Params) (i : Instr) : Shape p i := by
  cases i with
  | rgba8888 a => exact .run 0 pathRgba8888 a rfl rfl rfl fun _ _ => rfl
  | bgra8888 a => exact .run 1 pathBgra8888 a rfl rfl rfl fun _ _ => rfl
  | argb8888 a => exact .run 2 pathArgb8888 a rfl rfl rfl fun _ _ => rfl
  | abgr8888 a => exact .run 3 pathAbgr8888 a rfl rfl rfl fun _ _ => rfl
  | rgb888 a => exact .run 4 pathRgb888 a rfl rfl rfl fun _ _ => rfl
  | bgr888 a => exact .run 5 pathBgr888 a rfl rfl rfl fun _ _ => rfl
  | bgrx8888 a => exact .run 6 pathBgrx8888 a rfl rfl rfl fun _ _ => rfl
  | uvlx8888 a => exact .run 7 pathUvlx8888 a rfl rfl rfl fun _ _ => rfl
  | uvwq8888 a => exact .run 8 pathUvwq8888 a rfl rfl rfl fun _ _ => rfl
  | rgb565 a => exact .run 9 pathRgb565 a rfl rfl rfl fun _ _ => rfl
  | bgr565 a => exact .run 10 pathBgr565 a rfl rfl rfl fun _ _ => rfl
  | bgra4444 a => exact .run 11 (pathBgra4444 p.nibbles) a rfl rfl rfl fun s h => by subst h; rfl
  | bgra5551 a => exact .run 12 pathBgra5551 a rfl rfl rfl fun _ _ => rfl
  | bgrx5551 a => exact .run 13 pathBgrx5551 a rfl rfl rfl fun _ _ => rfl
  | i8 a => exact .run 14 pathI8 a rfl rfl rfl fun _ _ => rfl
  | ia88 a => exact .run 15 pathIa88 a rfl rfl rfl fun _ _ => rfl
  | a8 a => exact .run 16 pathA8 a rfl rfl rfl fun _ _ => rfl
  | uv88 a => exact .run 17 pathUv88 a rfl rfl rfl fun _ _ => rfl
  | rgb888Bluescreen a => exact .run 18 pathRgb888Bluescreen a rfl rfl rfl fun _ _ => rfl
  | bgr888Bluescreen a => exact .run 19 pathBgr888Bluescreen a rfl rfl rfl fun _ _ => rfl
  | dxt1 a => exact .run 20 pathDxt1 a rfl rfl rfl fun _ _ => rfl
  | dxt1OneBitAlpha a => exact .run 21 pathDxt1OneBitAlpha a rfl rfl rfl fun _ _ => rfl
  | p8 a => exact .refuse 22 a rfl rfl (by decide) fun _ _ => rfl
  | dxt3 a => exact .refuse 23 a rfl rfl (by decide) fun _ _ => rfl
  | dxt5 a => exact .refuse 24 a rfl rfl (by decide) fun _ _ => rfl
  | float16 a => exact .refuse 25 a rfl rfl (by decide) fun _ _ => rfl
  | unassigned26 a => exact .refuse 26 a rfl rfl (by decide) fun _ _ => rfl
  | unassigned27 a => exact .refuse 27 a rfl rfl (by decide) fun _ _ => rfl
  | unassigned28 a => exact .refuse 28 a rfl rfl (by decide) fun _ _ => rfl
  | unassigned29 a => exact .refuse 29 a rfl rfl (by decide) fun _ _ => rfl
  | unassigned30 a => exact .refuse 30 a rfl rfl (by decide) fun _ _ => rfl
  | unassigned31 a => exact .refuse 31 a rfl rfl (by decide) fun _ _ => rfl
  | start => exact .start rfl
  | ack => exact .ack rfl

/-- No instruction stops: each answers a next state in every state. -/
theorem exec_next (i : Instr) (s : State) : ∃ t, exec i s = .next t := by
  rcases instr_shape s.params i with ⟨f, d, a, -, -, -, h⟩ | ⟨f, a, -, -, -, h⟩ | h | h
  · exact ⟨_, h s rfl⟩
  · exact ⟨_, h s rfl⟩
  · subst h; exact ⟨_, rfl⟩
  · subst h; exact ⟨_, rfl⟩

end Sys2Proof.Machine
end

