-- ==== Sys2Proof/Laws/Step.lean ====
section
/-! SUPPORT. What a step can do, case by case, and that each operation keeps the invariant. -/

namespace Sys2Proof.Machine

/-! ### Which agent moves (log 6) -/

theorem step_of_pulse {s : State} (h : s.ctrl ≠ 0) : step s = servePulses s := by
  unfold step nextMove; rw [if_pos h]

theorem step_of_idle {s : State} (h : s.ctrl = 0) (hb : s.bus = []) : step s = decTurn s := by
  unfold step nextMove; rw [if_neg (by simpa using h), hb]

theorem step_of_move {s : State} (h : s.ctrl = 0) {m : HostMove} {rest : List HostMove}
    (hb : s.bus = m :: rest) : step s = hostMove m { s with bus := rest } := by
  unfold step nextMove; rw [if_neg (by simpa using h), hb]

/-- The three kinds of step: pulses served, DEC's turn, a move of HOST. -/
theorem step_cases {s t : State} (h : step s = .next t) :
    (s.ctrl ≠ 0 ∧ servePulses s = .next t) ∨
    (s.ctrl = 0 ∧ s.bus = [] ∧ decTurn s = .next t) ∨
    (s.ctrl = 0 ∧ ∃ m rest, s.bus = m :: rest ∧ hostMove m { s with bus := rest } = .next t) := by
  by_cases hc : s.ctrl = 0
  · cases hb : s.bus with
    | nil => exact .inr (.inl ⟨hc, rfl, (step_of_idle hc hb) ▸ h⟩)
    | cons m rest => exact .inr (.inr ⟨hc, m, rest, rfl, (step_of_move hc hb) ▸ h⟩)
  · exact .inl ⟨hc, (step_of_pulse hc) ▸ h⟩

theorem andThen_next (r : Result) : andThen r .next = r := by cases r <;> rfl

@[simp] theorem runAll_one (e : Encoded) (s : State) : runAll [e] s = runEncoded e s :=
  andThen_next _

/-- Pending pulses do not enter START. -/
theorem State.start_setCtrl (s : State) (v : BitVec 2) : (s.setCtrl v).start = s.start.setCtrl v := by
  have hs : (s.setCtrl v).sample = s.sample.setCtrl v := by
    by_cases h : s.written.all
    · rw [State.sample_of_written s h, State.sample_of_written (s.setCtrl v) h]
    · unfold State.sample
      rw [if_neg h, if_neg (c := (s.setCtrl v).written.all) h]
      rfl
  unfold State.start
  simp only [State.setCtrl_status, State.startCommand_eq, hs, State.setCtrl_cmd]
  split
  · rfl
  · cases validate s.sample.cmd <;> rfl

/-- Pending pulses do not enter ACK. -/
theorem State.acknowledge_setCtrl (s : State) (v : BitVec 2) :
    (s.setCtrl v).acknowledge = s.acknowledge.setCtrl v := by
  obtain ⟨_, _, _, _, st, _⟩ := s
  cases st <;> rfl

/-- Serving the pulses of CTRL, case by case (10_state.md R13). -/
theorem servePulses_cases (s : State) :
    (s.ctrl = 0 ∧ servePulses s = .next (s.setCtrl 0)) ∨
    (s.ctrl = 1 ∧ servePulses s = .next (s.start.setCtrl 0)) ∨
    (s.ctrl = 2 ∧ servePulses s = .next (s.acknowledge.setCtrl 0)) ∨
    (s.ctrl = 3 ∧ servePulses s = .next (s.acknowledge.start.setCtrl 0)) := by
  have key : ∀ v : BitVec 2, v = 0 ∨ v = 1 ∨ v = 2 ∨ v = 3 := by decide
  have p1 : pulseWords 1 = [.ctrl 1] := by decide
  have p2 : pulseWords 2 = [.ctrl 2] := by decide
  have p3 : pulseWords 3 = [.ctrl 2, .ctrl 1] := by decide
  have r1 : ∀ s : State, runEncoded (.ctrl 1) s = execStart s := fun _ => rfl
  have r2 : ∀ s : State, runEncoded (.ctrl 2) s = execAck s := fun _ => rfl
  rcases key s.ctrl with h | h | h | h
  · refine .inl ⟨h, ?_⟩
    rw [servePulses, h, ← h, State.setCtrl_self, h]; rfl
  · refine .inr (.inl ⟨h, ?_⟩)
    rw [servePulses, h, p1, runAll_one, r1, execStart, h]; rfl
  · refine .inr (.inr (.inl ⟨h, ?_⟩))
    rw [servePulses, h, p2, runAll_one, r2, execAck, h]; rfl
  · refine .inr (.inr (.inr ⟨h, ?_⟩))
    have hk : (3 : BitVec 2) &&& 1#2 = 1 := by decide
    have hz : (1 : BitVec 2) &&& 2#2 = 0 := by decide
    rw [servePulses, h, p3, runAll, r2, execAck, h, hk, andThen, runAll_one, r1, execStart,
      State.setCtrl_ctrl, hz, State.start_setCtrl, State.setCtrl_setCtrl]

/-! ### Offsets (20_memory.md R40; log 22) -/

theorem atOffset_lt {off : Nat} {s : State} (h : off < 2 ^ s.params.lenw) (f : State → Result) :
    atOffset off s f = f s := by
  unfold atOffset; rw [if_pos h]

theorem atOffset_ge {off : Nat} {s : State} (h : 2 ^ s.params.lenw ≤ off) (f : State → Result) :
    atOffset off s f = .refused (.noSuchOffset off) := by
  unfold atOffset; rw [if_neg (by omega)]

/-- An access that goes on is one at an offset that exists. -/
theorem atOffset_next {off : Nat} {s t : State} {f : State → Result} (h : atOffset off s f = .next t) :
    off < 2 ^ s.params.lenw ∧ f s = .next t := by
  unfold atOffset at h
  split at h
  · next ho => exact ⟨ho, h⟩
  · cases h

/-! ### The invariant, operation by operation -/

/-- The invariant does not look at HOST's side of the interface. -/
theorem Inv.of_same {s t : State} (h : Inv s) (hpar : t.params = s.params) (hc : t.cmd = s.cmd) (hst : t.status = s.status)
    (he : t.err = s.err) (hq : t.seq = s.seq) (hsub : t.sub = s.sub) (hsrc : t.src = s.src)
    (hdst : t.dst = s.dst) (ht : t.tainted = s.tainted) (hp : t.ctrl = s.ctrl) : Inv t := by
  refine ⟨hpar ▸ h.legal, ?_, ?_, ?_, ?_, hp.trans h.pulses, ?_⟩
  · simpa only [State.widthsOk, hpar, hc, hq] using h.widths
  · simpa only [State.memOk, hpar, hsrc, hdst] using h.mem
  · simpa only [State.errAgrees, hst, he] using h.err
  · intro hb
    have := h.busy (hst ▸ hb)
    simpa only [State.busyOk, hpar, hc, hq, hsub] using this
  · intro hb
    rw [hst]
    exact h.tainted (ht ▸ hb)

/-- The number of pixels of a command in registers of the unit's widths (00_scope.md R7). -/
theorem area_lt {p : Params} {c : Cmd} (h : c.fits p) : c.width * c.height < 2 ^ p.seqw := by
  rw [Params.seqw, Nat.two_mul, Nat.pow_add]
  exact Nat.mul_lt_mul_of_lt_of_lt h.1 h.2.1

/-- The pixels of an image lie in the LENW-bit space (00_scope.md R7). -/
theorem image_inSpace {p : Params} {c : Cmd} (h : c.fits p) {i : Nat} (hi : i < c.width * c.height) :
    4 * i + 3 < 2 ^ p.lenw := by
  have := area_lt h
  rw [show 2 ^ p.lenw = 4 * 2 ^ p.seqw by rw [Params.lenw, Nat.pow_add, Nat.mul_comm]]
  omega

theorem State.memOk_scrambleDst {s : State} (hf : s.cmd.fits s.params) (h : s.memOk) : s.scrambleDst.memOk :=
  ⟨h.1, Memory.scramble_wf h.2.1 _ _, h.2.2.1, Memory.scramble_inSpace h.2.2.2 _ hf.2.2.2.le⟩

theorem State.memOk_complete {s : State} (hf : s.cmd.fits s.params) (h : s.memOk) : s.complete.memOk := by
  unfold State.complete
  split
  · exact State.memOk_scrambleDst hf h
  · exact h

theorem Datapath.pixel_memOk {d : Datapath} (hl : d.loadOk) {s : State} (hf : s.cmd.fits s.params) (h : s.memOk)
    (hlt : s.seq < d.bound s.cmd) : (d.pixel s).memOk := by
  have hs : (d.pixel s).src = s.src := (d.pixel_frame s).src
  have hpar : (d.pixel s).params = s.params := (d.pixel_frame s).params
  have hp : d.addrAt s.cmd (d.pos s) < s.cmd.width * s.cmd.height :=
    d.addrAt_lt (d.pos_lt_turns.2 hlt)
  simp only [State.memOk, hs, hpar, d.pixel_dst hl s]
  exact ⟨h.1, Memory.writePixel_wf h.2.1 _ _, h.2.2.1,
    Memory.writePixel_inSpace h.2.2.2 (image_inSpace hf hp) _⟩

/-- A turn of DEC keeps the invariant. -/
theorem Datapath.turn_inv {d : Datapath} {s : State} (hd : loaderOf s.params.nibbles s.cmd.fmt = some d) (h : Inv s)
    (hb : s.status = .busy) : Inv (d.turn s) := by
  have hl := loaderOf_loadOk hd
  have hbo := h.busy hb
  have hlt : s.seq < d.bound s.cmd := by
    have := hbo.2; rw [hd] at this; exact this.1
  have hfr := d.pixel_frame s
  have herr : s.err.code = .none ∧ s.err.info = 0 := by
    have := h.err
    have hn : s.err.code = .none := by
      by_contra hc; have := this.1.2 hc; rw [hb] at this; exact absurd this (by decide)
    refine ⟨hn, ?_⟩
    have := this.2
    rw [hn] at this
    simpa using this
  have hmem := d.pixel_memOk hl h.widths.1 h.mem hlt
  have hturn : d.turn s = d.finish (d.pixel s) := by unfold Datapath.turn; rw [if_pos hlt]
  have hpar := hfr.params
  have hfits : (d.pixel s).cmd.fits (d.pixel s).params := by rw [hfr.cmd, hpar]; exact h.widths.1
  have hseq : (d.pixel s).seq < 2 ^ s.params.seqw := by
    have h1 := area_lt h.widths.1
    have h2 := d.bound_le s.cmd
    have h3 := d.pixel_seq_le s
    omega
  rw [hturn]
  unfold Datapath.finish
  split
  · refine ⟨?_, ?_, State.memOk_complete hfits hmem, ?_, ?_, ?_, ?_⟩
    · rw [State.complete_params, hpar]; exact h.legal
    · rw [State.widthsOk, State.complete_params, State.complete_cmd, State.complete_seq]
      exact ⟨hfits, by rw [hpar]; exact hseq⟩
    · simp only [State.errAgrees, State.complete_status, State.complete_err, hfr.err, herr.1, herr.2]
      simp
    · simp
    · simp [hfr.ctrl, h.pulses]
    · simp
  · next hn =>
    refine ⟨hpar ▸ h.legal, ⟨hfits, by rw [hpar]; exact hseq⟩, hmem, ?_, ?_, ?_, ?_⟩
    · simp only [State.errAgrees, d.pixel_status, hfr.err]; exact h.err
    · intro _
      refine ⟨by rw [hfr.cmd]; exact hbo.1, ?_⟩
      have h2 := hbo.2
      rw [hd] at h2
      rw [hfr.cmd, hpar, hd]
      refine ⟨by rw [hfr.cmd] at hn; omega, ?_⟩
      cases d with
      | linear _ _ => exact h2.2
      | block _ => trivial
    · rw [hfr.ctrl]; exact h.pulses
    · intro ht
      rw [d.pixel_status]; exact hb

theorem decTurn_inv {s t : State} (h : Inv s) (e : decTurn s = .next t) : Inv t := by
  unfold decTurn at e
  split at e
  · next hb =>
    split at e
    · next d hd => injection e with e; subst e; exact Datapath.turn_inv hd h hb
    · cases e
  · injection e with e; subst e; exact h

theorem ErrorKind.err_agrees {c : Cmd} {e : ErrorKind} (h : validate c = some e) :
    e.err.code ≠ .none ∧
      (if e.err.code = .unsupportedFormat then 22 ≤ e.err.info.toNat else e.err.info = 0) := by
  unfold validate at h
  by_cases h1 : hasLoader c.fmt.toNat = false
  · rw [if_pos h1] at h
    obtain rfl := Option.some.inj h
    simp only [hasLoader, decide_eq_false_iff_not, not_lt] at h1
    simp only [ErrorKind.err, ne_eq, reduceCtorEq, not_false_eq_true, if_true, true_and]
    exact h1
  · rw [if_neg h1] at h
    split at h
    · obtain rfl := Option.some.inj h; decide
    · split at h
      · obtain rfl := Option.some.inj h; decide
      · split at h
        · obtain rfl := Option.some.inj h; decide
        · split at h
          · obtain rfl := Option.some.inj h; decide
          · cases h

theorem freeNumber_lt (w n : Nat) : freeNumber w n < 2 ^ w := (Config.freeValue w n).isLt

/-- The registers that START samples have their widths. -/
theorem State.sampledCmd_fits {s : State} (h : s.cmd.fits s.params) : s.sampledCmd.fits s.params := by
  obtain ⟨h1, h2, h3, h4⟩ := h
  refine ⟨?_, ?_, ?_, ?_⟩ <;> simp only [State.sampledCmd] <;> split <;>
    first | assumption | exact freeNumber_lt _ _

/-- What START begins with: the registers sampled, SEQ and SUB cleared. -/
theorem State.sample_inv {s : State} (h : Inv s) (hb : s.status ≠ .busy) :
    Inv { s.sample with seq := 0, sub := 0 } where
  legal := by simpa using h.legal
  widths := ⟨by simpa [State.sample_cmd] using State.sampledCmd_fits h.widths.1, Nat.two_pow_pos _⟩
  mem := by simpa [State.memOk] using h.mem
  err := by simpa [State.errAgrees] using h.err
  busy := fun e => absurd (by simpa using e) hb
  pulses := by simpa using h.pulses
  tainted := by simpa using h.tainted

/-- START outside BUSY leaves the invariant, whatever it finds. -/
theorem State.startCommand_inv {s : State} (h : Inv s) (hb : s.status ≠ .busy) : Inv s.startCommand := by
  have hnt : s.tainted = false := by
    by_contra ht
    exact hb (h.tainted (by simpa using ht))
  have hs := State.sample_inv h hb
  cases hv : validate s.sample.cmd with
  | some e =>
    rw [State.startCommand_refused hv]
    refine ⟨hs.legal, hs.widths, hs.mem, ?_, ?_, ?_, ?_⟩
    · have := ErrorKind.err_agrees hv
      simp only [State.errAgrees, State.raise_status, State.raise_err]
      exact ⟨⟨fun _ => this.1, fun _ => trivial⟩, this.2⟩
    · simp
    · simp [h.pulses]
    · simp [hnt]
  | none =>
    rw [State.startCommand_accepted hv]
    have hf := ((validate_none_iff _).1 hv).1
    obtain ⟨d, hd⟩ : ∃ d, loaderOf s.sample.params.nibbles s.sample.cmd.fmt = some d := by
      cases hl : loaderOf s.sample.params.nibbles s.sample.cmd.fmt with
      | some d => exact ⟨d, rfl⟩
      | none => exact absurd ((loaderOf_none_iff _ _).1 hl) (by omega)
    refine ⟨hs.legal, hs.widths, hs.mem, ?_, ?_, ?_, ?_⟩
    · simp [State.errAgrees]
    · intro _
      refine ⟨hv, ?_⟩
      show (match loaderOf s.sample.params.nibbles s.sample.cmd.fmt with | some d => _ | none => _)
      rw [hd]
      refine ⟨?_, ?_⟩
      · have := d.pos_lt_turns (s := { s.sample with seq := 0, sub := 0 })
        have h0 : d.pos { s.sample with seq := 0, sub := 0 } = 0 := by cases d <;> rfl
        rw [h0] at this
        exact this.1 (turns_pos (validate_dimsOk hd hv) hv)
      · cases d <;> trivial
    · simp [h.pulses]
    · simp

theorem State.acknowledge_inv {s : State} (h : Inv s) : Inv s.acknowledge := by
  unfold State.acknowledge
  have clear : Inv { s with status := .idle, err := ⟨.none, 0⟩ } ∨ s.status = .busy := by
    by_cases hb : s.status = .busy
    · exact .inr hb
    · refine .inl ⟨h.legal, h.widths, h.mem, by simp [State.errAgrees], by simp, h.pulses, ?_⟩
      intro ht
      exact absurd (h.tainted ht) hb
  split
  · next hs => exact clear.resolve_right (by rw [hs]; decide)
  · next hs => exact clear.resolve_right (by rw [hs]; decide)
  · exact h
  · exact h

theorem State.start_inv {s : State} (h : Inv s) : Inv s.start := by
  unfold State.start
  split
  · exact h
  · next hb => exact State.startCommand_inv h hb

theorem servePulses_inv {s t : State} (h : Inv (s.setCtrl 0)) (e : servePulses s = .next t) :
    Inv t := by
  have hstart : Inv (s.start.setCtrl 0) := by rw [← State.start_setCtrl]; exact State.start_inv h
  have hack : Inv (s.acknowledge.setCtrl 0) := by
    rw [← State.acknowledge_setCtrl]; exact State.acknowledge_inv h
  rcases servePulses_cases s with ⟨-, he⟩ | ⟨-, he⟩ | ⟨-, he⟩ | ⟨-, he⟩ <;> rw [he] at e <;>
    injection e with e <;> subst e
  · exact h
  · exact hstart
  · exact hack
  · rw [← State.start_setCtrl]; exact State.start_inv hack

theorem Inv.setCtrl {s : State} (h : Inv s) : Inv (s.setCtrl 0) :=
  h.of_same rfl rfl rfl rfl rfl rfl rfl rfl rfl h.pulses.symm

/-- A run of turns keeps the invariant as long as it stays inside its command. -/
theorem Datapath.run_inv {d : Datapath} (n : Nat) {s : State} (hd : loaderOf s.params.nibbles s.cmd.fmt = some d)
    (h : Inv s) (hb : s.status = .busy) (hn : d.pos s + n ≤ d.turns s.cmd) (ht : s.tainted = false) :
    Inv (d.run n s) := by
  induction n generalizing s with
  | zero => exact h
  | succ n ih =>
    have hlt : s.seq < d.bound s.cmd := d.pos_lt_turns.1 (by omega)
    have t := d.turn_spec (loaderOf_loadOk hd) hlt ht
    have hi := d.turn_inv hd h hb
    by_cases hz : n = 0
    · subst hz; exact hi
    · refine ih (by rw [t.frame.params, t.frame.cmd]; exact hd) hi ?_ (by rw [t.pos, t.frame.cmd]; omega) t.tainted
      rw [t.status, if_neg (by omega)]; exact hb

theorem State.writeCmd_inv {s : State} (h : Inv s) (hb : s.status ≠ .busy) {c : Cmd} (hc : c.fits s.params) :
    Inv (s.writeCmd c) :=
  ⟨h.legal, ⟨hc, h.widths.2⟩, h.mem, h.err, fun e => absurd e hb, h.pulses, h.tainted⟩

theorem State.runCommand_inv {s : State} (h : Inv s) {f : BitVec Config.fmtw} {d : Datapath}
    (hd : loaderOf s.params.nibbles f = some d) (a : CmdArgs) : Inv (s.runCommand f d a) := by
  by_cases hb : s.status = .busy
  · rw [State.runCommand_busy hb]; exact h
  · have hstart := State.startCommand_inv (State.writeCmd_inv h hb (a.toCmd_fits s.params f)) hb
    cases hv : validate (a.toCmd s.params f) with
    | some e =>
      rw [State.runCommand_refused hb hv]
      rwa [State.startCommand_refused (e := e) (by rw [State.sample_writeCmd]; exact hv),
        State.sample_writeCmd] at hstart
    | none =>
      rw [State.runCommand_accepted hb hv]
      rw [State.startCommand_accepted (by rw [State.sample_writeCmd]; exact hv),
        State.sample_writeCmd] at hstart
      refine d.run_inv _ hd hstart rfl ?_ rfl
      have h0 : d.pos (s.begun (a.toCmd s.params f)) = 0 := by cases d <;> rfl
      rw [h0, Nat.zero_add]; exact le_refl _

theorem State.refuseCommand_inv {s : State} (h : Inv s) (f : BitVec Config.fmtw) (a : CmdArgs) :
    Inv (s.refuseCommand f a) := by
  by_cases hb : s.status = .busy
  · rw [State.refuseCommand_busy hb]; exact h
  · unfold State.refuseCommand
    rw [if_neg hb]
    exact State.startCommand_inv (State.writeCmd_inv h hb (a.toCmd_fits s.params f)) hb

/-- Every instruction keeps the invariant. -/
theorem exec_inv {i : Instr} {s t : State} (h : Inv s) (e : exec i s = .next t) : Inv t := by
  rcases instr_shape s.params i with ⟨f, d, a, -, -, hd, hm⟩ | ⟨f, a, -, -, -, hm⟩ | hi | hi
  · rw [hm s rfl] at e; injection e with e; subst e; exact State.runCommand_inv h hd a
  · rw [hm s rfl] at e; injection e with e; subst e; exact State.refuseCommand_inv h f a
  · subst hi
    injection e with e; subst e
    have : s.ctrl &&& 2#2 = 0 := by rw [h.pulses]; decide
    rw [this]
    exact (State.start_inv h).setCtrl
  · subst hi
    injection e with e; subst e
    have : s.ctrl &&& 1#2 = 0 := by rw [h.pulses]; decide
    rw [this]
    exact (State.acknowledge_inv h).setCtrl

/-- A register write leaves each command register with the bits it has. -/
theorem State.writeReg_fits {s : State} (h : s.cmd.fits s.params) (r : Reg) (v : Nat) :
    (s.writeReg r v).cmd.fits s.params := by
  obtain ⟨h1, h2, h3, h4⟩ := h
  have hw : ∀ n, v % 2 ^ n < 2 ^ n := fun n => Nat.mod_lt _ (Nat.two_pow_pos n)
  unfold State.writeReg
  split
  · exact ⟨h1, h2, h3, h4⟩
  · cases r
    · exact ⟨h1, h2, h3, h4⟩
    · exact ⟨hw _, h2, h3, h4⟩
    · exact ⟨h1, hw _, h3, h4⟩
    · exact ⟨h1, h2, hw _, h4⟩
    · exact ⟨h1, h2, h3, hw _⟩
    · exact ⟨h1, h2, h3, h4⟩
    · exact ⟨h1, h2, h3, h4⟩
    · exact ⟨h1, h2, h3, h4⟩

theorem State.writeReg_inv {s : State} (h : Inv s) (r : Reg) (v : Nat) : Inv (s.writeReg r v) := by
  by_cases hb : s.status = .busy
  · rw [State.writeReg_busy _ _ _ hb]; exact h
  · exact ⟨by simpa using h.legal,
      ⟨by simpa using State.writeReg_fits h.widths.1 r v, by simpa using h.widths.2⟩,
      by simpa [State.memOk] using h.mem, by simpa [State.errAgrees] using h.err,
      fun e => absurd (by simpa using e) hb, by simpa using h.pulses, by simpa using h.tainted⟩

theorem State.hostReset_memOk {s : State} (h : Inv s) : s.hostReset.memOk := by
  rw [State.memOk, State.hostReset_src, State.hostReset_dst, State.hostReset_params]
  split
  · exact State.memOk_scrambleDst h.widths.1 h.mem
  · exact h.mem

theorem State.hostReset_inv {s : State} (h : Inv s) : Inv s.hostReset where
  legal := h.legal
  widths := ⟨⟨Nat.two_pow_pos _, Nat.two_pow_pos _, Nat.two_pow_pos _, Nat.two_pow_pos _⟩, Nat.two_pow_pos _⟩
  mem := State.hostReset_memOk h
  err := by simp [State.errAgrees]
  busy := by simp
  pulses := rfl
  tainted := by simp

/-- A store keeps the invariant, where the offset has LENW bits. -/
theorem hostStoreSrc_inv {off : Nat} {v : Byte} {s t : State} (h : Inv s) (ho : off < 2 ^ s.params.lenw)
    (e : hostStoreSrc off v s = .next t) : Inv t := by
  injection e with e; subst e
  refine ⟨h.legal, h.widths, ⟨Memory.write_wf h.mem.1 _ _, h.mem.2.1, Memory.write_inSpace h.mem.2.2.1 ho _,
    h.mem.2.2.2⟩, h.err, h.busy, h.pulses, fun ht => ?_⟩
  simp only [Bool.or_eq_true, Bool.and_eq_true, decide_eq_true_eq] at ht
  exact ht.elim h.tainted And.left

theorem hostStoreDst_inv {off : Nat} {v : Byte} {s t : State} (h : Inv s) (ho : off < 2 ^ s.params.lenw)
    (e : hostStoreDst off v s = .next t) : Inv t := by
  injection e with e; subst e
  refine ⟨h.legal, h.widths, ⟨h.mem.1, Memory.write_wf h.mem.2.1 _ _, h.mem.2.2.1,
    Memory.write_inSpace h.mem.2.2.2 ho _⟩, h.err, h.busy, h.pulses, fun ht => ?_⟩
  simp only [Bool.or_eq_true, Bool.and_eq_true, decide_eq_true_eq] at ht
  exact ht.elim h.tainted And.left

/-- A load keeps the invariant. -/
theorem hostLoadDst_inv {off : Nat} {s t : State} (h : Inv s) (e : hostLoadDst off s = .next t) : Inv t := by
  unfold hostLoadDst at e
  split at e <;> injection e with e <;> subst e <;>
    exact h.of_same rfl rfl rfl rfl rfl rfl rfl rfl rfl rfl

/-- Every move of HOST keeps the invariant. -/
theorem hostMove_inv {m : HostMove} {s t : State} (h : Inv s) (e : hostMove m s = .next t) : Inv t := by
  cases m with
  | write n v =>
    simp only [hostMove] at e
    split at e
    · next r hr =>
      cases r <;> simp only [hostWrite] at e <;> try (injection e with e; subst e; exact State.writeReg_inv h _ v)
      refine servePulses_inv (s := s.setCtrl (s.ctrl ||| BitVec.ofNat 2 v)) ?_ e
      rw [State.setCtrl_setCtrl]; exact h.setCtrl
    · cases e
  | read n =>
    simp only [hostMove] at e
    split at e
    · injection e with e; subst e
      exact h.of_same rfl rfl rfl rfl rfl rfl rfl rfl rfl rfl
    · cases e
  | storeSrc off v => exact hostStoreSrc_inv h (atOffset_next e).1 (atOffset_next e).2
  | loadSrc off =>
    have e := (atOffset_next e).2
    injection e with e; subst e
    exact h.of_same rfl rfl rfl rfl rfl rfl rfl rfl rfl rfl
  | storeDst off v => exact hostStoreDst_inv h (atOffset_next e).1 (atOffset_next e).2
  | loadDst off => exact hostLoadDst_inv h (atOffset_next e).2
  | command w => exact exec_inv (i := decodeCmd (Cmd.unpack s.params w)) h e
  | reset =>
    injection e with e; subst e
    exact State.hostReset_inv h
  | wait => exact decTurn_inv h e

/-! ### Runs of steps -/

/-- `n` steps, with the state type written as this machine's own. -/
def runSteps (n : Nat) (s : State) : Result := Host.Core.run Sys2Proof.core n s

@[simp] theorem runSteps_zero (s : State) : runSteps 0 s = .next s := rfl

theorem core_run_succ (M : Host.Core) (n : Nat) (s : M.State) :
    M.run (n + 1) s = match M.step s with
      | .next t => M.run n t
      | .fault r => .fault r
      | .refused r => .refused r := rfl

theorem runSteps_succ (n : Nat) (s : State) : runSteps (n + 1) s = andThen (step s) (runSteps n) := by
  have h := core_run_succ Sys2Proof.core n s
  have e : Sys2Proof.core.step s = step s := rfl
  cases hs : step s with
  | next t => rw [hs] at e; simp only [e] at h; exact h
  | fault r => rw [hs] at e; simp only [e] at h; exact h
  | refused r => rw [hs] at e; simp only [e] at h; exact h

/-- A step that goes on, then the rest. -/
theorem runSteps_step {s t : State} (h : step s = .next t) (n : Nat) :
    runSteps (n + 1) s = runSteps n t := by
  rw [runSteps_succ, h]; rfl

theorem runSteps_add (m n : Nat) (s : State) :
    runSteps (m + n) s = andThen (runSteps m s) (runSteps n) := by
  induction m generalizing s with
  | zero => rw [Nat.zero_add]; rfl
  | succ m ih =>
    rw [Nat.succ_add, runSteps_succ, runSteps_succ]
    cases step s <;> first | exact ih _ | rfl

/-- Outside BUSY, with HOST making no move, nothing changes. -/
theorem runSteps_idle {s : State} (hc : s.ctrl = 0) (hb : s.bus = []) (hs : s.status ≠ .busy) (n : Nat) :
    runSteps n s = .next s := by
  induction n with
  | zero => rfl
  | succ n ih =>
    rw [runSteps_step (t := s) (by rw [step_of_idle hc hb]; unfold decTurn; rw [if_neg hs])]
    exact ih

/-- With HOST making no move, steps are DEC's turns. -/
theorem runSteps_turns {d : Datapath} (n : Nat) {s : State} (hl : loaderOf s.params.nibbles s.cmd.fmt = some d)
    (hc : s.ctrl = 0) (hb : s.bus = []) (ht : s.tainted = false) (hs : s.status = .busy)
    (hn : d.pos s + n ≤ d.turns s.cmd) : runSteps n s = .next (d.run n s) := by
  induction n generalizing s with
  | zero => rfl
  | succ n ih =>
    have hlt : s.seq < d.bound s.cmd := d.pos_lt_turns.1 (by omega)
    have ts := d.turn_spec (loaderOf_loadOk hl) hlt ht
    rw [runSteps_step (t := d.turn s) (by rw [step_of_idle hc hb]; unfold decTurn; rw [if_pos hs, hl])]
    by_cases hz : n = 0
    · subst hz; rfl
    · exact ih (by rw [ts.frame.params, ts.frame.cmd]; exact hl) (ts.frame.ctrl.trans hc) (ts.frame.bus.trans hb) ts.tainted
        (by rw [ts.status, if_neg (by omega)]; exact hs) (by rw [ts.pos, ts.frame.cmd]; omega)

end Sys2Proof.Machine
end

