-- ==== Sys2Proof/Tests/Slice0.lean ====
section
/-! SUPPORT. The model's own tests. Expected values are those of spec/95_test_vectors.md; each test's comment names
the part. Then one witness for the hypotheses of each statement. -/

namespace Sys2Proof.Tests

open Sys2Proof.Machine

/-! ### Helpers -/

/-- Bytes from an offset on. -/
def load : List Byte → Nat → Memory → Memory
  | [], _, m => m
  | b :: rest, off, m => load rest (off + 1) (m.write off b)

/-- The first `n` bytes from an offset on. -/
def bytesFrom (m : Memory) (off : Nat) : Nat → List Byte
  | 0 => []
  | n + 1 => m.read off :: bytesFrom m (off + 1) n

/-- The state after reset with these bytes in SRC. -/
def withSrc (bs : List Byte) : State := { State.reset with src := load bs 0 [] }

/-- The first `n` bytes of DST after a step. -/
def dstAfter (n : Nat) (r : Result) : List Byte :=
  match nextState? r with
  | some t => bytesFrom t.dst 0 n
  | none => []

/-- STATUS and ERR as HOST reads them, after a step. -/
def statusErr (r : Result) : Nat × Nat :=
  match nextState? r with
  | some t => (t.status.number, t.err.word)
  | none => (9, 9)

/-- The default parameters. -/
abbrev std : Params := Params.standard

/-- One command of `w` by `h` pixels, the lengths as 95_test_vectors.md's conventions set them. -/
def decoded (i : CmdArgs → Instr) (w h : Nat) (src : List Byte) : List Byte :=
  dstAfter (w * h * 4) (exec (i ⟨w, h, src.length, w * h * 4⟩) (withSrc src))

/-! ### WellFormed: one ill-formed term for each check -/

theorem test_wf_accepts_widest : (Instr.dxt1 ⟨65535, 65535, 17179869183, 17179869183⟩).wellFormed std = true := by decide
theorem test_wf_refuses_width : (Instr.rgb565 ⟨65536, 1, 2, 4⟩).wellFormed std = false := by decide
theorem test_wf_refuses_height : (Instr.rgb565 ⟨1, 65536, 2, 4⟩).wellFormed std = false := by decide
theorem test_wf_refuses_srcLen : (Instr.rgb565 ⟨1, 1, 17179869184, 4⟩).wellFormed std = false := by decide
/-- R6: with DIMW 3 the same operands no longer fit. -/
theorem test_wf_depends_on_dimw :
    (Instr.rgb565 ⟨8, 1, 16, 32⟩).wellFormed std = true ∧
    (Instr.rgb565 ⟨8, 1, 16, 32⟩).wellFormed ⟨3, NibbleMap.standard⟩ = false := by decide
theorem test_wf_refuses_dstLen : (Instr.p8 ⟨1, 1, 2, 17179869184⟩).wellFormed std = false := by decide

/-! ### Decoding: the word of every row, FMT written out in binary (30_encoding.md R72, R73) -/

theorem test_decode_byte_lane :
    decodeCmd ⟨0b00000, 1, 2, 3, 4⟩ = .rgba8888 ⟨1, 2, 3, 4⟩ ∧
    decodeCmd ⟨0b00001, 1, 2, 3, 4⟩ = .bgra8888 ⟨1, 2, 3, 4⟩ ∧
    decodeCmd ⟨0b00010, 1, 2, 3, 4⟩ = .argb8888 ⟨1, 2, 3, 4⟩ ∧
    decodeCmd ⟨0b00011, 1, 2, 3, 4⟩ = .abgr8888 ⟨1, 2, 3, 4⟩ ∧
    decodeCmd ⟨0b00100, 1, 2, 3, 4⟩ = .rgb888 ⟨1, 2, 3, 4⟩ ∧
    decodeCmd ⟨0b00101, 1, 2, 3, 4⟩ = .bgr888 ⟨1, 2, 3, 4⟩ ∧
    decodeCmd ⟨0b00110, 1, 2, 3, 4⟩ = .bgrx8888 ⟨1, 2, 3, 4⟩ ∧
    decodeCmd ⟨0b00111, 1, 2, 3, 4⟩ = .uvlx8888 ⟨1, 2, 3, 4⟩ ∧
    decodeCmd ⟨0b01000, 1, 2, 3, 4⟩ = .uvwq8888 ⟨1, 2, 3, 4⟩ := by decide

theorem test_decode_packed_bit :
    decodeCmd ⟨0b01001, 1, 2, 3, 4⟩ = .rgb565 ⟨1, 2, 3, 4⟩ ∧
    decodeCmd ⟨0b01010, 1, 2, 3, 4⟩ = .bgr565 ⟨1, 2, 3, 4⟩ ∧
    decodeCmd ⟨0b01011, 1, 2, 3, 4⟩ = .bgra4444 ⟨1, 2, 3, 4⟩ ∧
    decodeCmd ⟨0b01100, 1, 2, 3, 4⟩ = .bgra5551 ⟨1, 2, 3, 4⟩ ∧
    decodeCmd ⟨0b01101, 1, 2, 3, 4⟩ = .bgrx5551 ⟨1, 2, 3, 4⟩ := by decide

theorem test_decode_scalar_and_key :
    decodeCmd ⟨0b01110, 1, 2, 3, 4⟩ = .i8 ⟨1, 2, 3, 4⟩ ∧
    decodeCmd ⟨0b01111, 1, 2, 3, 4⟩ = .ia88 ⟨1, 2, 3, 4⟩ ∧
    decodeCmd ⟨0b10000, 1, 2, 3, 4⟩ = .a8 ⟨1, 2, 3, 4⟩ ∧
    decodeCmd ⟨0b10001, 1, 2, 3, 4⟩ = .uv88 ⟨1, 2, 3, 4⟩ ∧
    decodeCmd ⟨0b10010, 1, 2, 3, 4⟩ = .rgb888Bluescreen ⟨1, 2, 3, 4⟩ ∧
    decodeCmd ⟨0b10011, 1, 2, 3, 4⟩ = .bgr888Bluescreen ⟨1, 2, 3, 4⟩ := by decide

theorem test_decode_dxt1_and_refused :
    decodeCmd ⟨0b10100, 1, 2, 3, 4⟩ = .dxt1 ⟨1, 2, 3, 4⟩ ∧
    decodeCmd ⟨0b10101, 1, 2, 3, 4⟩ = .dxt1OneBitAlpha ⟨1, 2, 3, 4⟩ ∧
    decodeCmd ⟨0b10110, 1, 2, 3, 4⟩ = .p8 ⟨1, 2, 3, 4⟩ ∧
    decodeCmd ⟨0b10111, 1, 2, 3, 4⟩ = .dxt3 ⟨1, 2, 3, 4⟩ ∧
    decodeCmd ⟨0b11000, 1, 2, 3, 4⟩ = .dxt5 ⟨1, 2, 3, 4⟩ ∧
    decodeCmd ⟨0b11001, 1, 2, 3, 4⟩ = .float16 ⟨1, 2, 3, 4⟩ ∧
    decodeCmd ⟨0b11010, 1, 2, 3, 4⟩ = .unassigned26 ⟨1, 2, 3, 4⟩ ∧
    decodeCmd ⟨0b11011, 1, 2, 3, 4⟩ = .unassigned27 ⟨1, 2, 3, 4⟩ ∧
    decodeCmd ⟨0b11100, 1, 2, 3, 4⟩ = .unassigned28 ⟨1, 2, 3, 4⟩ ∧
    decodeCmd ⟨0b11101, 1, 2, 3, 4⟩ = .unassigned29 ⟨1, 2, 3, 4⟩ ∧
    decodeCmd ⟨0b11110, 1, 2, 3, 4⟩ = .unassigned30 ⟨1, 2, 3, 4⟩ ∧
    decodeCmd ⟨0b11111, 1, 2, 3, 4⟩ = .unassigned31 ⟨1, 2, 3, 4⟩ := by decide

/-- CTRL: bit 0 is START, bit 1 ACK; no bit and both bits are no single instruction (10_state.md R13). -/
theorem test_decode_ctrl :
    decode std (.ctrl 0b01) = .ok .start ∧ decode std (.ctrl 0b10) = .ok .ack ∧
    decode std (.ctrl 0b00) = .error .noPulse ∧ decode std (.ctrl 0b11) = .error .twoPulses ∧
    pulseWords 0b11 = [.ctrl 0b10, .ctrl 0b01] := by decide

/-- The table's numbering: FMT in the first byte, then WIDTH, HEIGHT, SRC_LEN, DST_LEN (log 8). -/
theorem test_decode_table_word :
    decodeTableWord 112 (0b01001 + 2 * 2 ^ 5 + 1 * 2 ^ 21 + 4 * 2 ^ 37 + 8 * 2 ^ 71)
      = some (.rgb565 ⟨2, 1, 4, 8⟩) := by decide
/-- R6: the same command in the registers of a unit with DIMW 4. -/
theorem test_decode_other_dimw :
    decode ⟨4, NibbleMap.standard⟩ (.cmd (0b01001 + 2 * 2 ^ 5 + 1 * 2 ^ 9 + 4 * 2 ^ 13 + 8 * 2 ^ 23))
      = .ok (.rgb565 ⟨2, 1, 4, 8⟩) := by decide
theorem test_decode_table_fmt_only :
    decodeTableWord 8 0x15 = some (.dxt1OneBitAlpha ⟨0, 0, 0, 0⟩) ∧ decodeTableWord 1 1 = some .start ∧
    decodeTableWord 2 2 = some .ack := by decide

/-! ### Results (95_test_vectors.md parts A and B) -/

/-- B2. -/
theorem test_rgba8888 : decoded .rgba8888 1 1 [17, 34, 51, 68] =
    [17, 34, 51, 68] := by decide
/-- B2. -/
theorem test_bgra8888 : decoded .bgra8888 2 1 [1, 2, 3, 4, 5, 6, 7, 8] =
    [3, 2, 1, 4, 7, 6, 5, 8] := by decide
/-- B2. -/
theorem test_argb8888 : decoded .argb8888 1 1 [17, 34, 51, 68] =
    [68, 17, 34, 51] := by decide
/-- B2. -/
theorem test_abgr8888 : decoded .abgr8888 1 1 [17, 34, 51, 68] =
    [68, 51, 34, 17] := by decide
/-- B2. -/
theorem test_rgb888 : decoded .rgb888 2 1 [1, 2, 3, 4, 5, 6] =
    [1, 2, 3, 255, 4, 5, 6, 255] := by decide
/-- B2. -/
theorem test_bgr888 : decoded .bgr888 1 1 [17, 34, 51] =
    [51, 34, 17, 255] := by decide
/-- B2. -/
theorem test_bgrx8888 : decoded .bgrx8888 2 1 [1, 2, 3, 4, 5, 6, 7, 8] =
    [3, 2, 1, 255, 7, 6, 5, 255] := by decide
/-- B2. -/
theorem test_uvlx8888 : decoded .uvlx8888 1 1 [17, 34, 51, 68] =
    [17, 34, 51, 68] := by decide
/-- B2. -/
theorem test_uvwq8888 : decoded .uvwq8888 1 1 [128, 127, 255, 0] =
    [128, 127, 255, 0] := by decide
/-- C1. -/
theorem test_rgb565 : decoded .rgb565 2 1 [31, 0, 52, 18] =
    [255, 0, 0, 255, 165, 69, 16, 255] := by decide
/-- B3. -/
theorem test_bgr565 : decoded .bgr565 2 1 [239, 190, 0, 248] =
    [189, 223, 123, 255, 255, 0, 0, 255] := by decide
/-- B3. -/
theorem test_bgra4444 : decoded .bgra4444 2 1 [33, 67, 165, 60] =
    [51, 34, 17, 68, 204, 170, 85, 51] := by decide
/-- D11: with the map of `RGBA` upward, red and blue change places. -/
theorem test_bgra4444_other_map :
    dstAfter 4 (exec (.bgra4444 ⟨1, 1, 2, 4⟩) { withSrc [33, 67] with params := ⟨16, ⟨2, 1, 0, 3⟩⟩ })
      = [17, 34, 51, 68] := by decide
/-- C3. -/
theorem test_bgra5551 : decoded .bgra5551 2 2 [52, 18, 239, 190, 255, 127, 0, 128] =
    [33, 140, 165, 0, 123, 189, 123, 255, 255, 255, 255, 0, 0, 0, 0, 255] := by decide
/-- B3. -/
theorem test_bgrx5551 : decoded .bgrx5551 2 1 [90, 165, 0, 2] =
    [74, 82, 214, 255, 0, 132, 0, 255] := by decide
/-- A5. -/
theorem test_i8 : decoded .i8 1 1 [128] =
    [128, 128, 128, 255] := by decide
/-- 43_scalar.md R152. -/
theorem test_ia88 : decoded .ia88 1 1 [128, 64] =
    [128, 128, 128, 64] := by decide
/-- 43_scalar.md R153. -/
theorem test_a8 : decoded .a8 1 1 [200] =
    [0, 0, 0, 200] := by decide
/-- 43_scalar.md R154. -/
theorem test_uv88 : decoded .uv88 1 1 [18, 52] =
    [18, 52, 0, 255] := by decide
/-- B4. -/
theorem test_rgb888Bluescreen : decoded .rgb888Bluescreen 2 1 [0, 0, 255, 10, 20, 30] =
    [0, 0, 0, 0, 10, 20, 30, 255] := by decide
/-- B4. -/
theorem test_bgr888Bluescreen : decoded .bgr888Bluescreen 2 1 [255, 0, 0, 0, 0, 255] =
    [0, 0, 0, 0, 255, 0, 0, 255] := by decide
/-- B5, t4: 4-colour mode, all index orders, truncation. -/
theorem test_dxt1 : decoded .dxt1 4 4 [0xEF, 0xBE, 0x34, 0x12, 0x1B, 0xE4, 0x4E, 0xB1] =
    [123, 223, 189, 255, 165, 69, 16, 255, 137, 171, 131, 255, 151, 120, 73, 255, 151, 120, 73, 255, 137, 171, 131, 255, 165, 69, 16, 255, 123, 223, 189, 255,
      165, 69, 16, 255, 123, 223, 189, 255, 151, 120, 73, 255, 137, 171, 131, 255, 137, 171, 131, 255, 151, 120, 73, 255, 123, 223, 189, 255, 165, 69, 16, 255] := by decide
/-- B5, t3: equal endpoints are 3-colour mode, entry 3 transparent. -/
theorem test_dxt1OneBitAlpha :
    decoded .dxt1OneBitAlpha 4 4 [0x34, 0x12, 0x34, 0x12, 0x1B, 0xE4, 0x00, 0xFF] =
    [165, 69, 16, 255, 165, 69, 16, 255, 165, 69, 16, 255, 0, 0, 0, 0, 0, 0, 0, 0, 165, 69, 16, 255, 165, 69, 16, 255, 165, 69, 16, 255,
      165, 69, 16, 255, 165, 69, 16, 255, 165, 69, 16, 255, 165, 69, 16, 255, 0, 0, 0, 0, 0, 0, 0, 0, 0, 0, 0, 0, 0, 0, 0, 0] := by decide

/-- B6: refused at once, DST untouched, ERR as HOST reads it (C3: 0x1601 for `P8`). -/
theorem test_refused_formats :
    statusErr (exec (.p8 ⟨2, 2, 4, 16⟩) State.reset) = (3, 0x1601) ∧
    statusErr (exec (.p8 ⟨0, 0, 5, 7⟩) State.reset) = (3, 0x1601) ∧
    statusErr (exec (.dxt3 ⟨4, 4, 16, 64⟩) State.reset) = (3, 0x1701) ∧
    statusErr (exec (.dxt5 ⟨4, 4, 16, 64⟩) State.reset) = (3, 0x1801) ∧
    statusErr (exec (.float16 ⟨1, 1, 8, 4⟩) State.reset) = (3, 0x1901) ∧
    statusErr (exec (.unassigned26 ⟨1, 1, 4, 4⟩) State.reset) = (3, 0x1A01) ∧
    statusErr (exec (.unassigned27 ⟨1, 1, 4, 4⟩) State.reset) = (3, 0x1B01) ∧
    statusErr (exec (.unassigned28 ⟨1, 1, 4, 4⟩) State.reset) = (3, 0x1C01) ∧
    statusErr (exec (.unassigned29 ⟨1, 1, 4, 4⟩) State.reset) = (3, 0x1D01) ∧
    statusErr (exec (.unassigned30 ⟨1, 1, 4, 4⟩) State.reset) = (3, 0x1E01) ∧
    statusErr (exec (.unassigned31 ⟨1, 1, 4, 4⟩) State.reset) = (3, 0x1F01) := by decide

/-- B6, dimensions. -/
theorem test_invalid_dimensions :
    statusErr (exec (.rgb565 ⟨0, 4, 0, 0⟩) State.reset) = (3, 2) ∧
    statusErr (exec (.dxt1 ⟨4, 0, 0, 0⟩) State.reset) = (3, 2) ∧
    statusErr (exec (.dxt1 ⟨6, 4, 16, 96⟩) State.reset) = (3, 2) ∧
    statusErr (exec (.dxt1 ⟨2, 2, 8, 16⟩) State.reset) = (3, 2) ∧
    statusErr (exec (.dxt1OneBitAlpha ⟨4, 1, 8, 16⟩) State.reset) = (3, 2) := by decide

/-- B6, lengths. -/
theorem test_length_mismatch :
    statusErr (exec (.rgb565 ⟨2, 1, 4, 7⟩) State.reset) = (3, 3) ∧
    statusErr (exec (.rgb565 ⟨2, 1, 5, 8⟩) State.reset) = (3, 3) ∧
    statusErr (exec (.rgb565 ⟨2, 1, 3, 8⟩) State.reset) = (3, 3) ∧
    statusErr (exec (.bgrx8888 ⟨1, 1, 3, 4⟩) State.reset) = (3, 3) ∧
    statusErr (exec (.uv88 ⟨1, 1, 3, 4⟩) State.reset) = (3, 3) ∧
    statusErr (exec (.dxt1 ⟨4, 4, 16, 64⟩) State.reset) = (3, 3) ∧
    statusErr (exec (.dxt1 ⟨8, 4, 8, 128⟩) State.reset) = (3, 3) := by decide

/-- B6, required lengths of an 8 by 8 image, by code. -/
theorem test_required_lengths :
    [0, 1, 2, 3, 6, 7, 8].map (requiredSrcLen · 8 8) = List.replicate 7 256 ∧
    [4, 5, 18, 19].map (requiredSrcLen · 8 8) = List.replicate 4 192 ∧
    [9, 10, 11, 12, 13, 15, 17].map (requiredSrcLen · 8 8) = List.replicate 7 128 ∧
    [14, 16].map (requiredSrcLen · 8 8) = [64, 64] ∧ [20, 21].map (requiredSrcLen · 8 8) = [32, 32] := by decide

/-! ### START and ACK -/

/-- C1's registers. -/
def c1 : Cmd := ⟨9, 2, 1, 4, 8⟩

/-- A unit in this STATUS with these registers written. -/
def unit (st : UnitState) (c : Cmd) : State :=
  { State.reset with cmd := c, written := ⟨true, true, true, true, true⟩, status := st }

/-- C1: START of an accepted command is BUSY with ERR 0. -/
theorem test_start_accepts : statusErr (exec .start (unit .done c1)) = (1, 0) := by decide
/-- C3: START of `P8` is ERROR in the same step, INFO 22, CODE 1. -/
theorem test_start_traps : statusErr (exec .start (unit .idle ⟨22, 2, 2, 4, 16⟩)) = (3, 0x1601) := by decide
/-- C2: ACK gives IDLE with ERR 0. -/
theorem test_ack : statusErr (exec .ack (unit .done c1)) = (0, 0) := by decide
/-- C5: a BUSY unit ignores ACK. -/
theorem test_ack_while_busy : statusErr (exec .ack (unit .busy c1)) = (1, 0) := by decide

/-- C3: ACK and START in one write of CTRL are ACK first, then START: BUSY, ERR 0. -/
theorem test_ctrl_write_both :
    statusErr (step { unit .error ⟨12, 2, 2, 8, 16⟩ with err := ⟨.bufferSizeMismatch, 0⟩, bus := [.write 5 3] })
      = (1, 0) := by decide
/-- C5: a write of WIDTH while BUSY is ignored. -/
theorem test_busy_write_ignored :
    (nextState? (step { unit .busy c1 with bus := [.write 1 1] })).map (·.cmd.width) = some 2 := by decide
/-- R12: a bit that does not exist is not written. -/
theorem test_write_drops_missing_bits :
    (nextState? (step { unit .idle c1 with bus := [.write 0 0x3FFFFFFF4] })).map (·.cmd.fmt) = some 0x14 := by decide
/-- R6, R12: with DIMW 3 WIDTH has three bits and DST_LEN eight. -/
theorem test_write_small_dimw :
    let s : State := State.resetOf ⟨3, NibbleMap.standard⟩
    (nextState? (step { s with bus := [.write 1 0xFFFF] })).map (·.cmd.width) = some 7 ∧
    (nextState? (step { s with bus := [.write 4 0xFFFF] })).map (·.cmd.dstLen) = some 255 := by decide
/-- R12: ERR's INFO is not lost in a unit whose registers are narrower than bit 12. -/
theorem test_read_err_small_dimw :
    (nextState? (step { State.resetOf ⟨3, NibbleMap.standard⟩ with
      err := ⟨.unsupportedFormat, 22⟩, status := .error, bus := [.read 7] })).map (·.readData) = some 0x1601 := by decide
/-- R40: an offset of more than LENW bits does not exist. -/
theorem test_no_offset_past_lenw :
    (match step { State.reset with bus := [.storeDst 17179869184 1] } with | .refused r => some r | _ => none)
      = some (.noSuchOffset 17179869184) := by decide
/-- C3: HOST reads 0x1601 from ERR. -/
theorem test_read_err :
    (nextState? (step { unit .error c1 with err := ⟨.unsupportedFormat, 22⟩, bus := [.read 7] })).map (·.readData)
      = some 0x1601 := by decide
/-- U17: register 8 does not exist. -/
theorem test_no_register_8 :
    (match step { State.reset with bus := [.read 8] } with | .refused r => some r | _ => none)
      = some (.noSuchRegister 8) := by decide

/-! ### The sequencer (C4) -/

/-- C4, first command: in block 0 the position SUB 5 is raster index 9. -/
theorem test_block_raster : blockRaster 8 0 (subX 5) (subY 5) = 9 ∧ blockRaster 8 1 (subX 15) (subY 15) = 31 ∧
    blockRaster 4 1 (subX 0) (subY 0) = 16 := by decide
/-- R18: after SUB 15 the next block. -/
theorem test_sub_wraps :
    (nextState? (step { unit .busy ⟨21, 8, 4, 16, 128⟩ with sub := 15 })).map (fun t => (t.seq, t.sub, t.status))
      = some (1, 0, .busy) := by decide
/-- R208: the last pixel sets DONE. -/
theorem test_last_turn_done :
    (nextState? (step { unit .busy c1 with seq := 1 })).map (·.status) = some .done := by decide

/-! ### Primitives (B1) -/

theorem test_decomp565 : decomp565 0x34 0x12 = (160, 68, 16) ∧ decomp565 0xE0 0x00 = (0, 0x1C, 0) ∧
    decomp565 0x00 0x07 = (0, 0xE0, 0) := by decide
theorem test_expand565 : expand565 0xEF 0xBE = (123, 223, 189) ∧ expand565 0xFF 0x00 = (255, 28, 0) := by decide
theorem test_upsample : up5 0x18 = 24 ∧ up5 0x20 = 33 ∧ up6 0x3C = 60 ∧ up6 0x40 = 65 := by decide

/-! ### Witnesses: for each statement with hypotheses, a state and operands that meet all of them together -/

open Sys2Proof.Claims

/-- The bits of a command in the default unit. -/
def cmdWord (c : Cmd) : Nat := c.pack std

/-- C1's command while it runs: it meets the invariant. -/
def running (bus : List HostMove) : State := { unit .busy c1 with src := load [0x1F, 0, 0x34, 0x12] 0 [], bus := bus }

/-- C4's first command at a position of its first block. -/
def runningBlock (sub : BitVec 4) : State := { unit .busy ⟨21, 8, 4, 16, 128⟩ with sub := sub }

/-- The invariant of a state of the default unit without an error, with this SRC and an empty DST. -/
theorem inv_of {s : State} (m : Memory) (hm : m.wf ∧ m.inSpace std) (hp : s.params = std)
    (hw : s.cmd.fits std ∧ s.seq < 2 ^ 32) (hs : s.src = m) (hd : s.dst = [])
    (he : s.err = ⟨.none, 0⟩) (hne : s.status ≠ .error) (hb : s.status = .busy → s.busyOk) (hc : s.ctrl = 0)
    (ht : s.tainted = true → s.status = .busy) : Inv s where
  legal := by rw [hp]; decide
  widths := by rw [State.widthsOk, hp]; exact hw
  mem := by
    rw [State.memOk, hs, hd, hp]
    exact ⟨hm.1, ⟨List.Pairwise.nil, fun _ h => nomatch h⟩, hm.2, fun _ h => nomatch h⟩
  err := by rw [State.errAgrees, he]; exact ⟨⟨fun h => absurd h hne, fun h => absurd rfl h⟩, rfl⟩
  busy := hb
  pulses := hc
  tainted := ht

theorem busyOk_linear {s : State} {d : Datapath} (hv : validate s.cmd = none)
    (hl : loaderOf s.params.nibbles s.cmd.fmt = some d) (hseq : s.seq < d.bound s.cmd) (hsub : s.sub = 0) :
    s.busyOk := by
  refine ⟨hv, ?_⟩
  rw [hl]
  exact ⟨hseq, by cases d <;> first | exact hsub | trivial⟩

/-- C1's command running, at its first or second pixel. -/
theorem inv_running (bus : List HostMove) (tainted : Bool) {n : Nat} (hn : n < 2) :
    Inv { running bus with tainted := tainted, seq := n } :=
  inv_of (load [0x1F, 0, 0x34, 0x12] 0 []) (by decide) rfl ⟨show c1.fits std by decide, show n < 2 ^ 32 by omega⟩
    rfl rfl rfl (fun h => nomatch h)
    (fun _ => busyOk_linear (d := pathRgb565) (show validate c1 = none by decide) rfl
      (show n < pathRgb565.bound c1 from hn) rfl) rfl (fun _ => rfl)

theorem inv_runningBlock (sub : BitVec 4) : Inv (runningBlock sub) :=
  inv_of [] (by decide) rfl ⟨show Cmd.fits std ⟨21, 8, 4, 16, 128⟩ by decide, show (0 : Nat) < 2 ^ 32 by decide⟩
    rfl rfl rfl (fun h => nomatch h)
    (fun _ => ⟨show validate ⟨21, 8, 4, 16, 128⟩ = none by decide, by
      rw [show loaderOf (runningBlock sub).params.nibbles (runningBlock sub).cmd.fmt = some pathDxt1OneBitAlpha from rfl]
      exact ⟨show (0 : Nat) < pathDxt1OneBitAlpha.bound ⟨21, 8, 4, 16, 128⟩ by decide, trivial⟩⟩) rfl
    (fun h => nomatch h)

theorem inv_done (bus : List HostMove) : Inv { unit .done c1 with bus := bus } :=
  inv_of [] (by decide) rfl ⟨show c1.fits std by decide, show (0 : Nat) < 2 ^ 32 by decide⟩ rfl rfl rfl
    (fun h => nomatch h) (fun h => nomatch h) rfl (fun h => nomatch h)

theorem test_witness_DecodeOfEncode :
    (Instr.dxt1 ⟨0, 65535, 0, 17179869183⟩).wellFormed std = true ∧ Instr.start.wellFormed std = true ∧
      (Instr.dxt1 ⟨7, 7, 255, 255⟩).wellFormed ⟨3, NibbleMap.standard⟩ = true := by decide

theorem test_witness_EncodeOfDecode :
    decode std (.cmd (2 ^ 105 - 1)) = .ok (.unassigned31 ⟨65535, 65535, 17179869183, 17179869183⟩) ∧
      decode std (.cmd (2 ^ 105)) = .ok (.rgba8888 ⟨0, 0, 0, 0⟩) ∧ decode std (.ctrl 2) = .ok .ack := by decide

theorem test_witness_StepRunsDecodedInstruction :
    (∃ s : State, s.ctrl = 0 ∧ s.bus = .command (cmdWord c1) :: [.wait] ∧
      decode s.params (.cmd (cmdWord c1)) = .ok (.rgb565 ⟨2, 1, 4, 8⟩)) ∧
    (∃ s : State, decode s.params (.ctrl s.ctrl) = .ok .start) ∧
    (∃ s : State, decode s.params (.ctrl s.ctrl) = .ok .ack) ∧ State.reset.params = Params.standard ∧
    decodeTableWord 8 31 = some (.unassigned31 ⟨0, 0, 0, 0⟩) ∧ decodeTableWord 1 1 = some .start :=
  ⟨⟨{ unit .idle c1 with bus := .command (cmdWord c1) :: [.wait] }, rfl, rfl, by decide⟩,
    ⟨{ unit .idle c1 with ctrl := 1 }, by decide⟩, ⟨{ unit .idle c1 with ctrl := 2 }, by decide⟩, rfl, by decide,
    by decide⟩

/-- The four values of CTRL's two bits, and the read. -/
theorem test_witness_CtrlWritePulses :
    (∀ v ∈ [0, 1, 2, 3], ∃ s : State, s.ctrl = 0 ∧ s.bus = [.write 5 v]) ∧
    (0 : Nat).testBit 0 = false ∧ (1 : Nat).testBit 0 = true ∧ (2 : Nat).testBit 1 = true ∧
    (3 : Nat).testBit 0 = true ∧ ∃ s : State, s.ctrl = 0 ∧ s.bus = [.read 5] :=
  ⟨fun v _ => ⟨{ unit .error c1 with bus := [.write 5 v] }, rfl, rfl⟩, by decide, by decide, by decide, by decide,
    ⟨{ unit .idle c1 with bus := [.read 5] }, rfl, rfl⟩⟩

theorem test_witness_BusyIgnoresHost :
    (∀ n ∈ [0, 5], ∃ s : State, s.ctrl = 0 ∧ s.bus = [.write n 3] ∧ s.status = .busy) ∧
    ∀ n ∈ [0, 1, 2, 3, 4], ∃ s : State, s.ctrl = 0 ∧ s.bus = [.write n 3] ∧ s.status ≠ .busy :=
  ⟨fun n _ => ⟨running [.write n 3], rfl, rfl, rfl⟩,
    fun n _ => ⟨{ unit .done c1 with bus := [.write n 3] }, rfl, rfl, fun h => nomatch h⟩⟩

/-- Registers 0 to 7, each at a state where the clause applies, and the first number that is no register. -/
theorem test_witness_RegisterReads :
    ∀ n ∈ [0, 1, 2, 3, 4, 5, 6, 7, 8], ∃ s : State, s.ctrl = 0 ∧ s.bus = [.read n] ∧
      s.written = ⟨true, true, true, true, true⟩ :=
  fun n _ => ⟨running [.read n], rfl, rfl, rfl⟩

theorem test_witness_ReadOnlyRegisterWrites :
    ∀ n ∈ [6, 7, 8], ∃ s : State, s.ctrl = 0 ∧ s.bus = [.write n 3] :=
  fun n _ => ⟨running [.write n 3], rfl, rfl⟩

theorem test_witness_UnwrittenRegisterReadsFree :
    ∀ n ∈ [0, 1, 2, 3, 4], ∃ s : State, s.ctrl = 0 ∧ s.bus = [.read n] ∧
      s.written = ⟨false, false, false, false, false⟩ :=
  fun n _ => ⟨{ State.reset with bus := [.read n] }, rfl, rfl, rfl⟩

/-- A step of a unit with DIMW 3, and a whole command in it. -/
theorem test_witness_ParametersAreFixed :
    ∃ s t u : State, s.params = ⟨3, NibbleMap.standard⟩ ∧ step s = .next t ∧
      exec (.rgb565 ⟨2, 1, 4, 8⟩) s = .next u :=
  ⟨{ State.resetOf ⟨3, NibbleMap.standard⟩ with bus := [.reset] }, _, _, rfl, rfl, rfl⟩

/-- A write of register 4 leaves registers 0 to 3, and a write of register 3 leaves register 4. -/
theorem test_witness_CommandRegistersAreHosts :
    (∀ n ∈ [0, 1, 2, 3], ∃ s t : State, step s = .next t ∧ s.written = ⟨true, true, true, true, true⟩ ∧ ¬ touches s n) ∧
    ∃ s t : State, step s = .next t ∧ s.written.dstLen = true ∧ ¬ touches s 4 := by
  refine ⟨fun n hn => ⟨{ unit .done c1 with bus := [.write 4 3] }, _, rfl, rfl, ?_⟩,
    { unit .done c1 with bus := [.write 3 3] }, _, rfl, rfl, ?_⟩
  · fin_cases hn <;> simp [touches, nextHostMove, unit, State.reset, State.resetOf]
  · simp [touches, nextHostMove, unit, State.reset, State.resetOf]

/-- One step of each clause: START accepted, START refused, the last pixel, ACK, RESET, a whole command. -/
theorem test_witness_StatusTransitions :
    ∀ s ∈ [{ unit .idle c1 with bus := [.write 5 1] }, { unit .done ⟨22, 0, 0, 0, 0⟩ with ctrl := 1 },
        { running [] with seq := 1 }, { unit .error c1 with bus := [.write 5 2] },
        { running [.reset] with cmd := ⟨9, 2, 1, 4, 0⟩ }, { unit .idle c1 with bus := [.command (cmdWord c1)] }],
      ∃ t, step s = .next t ∧ t.status ≠ s.status := by
  intro s hs
  simp only [List.mem_cons, List.not_mem_nil, or_false] at hs
  rcases hs with rfl | rfl | rfl | rfl | rfl | rfl <;> exact ⟨_, rfl, by decide⟩

/-- The last pixel of C1's command meets the invariant of that clause. -/
theorem test_witness_StatusTransitions_last :
    ∃ s t : State, Inv s ∧ s.status = .busy ∧ step s = .next t ∧ t.status = .done ∧ lastPixel s :=
  ⟨{ running [] with tainted := false, seq := 1 }, _, inv_running [] false (by decide), rfl, rfl, rfl, rfl⟩

theorem test_witness_SrcIsReadOnlyToDec :
    ∃ s t : State, step s = .next t ∧ nextHostMove s = some (.storeSrc 3 7) ∧ (0 : Nat) ≠ 3 :=
  ⟨running [.storeSrc 3 7], _, rfl, rfl, by decide⟩

/-- The last offset, outside BUSY; BUSY loads of SRC and accesses at and past the declared lengths; and the first
offset that does not exist. -/
theorem test_witness_HostMemoryAccess :
    (∀ m ∈ [HostMove.storeSrc 17179869183 7, .storeDst 17179869183 7, .loadSrc 0, .loadDst 0],
      ∃ s : State, s.ctrl = 0 ∧ s.status ≠ .busy ∧ s.src.wf ∧ s.dst.wf ∧ s.bus = [m]) ∧
    (∀ m ∈ [HostMove.storeSrc 3 7, .storeSrc 4 7, .storeDst 7 7, .storeDst 8 7, .loadSrc 3, .loadDst 8],
      ∃ s : State, s.ctrl = 0 ∧ s.status = .busy ∧ s.src.wf ∧ s.dst.wf ∧ s.cmd.srcLen = 4 ∧ s.cmd.dstLen = 8 ∧
        s.bus = [m]) ∧
    (17179869183 : Nat) < 2 ^ std.lenw ∧ 2 ^ std.lenw ≤ 17179869184 ∧
    ∃ s : State, s.params = std ∧ s.ctrl = 0 ∧ s.bus = [.loadDst 17179869184] ∧
      accesses (.loadDst 17179869184) 17179869184 :=
  ⟨fun m _ => ⟨{ unit .done c1 with bus := [m] }, rfl, fun h => (nomatch h), by show Memory.wf []; decide,
      by show Memory.wf []; decide, rfl⟩,
    fun m _ => ⟨running [m], rfl, rfl, by show Memory.wf (load [0x1F, 0, 0x34, 0x12] 0 []); decide,
      by show Memory.wf []; decide, rfl, rfl, rfl⟩,
    by decide, by decide, { unit .done c1 with bus := [.loadDst 17179869184] }, rfl, rfl, rfl,
    .inr (.inr (.inr rfl))⟩

theorem test_witness_BusyDstReadIsFree :
    ∃ s : State, s.ctrl = 0 ∧ s.status = .busy ∧ 7 < 2 ^ s.params.lenw ∧ 7 < s.cmd.dstLen ∧ s.bus = [.loadDst 7] :=
  ⟨running [.loadDst 7], rfl, rfl, by decide, by decide, rfl⟩

theorem test_witness_HostStoreWhileBusySpoilsDst :
    (∃ s t : State, s.ctrl = 0 ∧ s.status = .busy ∧ step s = .next t ∧ s.bus = [.storeSrc 3 7] ∧ 3 < s.cmd.srcLen) ∧
    (∃ s t : State, s.ctrl = 0 ∧ s.status = .busy ∧ step s = .next t ∧ s.bus = [.storeDst 7 7] ∧ 7 < s.cmd.dstLen) ∧
    ∀ n ∈ [0, 1], ∃ s t : State, Inv s ∧ s.status = .busy ∧ s.tainted = true ∧ decMoves s ∧ s.seq = n ∧
      step s = .next t :=
  ⟨⟨running [.storeSrc 3 7], _, rfl, rfl, rfl, rfl, by decide⟩,
    ⟨running [.storeDst 7 7], _, rfl, rfl, rfl, rfl, by decide⟩,
    fun n hn => ⟨{ running [] with tainted := true, seq := n }, _,
      inv_running [] true (by fin_cases hn <;> decide), rfl, rfl, ⟨rfl, .inl rfl⟩, rfl, rfl⟩⟩

theorem test_witness_HostReset : ∃ s : State, s.ctrl = 0 ∧ s.bus = [.reset] ∧ s.status ≠ .busy :=
  ⟨{ unit .error c1 with bus := [.reset] }, rfl, rfl, by decide⟩

theorem test_witness_HostResetWhileBusy :
    ∃ s : State, s.ctrl = 0 ∧ s.bus = [.reset] ∧ s.status = .busy ∧ s.dst.wf :=
  ⟨running [.reset], rfl, rfl, rfl, by decide⟩

theorem test_witness_InvAtReset :
    (⟨3, ⟨2, 1, 0, 3⟩⟩ : Params).legal ∧ ¬ (⟨2, NibbleMap.standard⟩ : Params).legal ∧
      ¬ (⟨16, ⟨0, 0, 2, 3⟩⟩ : Params).legal := by decide

theorem test_witness_StepKeepsInv :
    (∃ s t : State, Inv s ∧ step s = .next t ∧ s.status = .busy) ∧
    ∃ s t : State, Inv s ∧ step s = .next t ∧ s.bus = [.command (cmdWord c1)] :=
  ⟨⟨{ running [] with tainted := false, seq := 0 }, _, inv_running [] false (by decide), rfl, rfl⟩,
    ⟨{ unit .done c1 with bus := [.command (cmdWord c1)] }, _, inv_done _, rfl, rfl⟩⟩

theorem test_witness_StepsGoOn :
    (∃ s : State, Inv s ∧ s.bus = [.write 8 0]) ∧ ∃ s : State, Inv s ∧ s.bus = [.loadSrc 17179869184] :=
  ⟨⟨{ unit .done c1 with bus := [.write 8 0] }, inv_done _, rfl⟩,
    ⟨{ unit .done c1 with bus := [.loadSrc 17179869184] }, inv_done _, rfl⟩⟩

/-- The hypotheses of every statement about a linear format, for each number of bytes a pixel: the smallest
image and the largest. -/
theorem test_witness_LinearDecodes :
    ∀ bpp ∈ [1, 2, 3, 4], ∀ n ∈ [1, 65535], ∃ (a : CmdArgs) (s : State),
      s.status ≠ .busy ∧ s.dst.wf ∧ ValidLinear s.params bpp a ∧ a.width = n := by
  intro bpp hb n hn
  refine ⟨⟨n, n, n * n * bpp, n * n * 4⟩, unit .done c1, by decide, by decide, ?_, rfl⟩
  fin_cases hb <;> fin_cases hn <;> exact ⟨by decide, by decide, rfl, rfl⟩

/-- The hypotheses of every statement about a DXT1 format: one block, and the largest image. -/
theorem test_witness_BlockDecodes :
    ∀ n ∈ [4, 65532], ∃ (a : CmdArgs) (s : State),
      s.status ≠ .busy ∧ s.dst.wf ∧ ValidBlock s.params a ∧ a.width = n := by
  intro n hn
  refine ⟨⟨n, n, n / 4 * (n / 4) * 8, n * n * 4⟩, unit .done c1, by decide, by decide, ?_, rfl⟩
  fin_cases hn <;> exact ⟨by decide, by decide, rfl, rfl⟩

/-- The default NIBBLE_MAP is that of the state after reset. -/
theorem test_witness_Bgra4444Decodes :
    ∃ s : State, s.status ≠ .busy ∧ s.dst.wf ∧ ValidLinear s.params 2 ⟨2, 1, 4, 8⟩ ∧
      s.params.nibbles = ⟨0, 1, 2, 3⟩ :=
  ⟨unit .done c1, by decide, by decide, ⟨by decide, by decide, rfl, rfl⟩, rfl⟩

theorem test_witness_FormatsWithoutLoaderAreRefused : (unit .done c1).status ≠ .busy := by decide

theorem test_witness_StartAccepts :
    ∀ st ∈ [UnitState.idle, .done, .error], (unit st c1).status ≠ .busy ∧
      (unit st c1).written = ⟨true, true, true, true, true⟩ ∧ firstError (unit st c1).cmd = none := by decide

/-- Each check fails in turn, and code 22 with every other check failing as well. -/
theorem test_witness_StartTraps :
    (unit .done c1).status ≠ .busy ∧
    [⟨22, 0, 0, 5, 7⟩, ⟨31, 1, 1, 4, 4⟩, ⟨9, 0, 4, 0, 0⟩, ⟨20, 6, 4, 16, 96⟩, ⟨9, 2, 1, 4, 7⟩, ⟨9, 2, 1, 5, 8⟩].map firstError
      = [some (1, 22), some (1, 31), some (2, 0), some (2, 0), some (3, 0), some (3, 0)] := by decide

theorem test_witness_StartSamplesFreeValues :
    ∀ w ∈ [(⟨false, true, true, true, true⟩ : Written), ⟨true, true, true, true, false⟩],
      ({ unit .done c1 with written := w } : State).status ≠ .busy ∧ w ≠ ⟨true, true, true, true, true⟩ := by decide

theorem test_witness_AckAcknowledges :
    (unit .done c1).status = .done ∧ (unit .error c1).status = .error ∧ (unit .idle c1).status = .idle ∧
      (running []).status = .busy := by decide

theorem test_witness_BusyIgnoresCommands :
    (running []).status = .busy ∧ encode std (.dxt1 ⟨4, 4, 8, 64⟩) = .cmd (cmdWord ⟨20, 4, 4, 8, 64⟩) ∧
      encode std (.p8 ⟨0, 0, 0, 0⟩) = .cmd 22 := by decide

/-- One command for each error: a bad dimension, a bad length, a format without a loader. -/
theorem test_witness_InvalidCommandTraps :
    (unit .done c1).status ≠ .busy ∧
    [(Instr.dxt1 ⟨2, 2, 8, 16⟩, (⟨20, 2, 2, 8, 16⟩ : Cmd)), (.rgb565 ⟨2, 1, 4, 7⟩, ⟨9, 2, 1, 4, 7⟩),
        (.dxt3 ⟨4, 4, 16, 64⟩, ⟨23, 4, 4, 16, 64⟩)].map
      (fun x => (decide (encode std x.1 = .cmd (cmdWord x.2)), firstError (Cmd.unpack std (cmdWord x.2)))) =
      [(true, some (2, 0)), (true, some (3, 0)), (true, some (1, 23))] := by decide

theorem test_witness_NoPartialWrites :
    ∃ s t : State, s.status ≠ .busy ∧ exec (.rgb565 ⟨2, 1, 4, 7⟩) s = .next t ∧ t.status = .error :=
  ⟨unit .done c1, _, by decide, rfl, by decide⟩

theorem test_witness_CommandsAreTotal :
    encode std (.rgb565 ⟨2, 1, 4, 8⟩) = .cmd (cmdWord c1) ∧ (unit .done c1).status ≠ .busy ∧
      firstError (Cmd.unpack std (cmdWord c1)) = none := by decide

theorem test_witness_LinearTurn :
    ∀ n ∈ [0, 1], ∃ s : State, Inv s ∧ s.status = .busy ∧ s.tainted = false ∧ s.bus = [] ∧ s.cmd.fmt.toNat < 20 ∧
      s.seq = n :=
  fun n hn => ⟨{ running [] with tainted := false, seq := n }, inv_running [] false (by fin_cases hn <;> decide),
    rfl, rfl, rfl, by show (9#5).toNat < 20; decide, rfl⟩

/-- Inside a block and at its last pixel. -/
theorem test_witness_BlockTurn :
    ∀ sub ∈ [(0 : BitVec 4), 15], ∃ s : State, Inv s ∧ s.status = .busy ∧ s.tainted = false ∧ s.bus = [] ∧
      20 ≤ s.cmd.fmt.toNat ∧ s.sub = sub :=
  fun sub _ => ⟨runningBlock sub, inv_runningBlock sub, rfl, rfl, rfl, by show 20 ≤ (21#5).toNat; decide, rfl⟩

/-- The three linear formats that have a predicate; DXT1 is `test_witness_BlockTurn`. -/
theorem test_witness_PredicatesOfATurn :
    ∀ c ∈ [(⟨12, 1, 1, 2, 4⟩ : Cmd), ⟨18, 1, 1, 3, 4⟩, ⟨19, 1, 1, 3, 4⟩],
      ∃ s : State, Inv s ∧ s.status = .busy ∧ s.bus = [] ∧ s.cmd = c := by
  have inv : ∀ (c : Cmd) (d : Datapath), validate c = none → loaderOf std.nibbles c.fmt = some d → 0 < d.bound c →
      c.fits std → Inv (unit .busy c) := fun c d hv hl hb hf =>
    inv_of [] (by decide) rfl ⟨hf, show (0 : Nat) < 2 ^ 32 by decide⟩ rfl rfl rfl (fun h => nomatch h)
      (fun _ => busyOk_linear hv hl hb rfl) rfl (fun _ => rfl)
  intro c hc
  simp only [List.mem_cons, List.not_mem_nil, or_false] at hc
  refine ⟨unit .busy c, ?_, rfl, rfl, rfl⟩
  rcases hc with rfl | rfl | rfl
  · exact inv _ pathBgra5551 (by decide) rfl (by decide) (by decide)
  · exact inv _ pathRgb888Bluescreen (by decide) rfl (by decide) (by decide)
  · exact inv _ pathBgr888Bluescreen (by decide) rfl (by decide) (by decide)

theorem test_witness_DecIdlesOutsideBusy : ∃ s : State, s.ctrl = 0 ∧ s.bus = [] ∧ s.status ≠ .busy :=
  ⟨unit .done c1, rfl, rfl, by decide⟩

theorem test_witness_DecStaysInBounds :
    ∀ tainted, ∃ s t : State, Inv s ∧ decMoves s ∧ step s = .next t ∧ s.status = .busy ∧ s.tainted = tainted ∧
      s.cmd.dstLen ≤ 8 :=
  fun tainted => ⟨{ running [.wait] with tainted := tainted, seq := 1 }, _, inv_running _ _ (by decide),
    ⟨rfl, .inr rfl⟩, rfl, rfl, rfl, Nat.le_refl 8⟩

theorem test_witness_AcceptedCommandCompletes : ∃ s : State, Inv s ∧ s.status = .busy ∧ s.bus = [] :=
  ⟨{ running [] with tainted := false, seq := 0 }, inv_running [] false (by decide), rfl, rfl⟩

/-- C1's program, and its registers written in the opposite order with WIDTH written twice. -/
theorem test_witness_SequenceRefinesCommand :
    ∀ ws ∈ [[HostMove.write 0 9, .write 1 2, .write 2 1, .write 3 4, .write 4 8],
        [.write 4 8, .write 3 4, .write 2 1, .write 1 2, .write 0 9, .write 1 2]],
      ∃ s : State, s.ctrl = 0 ∧ s.status ≠ .busy ∧ (∀ m, m ∈ ws ↔ m ∈ registerWrites c1) ∧
        s.bus = ws ++ [.write 5 1] ∧ c1.width * c1.height ≤ 2 := by
  intro ws hws
  refine ⟨{ State.reset with bus := ws ++ [.write 5 1] }, rfl, fun h => (nomatch h), ?_, rfl, by decide⟩
  have h : registerWrites c1 = [.write 0 9, .write 1 2, .write 2 1, .write 3 4, .write 4 8] := by decide
  rw [h]
  fin_cases hws
  · exact fun m => Iff.rfl
  · intro m
    simp only [List.mem_cons, List.not_mem_nil, or_false]
    tauto

theorem test_witness_ImageDependsOnSourceOnly :
    ∃ s s' t t' : State, s'.params = s.params ∧ encode s.params (.rgb565 ⟨2, 1, 4, 8⟩) = .cmd (cmdWord c1) ∧
      firstError (Cmd.unpack s.params (cmdWord c1)) = none ∧ s.status ≠ .busy ∧ s'.status ≠ .busy ∧ s.dst.wf ∧
      s'.dst.wf ∧ (∀ o < (Cmd.unpack s.params (cmdWord c1)).srcLen, s.src.read o = s'.src.read o) ∧
      exec (.rgb565 ⟨2, 1, 4, 8⟩) s = .next t ∧ exec (.rgb565 ⟨2, 1, 4, 8⟩) s' = .next t' ∧ s ≠ s' :=
  ⟨{ unit .done c1 with src := [(3, 7)] }, { unit .error c1 with src := [(3, 7), (4, 9)], dst := [(2, 0xAA)] },
    _, _, rfl, by decide, by decide, by decide, by decide, by decide, by decide, by decide, rfl, rfl, by decide⟩

/-- A 256 by 255 image, the largest product of two equal or nearly equal sides that fits WIDTH. -/
theorem test_witness_LinearSeesOnlyTheProduct :
    ∃ s t t' : State, (14 : BitVec Config.fmtw).toNat < 20 ∧ 256 * 255 < 2 ^ s.params.dimw ∧ s.status ≠ .busy ∧
      s.dst.wf ∧ srcLenOf 14 256 255 = 65280 ∧ 256 * 255 * 4 = 261120 ∧
      exec (decodeCmd (registers s.params 14 ⟨256, 255, 65280, 261120⟩)) s = .next t ∧
      exec (decodeCmd (registers s.params 14 ⟨65280, 1, 65280, 261120⟩)) s = .next t' := by
  obtain ⟨t, ht⟩ := exec_next (decodeCmd (registers std 14 ⟨256, 255, 65280, 261120⟩)) (unit .done c1)
  obtain ⟨t', ht'⟩ := exec_next (decodeCmd (registers std 14 ⟨65280, 1, 65280, 261120⟩)) (unit .done c1)
  exact ⟨unit .done c1, t, t', by decide, by decide, by decide, by decide, rfl, rfl, ht, ht'⟩

theorem test_witness_Bgr565SwapsRedAndBlue :
    ∃ s t u : State, s.status ≠ .busy ∧ s.dst.wf ∧ ValidLinear s.params 2 ⟨2, 1, 4, 8⟩ ∧
      exec (.rgb565 ⟨2, 1, 4, 8⟩) s = .next t ∧ exec (.bgr565 ⟨2, 1, 4, 8⟩) s = .next u :=
  ⟨withSrc [0x1F, 0, 0x34, 0x12], _, _, by decide, by decide, ⟨by decide, by decide, rfl, rfl⟩, rfl, rfl⟩

/-- B5, t3: its pixel 3 is transparent in the one-bit-alpha variant, its pixel 0 is not. -/
theorem test_witness_OneBitAlphaDiffersOnlyInSentinel :
    ∃ s t u : State, s.status ≠ .busy ∧ s.dst.wf ∧ ValidBlock s.params ⟨4, 4, 8, 64⟩ ∧
      exec (.dxt1 ⟨4, 4, 8, 64⟩) s = .next t ∧ exec (.dxt1OneBitAlpha ⟨4, 4, 8, 64⟩) s = .next u ∧
      indexOf s.src 4 3 = 3 ∧ word s.src 0 ≤ word s.src 2 ∧ indexOf s.src 4 0 = 0 :=
  ⟨withSrc [0x34, 0x12, 0x34, 0x12, 0x1B, 0xE4, 0x00, 0xFF], _, _, by decide, by decide,
    ⟨by decide, by decide, rfl, rfl⟩, rfl, rfl, by decide, by decide, by decide⟩

/-- B5, t4, in 4-colour mode, and t3, whose equal endpoints are 3-colour mode. -/
theorem test_witness_DerivedColoursLieBetween :
    (blockStages false ⟨0xEF, 0xBE, 0x34, 0x12, 0, 0, 0, 0⟩ Work.reset).raw0.toNat >
      (blockStages false ⟨0xEF, 0xBE, 0x34, 0x12, 0, 0, 0, 0⟩ Work.reset).raw1.toNat ∧
    (blockStages true ⟨0x34, 0x12, 0x34, 0x12, 0, 0, 0, 0⟩ Work.reset).raw0.toNat ≤
      (blockStages true ⟨0x34, 0x12, 0x34, 0x12, 0, 0, 0, 0⟩ Work.reset).raw1.toNat := by decide

end Sys2Proof.Tests
end

section
/-! The scope's statements (00_scope.md R6): every step keeps the invariant, and no step or instruction changes the
parameters. -/

namespace Sys2Proof.Machine

/-! ### The invariant, step by step -/

/-- Under the invariant no pulse is pending, so a step is DEC's turn or a move of HOST. -/
theorem step_inv {s t : State} (h : Inv s) (e : step s = .next t) : Inv t := by
  rcases step_cases e with ⟨hc, -⟩ | ⟨-, -, hdec⟩ | ⟨-, m, rest, -, hmove⟩
  · exact absurd h.pulses hc
  · exact decTurn_inv h hdec
  · have hrest : Inv { s with bus := rest } := h.of_same rfl rfl rfl rfl rfl rfl rfl rfl rfl rfl
    exact hostMove_inv hrest hmove

/-! ### The parameters, operation by operation -/

/-- A run of turns keeps the frame of a single one. -/
theorem Datapath.run_frame (d : Datapath) (n : Nat) (s : State) : RunFrame s (d.run n s) := by
  induction n generalizing s with
  | zero => exact RunFrame.rfl' s
  | succ n ih => exact (d.turn_frame s).trans' (ih _)

@[simp] theorem State.startCommand_params (s : State) : s.startCommand.params = s.params := by
  rw [State.startCommand_eq]
  cases validate s.sample.cmd with
  | some e => simp
  | none => simp

@[simp] theorem State.start_params (s : State) : s.start.params = s.params := by
  unfold State.start
  split
  · rfl
  · exact s.startCommand_params

@[simp] theorem State.runCommand_params (s : State) (f : BitVec Config.fmtw) (d : Datapath) (a : CmdArgs) :
    (s.runCommand f d a).params = s.params := by
  have hstart : (s.writeCmd (a.toCmd s.params f)).startCommand.params = s.params :=
    State.startCommand_params _
  simp only [State.runCommand]
  split
  · rfl
  · split
    · exact (d.run_frame _ _).params.trans hstart
    · exact hstart

@[simp] theorem State.refuseCommand_params (s : State) (f : BitVec Config.fmtw) (a : CmdArgs) :
    (s.refuseCommand f a).params = s.params := by
  unfold State.refuseCommand
  split
  · rfl
  · exact State.startCommand_params _

/-- No instruction changes the parameters. -/
theorem exec_params {i : Instr} {s t : State} (e : exec i s = .next t) : t.params = s.params := by
  rcases instr_shape s.params i with ⟨f, d, a, -, -, -, hm⟩ | ⟨f, a, -, -, -, hm⟩ | rfl | rfl
  · rw [hm s rfl] at e; cases e; simp
  · rw [hm s rfl] at e; cases e; simp
  · cases e; simp
  · cases e; simp

theorem decTurn_params {s t : State} (e : decTurn s = .next t) : t.params = s.params := by
  unfold decTurn at e
  split at e
  · split at e
    · next d _ => cases e; exact (d.turn_frame s).params
    · cases e
  · cases e; rfl

theorem servePulses_params {s t : State} (e : servePulses s = .next t) : t.params = s.params := by
  rcases servePulses_cases s with ⟨-, he⟩ | ⟨-, he⟩ | ⟨-, he⟩ | ⟨-, he⟩ <;>
    (rw [he] at e; cases e; simp)

theorem hostWrite_params {r : Reg} {v : Nat} {s t : State} (e : hostWrite r v s = .next t) :
    t.params = s.params := by
  cases r with
  | ctrl => exact servePulses_params (s := s.setCtrl (s.ctrl ||| BitVec.ofNat 2 v)) e
  | _ => cases e; simp

theorem hostLoadDst_params {off : Nat} {s t : State} (e : hostLoadDst off s = .next t) :
    t.params = s.params := by
  unfold hostLoadDst at e
  split at e <;> (cases e; rfl)

/-- No move of HOST changes the parameters. -/
theorem hostMove_params {m : HostMove} {s t : State} (e : hostMove m s = .next t) : t.params = s.params := by
  cases m with
  | write n v =>
    simp only [hostMove] at e
    split at e
    · exact hostWrite_params e
    · cases e
  | read n =>
    simp only [hostMove] at e
    split at e
    · cases e; rfl
    · cases e
  | storeSrc off v => obtain ⟨-, e⟩ := atOffset_next e; cases e; rfl
  | loadSrc off => obtain ⟨-, e⟩ := atOffset_next e; cases e; rfl
  | storeDst off v => obtain ⟨-, e⟩ := atOffset_next e; cases e; rfl
  | loadDst off => exact hostLoadDst_params (atOffset_next e).2
  | command w => exact exec_params (i := decodeCmd (Cmd.unpack s.params w)) e
  | reset => cases e; rfl
  | wait => exact decTurn_params e

/-- No step changes the parameters, in any state. -/
theorem step_params {s t : State} (e : step s = .next t) : t.params = s.params := by
  rcases step_cases e with ⟨-, hpulse⟩ | ⟨-, -, hdec⟩ | ⟨-, m, rest, -, hmove⟩
  · exact servePulses_params hpulse
  · exact decTurn_params hdec
  · exact hostMove_params (s := { s with bus := rest }) hmove

/-! ### The obligations -/

/-- Settles O20: the pulses' case is empty, DEC's turn and each move of HOST keep the invariant. -/
theorem stepKeepsInv : Obligations.StepKeepsInv := fun _ _ => step_inv

/-- Settles O60: no operation that a step or an instruction is made of writes the parameters. -/
theorem parametersAreFixed : Obligations.ParametersAreFixed :=
  ⟨fun _ _ => step_params, fun _ _ _ => exec_params⟩

end Sys2Proof.Machine
end

section
/-! The image in the spec's formulas: what each loader of the dispatch table yields for a pixel is the pixel that
the rules of 41_byte_lane.md to 45_dxt1.md write out (`pixelOf`). -/

namespace Sys2Proof.Machine

open Sys2Proof.Claims

/-! ### Pixels as lists of bytes -/

/-- The four bytes of a pixel in the order of 20_memory.md R44. -/
def Pixel.bytes (px : Pixel) : List Byte := [px.r, px.g, px.b, px.a]

theorem bytesAt_eq (m : Memory) (p : Nat) : bytesAt m p = (m.pixel p).bytes := rfl

theorem eq_u8 {b : Byte} {n : Nat} (h : b.toNat = n) : b = u8 n := by
  simp [u8, ← h]

/-! ### The loaders of the packed formats, over the little-endian word (20_memory.md R48) -/

theorem expand565_word (m : Memory) (o : Nat) :
    (expand565 (m.read o) (m.read (o + 1))).1 = u8 (wide5 (word m o % 32)) ∧
      (expand565 (m.read o) (m.read (o + 1))).2.1 = u8 (wide6 (word m o / 32 % 64)) ∧
      (expand565 (m.read o) (m.read (o + 1))).2.2 = u8 (wide5 (word m o / 2048)) :=
  ⟨eq_u8 (expand565_e0 _ _), eq_u8 (expand565_e1 _ _), eq_u8 (expand565_e2 _ _)⟩

theorem field5551_word (m : Memory) (o : Nat) :
    up5 (field5551P0 (m.read o)) = u8 (wide5 (word m o % 32)) ∧
      up5 (field5551P1 (m.read o) (m.read (o + 1))) = u8 (wide5 (word m o / 32 % 32)) ∧
      up5 (field5551P2 (m.read (o + 1))) = u8 (wide5 (word m o / 1024 % 32)) :=
  ⟨eq_u8 (up5_toNat (field5551P0_toNat _ _)), eq_u8 (up5_toNat (field5551P1_toNat _ _)),
    eq_u8 (up5_toNat (field5551P2_toNat _ _))⟩

/-- ABIT is the top bit of the word (42_packed_bit.md R134). -/
theorem abit_iff_word (m : Memory) (o : Nat) : abit (m.read (o + 1)) = true ↔ word m o / 32768 = 1 := by
  have hbit : ∀ b : Byte, abit b = true ↔ b.toNat / 128 = 1 := by decide
  have hlow := byte_lt (m.read o)
  rw [hbit, word]
  omega

theorem sel1_abit_word (m : Memory) (o : Nat) :
    sel1 (abit (m.read (o + 1))) = if word m o / 32768 = 1 then 255 else 0 := by
  simp only [sel1, abit_iff_word m o]; rfl

theorem rep4_nibble_word (m : Memory) (o : Nat) (n : Fin 4) :
    rep4 (nibble (m.read o) (m.read (o + 1)) n) = u8 (17 * (word m o / 16 ^ n.val % 16)) :=
  eq_u8 (by rw [rep4_toNat, nibble_toNat, word])

theorem keyhit_iff_list (r g b : Byte) : keyhit r g b = true ↔ [r, g, b] = [0, 0, 255] := by
  simp [keyhit_iff]

theorem key_bytes (r g b : Byte) : (key r g b).pixel.bytes = keyed r g b := by
  simp only [key, keyed, keyhit_iff_list]
  split <;> rfl

/-! ### The palette of a block -/

theorem refColour_channels (a b : Byte) :
    let v := a.toNat + 256 * b.toNat
    (refColour a b).r.toNat = refChannel v 0 ∧ (refColour a b).g.toNat = refChannel v 1 ∧
      (refColour a b).b.toNat = refChannel v 2 :=
  ⟨expand565_e0 a b, expand565_e1 a b, expand565_e2 a b⟩

theorem interpolate_eq_u8 (wa wb d : Nat) {x y : Byte} {n m : Nat} (hx : x.toNat = n) (hy : y.toNat = m) :
    interpolate wa wb d x y = u8 ((wa * n + wb * m) / d) := by
  rw [interpolate, hx, hy]

/-- Each palette entry has the channels that 45_dxt1.md R174 to R178 give it. -/
theorem blockStages_palette (oba : Bool) (b : Block) (w : Work) (i : Fin 4) :
    let v0 := b.b0.toNat + 256 * b.b1.toNat
    let v1 := b.b2.toNat + 256 * b.b3.toNat
    ((blockStages oba b w).pal.entry i).bytes =
      [u8 (paletteChannel v0 v1 i 0), u8 (paletteChannel v0 v1 i 1), u8 (paletteChannel v0 v1 i 2),
        u8 (paletteAlpha oba v0 v1 i)] := by
  intro v0 v1
  obtain ⟨r0, g0, b0⟩ := refColour_channels b.b0 b.b1
  obtain ⟨r1, g1, b1⟩ := refColour_channels b.b2 b.b3
  have hm : mode4 (word16 b.b0 b.b1) (word16 b.b2 b.b3) = decide (v0 > v1) := mode4_eq _ _ _ _
  match i with
  | 0 =>
    simp [blockStages, makePalette, Palette.entry, Rgb.opaquePixel, Pixel.bytes, paletteChannel, paletteAlpha,
      eq_u8 r0, eq_u8 g0, eq_u8 b0, v0]
  | 1 =>
    simp [blockStages, makePalette, Palette.entry, Rgb.opaquePixel, Pixel.bytes, paletteChannel, paletteAlpha,
      eq_u8 r1, eq_u8 g1, eq_u8 b1, v1]
  | 2 =>
    by_cases h : v0 > v1 <;>
      simp [blockStages, makePalette, Palette.entry, mixColours, Pixel.bytes, paletteChannel, paletteAlpha, hm, h,
        interpolate_eq_u8 _ _ _ r0 r1, interpolate_eq_u8 _ _ _ g0 g1, interpolate_eq_u8 _ _ _ b0 b1, v0, v1]
  | 3 =>
    by_cases h : v0 > v1
    · simp [blockStages, makePalette, Palette.entry, mixColours, Pixel.bytes, paletteChannel, paletteAlpha, hm, h,
        interpolate_eq_u8 _ _ _ r0 r1, interpolate_eq_u8 _ _ _ g0 g1, interpolate_eq_u8 _ _ _ b0 b1, v0, v1]
    · cases oba <;>
        simp [blockStages, makePalette, Palette.entry, sentinel, Pixel.bytes, paletteChannel, paletteAlpha, hm, h]

theorem fetchBlock_indexByte (m : Memory) (k : Nat) (y : Fin 4) :
    (fetchBlock m k).indexByte y = m.read (8 * k + 4 + y) := by
  match y with
  | 0 => rfl
  | 1 => rfl
  | 2 => rfl
  | 3 => rfl

/-! ### The datapaths -/

/-- A datapath writes at raster index `p` of an image the pixel that the formula `px` gives. -/
def Datapath.Decodes (d : Datapath) (px : Nat → Memory → Nat → List Byte) : Prop :=
  ∀ (c : Cmd) (m : Memory) (p : Nat), (d.outAt m (d.posOf c p)).bytes = px c.width m p

theorem pathRgb565_decodes : pathRgb565.Decodes fun _ => pxRgb565 := by
  intro c m p
  obtain ⟨h0, h1, h2⟩ := expand565_word m (2 * p)
  simp only [pxRgb565, ← h0, ← h1, ← h2]; rfl

theorem pathBgr565_decodes : pathBgr565.Decodes fun _ => pxBgr565 := by
  intro c m p
  obtain ⟨h0, h1, h2⟩ := expand565_word m (2 * p)
  simp only [pxBgr565, ← h0, ← h1, ← h2]; rfl

theorem pathBgra4444_decodes (k : NibbleMap) : (pathBgra4444 k).Decodes fun _ => pxNibbles k := by
  intro c m p
  simp only [pxNibbles, ← rep4_nibble_word]; rfl

theorem pathBgra5551_decodes : pathBgra5551.Decodes fun _ => pxBgra5551 := by
  intro c m p
  obtain ⟨h0, h1, h2⟩ := field5551_word m (2 * p)
  simp only [pxBgra5551, ← h0, ← h1, ← h2, ← sel1_abit_word]; rfl

theorem pathBgrx5551_decodes : pathBgrx5551.Decodes fun _ => pxBgrx5551 := by
  intro c m p
  obtain ⟨h0, h1, h2⟩ := field5551_word m (2 * p)
  simp only [pxBgrx5551, ← h0, ← h1, ← h2]; rfl

theorem pathRgb888Bluescreen_decodes : pathRgb888Bluescreen.Decodes fun _ => pxRgb888Bluescreen :=
  fun _ _ _ => key_bytes _ _ _

theorem pathBgr888Bluescreen_decodes : pathBgr888Bluescreen.Decodes fun _ => pxBgr888Bluescreen :=
  fun _ _ _ => key_bytes _ _ _

/-- The block decompressor writes at raster index `p` the pixel of its block, row and column (45_dxt1.md R180). -/
theorem block_decodes (oba : Bool) : (Datapath.block oba).Decodes (pxDxt1 oba) := by
  intro c m p
  obtain ⟨i, hi⟩ : ∃ i, (Datapath.block oba).posOf c p = i := ⟨_, rfl⟩
  have hpos : 16 * blockOf c.width p + (4 * (p / c.width % 4) + p % c.width % 4) = i := hi
  have hblk : i / 16 = blockOf c.width p := by omega
  have hrow : (subY (BitVec.ofNat 4 (i % 16))).val = p / c.width % 4 := by
    rw [subY_val, BitVec.toNat_ofNat]; omega
  have hcol : (subX (BitVec.ofNat 4 (i % 16))).val = p % c.width % 4 := by
    rw [subX_val, BitVec.toNat_ofNat]; omega
  have hidx : (pixelIndex ((fetchBlock m (blockOf c.width p)).indexByte (subY (BitVec.ofNat 4 (i % 16))))
      (subX (BitVec.ofNat 4 (i % 16)))).val = indexOf m c.width p := by
    rw [pixelIndex_val, fetchBlock_indexByte, hrow, hcol, indexOf]
  simp only [hi, Datapath.outAt, hblk, pxDxt1, ← hidx]
  exact blockStages_palette oba (fetchBlock m (blockOf c.width p)) Work.reset _

theorem pathI8_decodes : pathI8.Decodes fun _ => pxI8 := by
  intro c m p
  simp [pathI8, Datapath.outAt, Datapath.posOf, fetchPixel, loadI8, Pixel.bytes, pxI8]

theorem pathA8_decodes : pathA8.Decodes fun _ => pxA8 := by
  intro c m p
  simp [pathA8, Datapath.outAt, Datapath.posOf, fetchPixel, loadA8, Pixel.bytes, pxA8]

/-- A row of the dispatch table decodes as its FMT code says. -/
theorem decodes_of_row {k : NibbleMap} {f : BitVec Config.fmtw} {d d' : Datapath} {n : Nat} (hf : f.toNat = n)
    (h : some d' = some d) (hd : d'.Decodes (pixelOf k n)) : d.Decodes (pixelOf k f.toNat) := by
  cases h; rw [hf]; exact hd

/-- Every loader of the table decodes as the rules of its FMT code say. The byte-lane loaders (codes 0 to 8), `IA88`
and `UV88` only move bytes: their pixel is the rule's as it stands. -/
theorem loaderOf_decodes {k : NibbleMap} {f : BitVec Config.fmtw} {d : Datapath} (h : loaderOf k f = some d) :
    d.Decodes (pixelOf k f.toNat) := by
  unfold loaderOf at h
  split at h
  case h_1 hf | h_2 hf | h_3 hf | h_4 hf | h_5 hf | h_6 hf | h_7 hf | h_8 hf | h_9 hf | h_16 hf | h_18 hf =>
    exact decodes_of_row hf h fun _ _ _ => rfl
  case h_10 hf => exact decodes_of_row hf h pathRgb565_decodes
  case h_11 hf => exact decodes_of_row hf h pathBgr565_decodes
  case h_12 hf => exact decodes_of_row hf h (pathBgra4444_decodes k)
  case h_13 hf => exact decodes_of_row hf h pathBgra5551_decodes
  case h_14 hf => exact decodes_of_row hf h pathBgrx5551_decodes
  case h_15 hf => exact decodes_of_row hf h pathI8_decodes
  case h_17 hf => exact decodes_of_row hf h pathA8_decodes
  case h_19 hf => exact decodes_of_row hf h pathRgb888Bluescreen_decodes
  case h_20 hf => exact decodes_of_row hf h pathBgr888Bluescreen_decodes
  case h_21 hf => exact decodes_of_row hf h (block_decodes false)
  case h_22 hf => exact decodes_of_row hf h (block_decodes true)
  case h_23 => cases h

end Sys2Proof.Machine
end

section
/-! DEC's turn in a state of the invariant: the running command, the pixel that the turn writes, the sequencer and
the predicates it leaves (10_state.md R18, R19). -/

namespace Sys2Proof.Machine

open Sys2Proof.Claims

/-! ### The running command -/

/-- What the invariant says of a running command: its loader, and where the sequencer stands. -/
structure Running (s : State) (d : Datapath) : Prop where
  loader  : loaderOf s.params.nibbles s.cmd.fmt = some d
  valid   : validate s.cmd = none
  inBound : s.seq < d.bound s.cmd
  linear  : d.isBlock = false → s.sub = 0

theorem Inv.running {s : State} (h : Inv s) (hb : s.status = .busy) : ∃ d, Running s d := by
  obtain ⟨hv, hl⟩ := h.busy hb
  split at hl
  · next d hd =>
    refine ⟨d, hd, hv, hl.1, fun hn => ?_⟩
    cases d with
    | linear _ _ => exact hl.2
    | block _ => cases hn
  · exact hl.elim

/-- FMT tells the two kinds of datapath apart: codes below 20 are linear, 20 and 21 blocks. -/
theorem Running.isBlock {s : State} {d : Datapath} (h : Running s d) : d.isBlock = decide (20 ≤ s.cmd.fmt.toNat) := by
  have hf := ((validate_none_iff _).1 h.valid).1
  rw [← loaderOf_block h.loader, isBlockFormat, ← Bool.decide_or]
  exact decide_eq_decide.2 (by omega)

theorem Running.loader_of_code {s : State} {d d' : Datapath} (h : Running s d) {n : Nat} (hf : s.cmd.fmt.toNat = n)
    (hrow : loaderOf s.params.nibbles (BitVec.ofNat _ n) = some d') : d = d' := by
  have hfmt : BitVec.ofNat _ n = s.cmd.fmt := by simp [← hf]
  rw [hfmt, h.loader] at hrow
  exact Option.some.inj hrow

/-! ### What a turn leaves of the sequencer and the working registers -/

theorem Running.decTurn_eq {s : State} {d : Datapath} (h : Running s d) (hb : s.status = .busy) :
    decTurn s = .next (d.turn s) := by
  unfold decTurn
  rw [if_pos hb, h.loader]

/-- With HOST making no move, a step while BUSY is the running command's turn. -/
theorem Inv.step_turn {s : State} (h : Inv s) (hb : s.status = .busy) (hbus : s.bus = []) :
    ∃ d, Running s d ∧ step s = .next (d.turn s) := by
  obtain ⟨d, hr⟩ := h.running hb
  exact ⟨d, hr, (step_of_idle h.pulses hbus).trans (hr.decTurn_eq hb)⟩

section turn
variable {d : Datapath} {s : State} (h : s.seq < d.bound s.cmd)
include h

theorem Datapath.turn_eq : d.turn s = d.finish (d.pixel s) := by
  unfold Datapath.turn; rw [if_pos h]

theorem Datapath.turn_seq : (d.turn s).seq = (d.pixel s).seq := by
  rw [d.turn_eq h, Datapath.finish]; split <;> simp

theorem Datapath.turn_sub : (d.turn s).sub = (d.pixel s).sub := by
  rw [d.turn_eq h, Datapath.finish]; split <;> simp

theorem Datapath.turn_work : (d.turn s).work = (d.pixel s).work := by
  rw [d.turn_eq h, Datapath.finish]; split <;> simp

end turn

/-! ### The pixel that a turn writes -/

theorem Running.turn_spec {s : State} {d : Datapath} (h : Running s d) (ht : s.tainted = false) :
    TurnSpec d s (d.turn s) :=
  d.turn_spec (loaderOf_loadOk h.loader) h.inBound ht

/-- A turn writes the pixel at the sequencer's position and keeps the rest. -/
theorem Running.turnWrites {s : State} {d : Datapath} (h : Running s d) (ht : s.tainted = false) (hm : s.dst.wf) :
    TurnWrites s (d.turn s) (d.addrAt s.cmd (d.pos s)) := by
  have t := h.turn_spec ht
  have hpos : d.posOf s.cmd (d.addrAt s.cmd (d.pos s)) = d.pos s :=
    d.posOf_addrAt (validate_dimsOk h.loader h.valid) (d.pos_lt_turns.2 h.inBound)
  have hpx := loaderOf_decodes h.loader s.cmd s.src (d.addrAt s.cmd (d.pos s))
  rw [hpos] at hpx
  exact {
    params := t.frame.params
    pixel := by rw [bytesAt_eq, t.dst, Memory.pixel_writePixel_same hm, hpx]
    rest := fun off ho => by rw [t.dst, Memory.read_writePixel_other _ _ ho]
    cmd := t.frame.cmd
    written := t.frame.written
    ctrl := t.frame.ctrl
    err := t.frame.err
    src := t.frame.src
    tainted := t.tainted.trans ht.symm
    readData := t.frame.readData
    free := t.free
    bus := t.frame.bus }

/-- Position `sub` of block `k` is written at its row and column (45_dxt1.md R180). -/
theorem block_addrAt (oba : Bool) (c : Cmd) (k : Nat) (sub : BitVec 4) :
    (Datapath.block oba).addrAt c (16 * k + sub.toNat) = rasterOf c.width k sub.toNat := by
  have hsub := sub.isLt
  have hk : (16 * k + sub.toNat) / 16 = k := by omega
  have hrow : (16 * k + sub.toNat) % 16 = sub.toNat := by omega
  have hcol : (16 * k + sub.toNat) % 4 = sub.toNat % 4 := by omega
  simp only [Datapath.addrAt, rasterOf, hk, hrow, hcol]

/-! ### The predicates that a turn leaves -/

theorem Running.turn_abit {s : State} {d : Datapath} (h : Running s d) (hf : s.cmd.fmt.toNat = 12) :
    (d.turn s).work.abit = true ↔ word s.src (2 * s.seq) / 32768 = 1 := by
  obtain rfl := h.loader_of_code hf (d' := pathBgra5551) rfl
  rw [Datapath.turn_work h.inBound]
  exact abit_iff_word s.src (2 * s.seq)

theorem Running.turn_keyhit_rgb {s : State} {d : Datapath} (h : Running s d) (hf : s.cmd.fmt.toNat = 18) :
    (d.turn s).work.keyhit = true ↔
      [s.src.read (3 * s.seq), s.src.read (3 * s.seq + 1), s.src.read (3 * s.seq + 2)] = [0, 0, 255] := by
  obtain rfl := h.loader_of_code hf (d' := pathRgb888Bluescreen) rfl
  rw [Datapath.turn_work h.inBound]
  exact keyhit_iff_list _ _ _

theorem Running.turn_keyhit_bgr {s : State} {d : Datapath} (h : Running s d) (hf : s.cmd.fmt.toNat = 19) :
    (d.turn s).work.keyhit = true ↔
      [s.src.read (3 * s.seq + 2), s.src.read (3 * s.seq + 1), s.src.read (3 * s.seq)] = [0, 0, 255] := by
  obtain rfl := h.loader_of_code hf (d' := pathBgr888Bluescreen) rfl
  rw [Datapath.turn_work h.inBound]
  exact keyhit_iff_list _ _ _

/-- The raw endpoint words of a block and the mode that they select (45_dxt1.md R172, R174). -/
theorem Running.turn_mode4 {s : State} {d : Datapath} (h : Running s d) (hf : 20 ≤ s.cmd.fmt.toNat) :
    (d.turn s).work.raw0.toNat = word s.src (8 * s.seq) ∧ (d.turn s).work.raw1.toNat = word s.src (8 * s.seq + 2) ∧
      ((d.turn s).work.mode4 = true ↔ word s.src (8 * s.seq) > word s.src (8 * s.seq + 2)) := by
  have hkind : d.isBlock = true := by rw [h.isBlock]; simpa using hf
  rw [Datapath.turn_work h.inBound]
  cases d with
  | linear _ _ => cases hkind
  | block oba =>
    refine ⟨word16_toNat _ _, word16_toNat _ _, ?_⟩
    exact (Bool.eq_iff_iff.1 (mode4_eq _ _ _ _)).trans decide_eq_true_iff

/-! ### The obligations -/

/-- Settles O48: the turn of a linear loader writes the pixel at SEQ, and the last pixel ends the command. -/
theorem linearTurn : Obligations.LinearTurn := by
  intro s hinv hb ht hbus hf
  obtain ⟨d, hr, hstep⟩ := hinv.step_turn hb hbus
  refine ⟨d.turn s, hstep, ?_⟩
  have hkind : d.isBlock = false := by rw [hr.isBlock]; simpa using hf
  have hpixel := hr.turnWrites ht hinv.mem.2.1
  have hseq := d.turn_seq hr.inBound
  have hsub := d.turn_sub hr.inBound
  have hstatus := (hr.turn_spec ht).status
  rw [hb] at hstatus
  cases d with
  | block _ => cases hkind
  | linear bpp load => exact ⟨hpixel, hseq, hsub.trans (hr.linear rfl), hstatus⟩

/-- Settles O49: the turn of the block decompressor writes position SUB of block SEQ; SUB is 15 exactly at a block's
last pixel. -/
theorem blockTurn : Obligations.BlockTurn := by
  intro s hinv hb ht hbus hf
  obtain ⟨d, hr, hstep⟩ := hinv.step_turn hb hbus
  refine ⟨d.turn s, hstep, ?_⟩
  have hkind : d.isBlock = true := by rw [hr.isBlock]; simpa using hf
  have hpixel := hr.turnWrites ht hinv.mem.2.1
  have hseq := d.turn_seq hr.inBound
  have hstatus := (hr.turn_spec ht).status
  cases d with
  | linear _ _ => cases hkind
  | block oba =>
    have hsub : ((Datapath.block oba).turn s).sub = s.sub + 1 := Datapath.turn_sub hr.inBound
    simp only [Datapath.pos, Datapath.turns, Datapath.bound, hb] at hstatus
    have hlast : s.sub.toNat = 15 ↔ s.sub = 15 := ⟨fun e => BitVec.eq_of_toNat_eq e, fun e => by rw [e]; rfl⟩
    have hlt := s.sub.isLt
    refine ⟨block_addrAt oba s.cmd s.seq s.sub ▸ hpixel, fun hne => ?_, fun he => ?_⟩
    · have : s.sub.toNat ≠ 15 := fun e => hne (hlast.1 e)
      exact ⟨hsub, hseq.trans (if_neg hne), hstatus.trans (if_neg (by omega))⟩
    · have := hlast.2 he
      exact ⟨hsub.trans (by rw [he]; rfl), hseq.trans (if_pos he),
        hstatus.trans (if_congr (by omega) rfl rfl)⟩

/-- Settles O50: a turn, the last one too, leaves the predicates of the pixel that it decoded. -/
theorem predicatesOfATurn : Obligations.PredicatesOfATurn := by
  intro s hinv hb hbus
  obtain ⟨d, hr, hstep⟩ := hinv.step_turn hb hbus
  exact ⟨d.turn s, hstep, hr.turn_abit, hr.turn_keyhit_rgb, hr.turn_keyhit_bgr, hr.turn_mode4⟩

end Sys2Proof.Machine
end

section
/-! Commands: validation in the numbers of the statements, what START leaves outside BUSY, and the bytes of SRC that
an image depends on (46_dispatch.md R203 to R206). -/

namespace Sys2Proof.Machine

open Sys2Proof.Claims

/-! ### Validation in numbers -/

/-- The numbers that an exception leaves in ERR.CODE and ERR.INFO (60_exceptions.md R230). -/
def ErrorKind.numbers (e : ErrorKind) : Nat × Nat := (e.err.code.number, e.err.info.toNat)

/-- The required length of SRC, for a format with a loader and dimensions that suit it (46_dispatch.md R204). -/
theorem requiredSrcLen_eq {f w h : Nat} (hf : f < 22) (hdims : isBlockFormat f = true → w % 4 = 0 ∧ h % 4 = 0) :
    requiredSrcLen f w h = srcLenOf f w h := by
  by_cases hb : f = 20 ∨ f = 21
  · obtain ⟨hw, hh⟩ := hdims (by simpa [isBlockFormat] using hb)
    have hw' : (w + 3) / 4 = w / 4 := by omega
    have hh' : (h + 3) / 4 = h / 4 := by omega
    rcases hb with rfl | rfl <;> simp [requiredSrcLen, srcLenOf, hw', hh']
  · have hlin : f < 20 := by omega
    clear hdims hf hb
    interval_cases f <;> simp [requiredSrcLen, srcLenOf]

/-- Validation and the statements' numbers name the same first failing check (46_dispatch.md R203). -/
theorem firstError_eq (c : Cmd) : firstError c = (validate c).map ErrorKind.numbers := by
  have hloader : hasLoader c.fmt.toNat = false ↔ 22 ≤ c.fmt.toNat := by simp [hasLoader]
  have hblock : isBlockFormat c.fmt.toNat = true ↔ c.fmt.toNat = 20 ∨ c.fmt.toNat = 21 := by simp [isBlockFormat]
  simp only [firstError, validate, hloader, hblock]
  by_cases hf : 22 ≤ c.fmt.toNat
  · rw [if_pos hf, if_pos hf]; rfl
  rw [if_neg hf, if_neg hf]
  by_cases hzero : c.width = 0 ∨ c.height = 0
  · rw [if_pos hzero, if_pos hzero]; rfl
  rw [if_neg hzero, if_neg hzero]
  by_cases hdims : (c.fmt.toNat = 20 ∨ c.fmt.toNat = 21) ∧ (c.width % 4 ≠ 0 ∨ c.height % 4 ≠ 0)
  · rw [if_pos hdims, if_pos hdims]; rfl
  rw [if_neg hdims, if_neg hdims, requiredSrcLen_eq (by omega) (fun hb => by have := hblock.1 hb; omega)]
  split
  · rfl
  · split <;> rfl

theorem firstError_none_iff (c : Cmd) : firstError c = none ↔ validate c = none := by
  rw [firstError_eq, Option.map_eq_none_iff]

/-! ### START and ACK -/

theorem State.start_busy {s : State} (h : s.status = .busy) : s.start = s := by
  rw [State.start, if_pos h]

theorem State.acknowledge_busy {s : State} (h : s.status = .busy) : s.acknowledge = s := by
  simp only [State.acknowledge, h]

/-- What START outside BUSY leaves: the sampled registers, SEQ and SUB cleared, and BUSY or the exception of the
first failing check (46_dispatch.md R202, 60_exceptions.md R236). -/
theorem State.start_eq_of_not_busy {s : State} (hb : s.status ≠ .busy) :
    s.start = match validate s.sampledCmd with
      | none => { s.sample with seq := 0, sub := 0 }.accept
      | some e => { s.sample with seq := 0, sub := 0 }.raise e := by
  rw [State.start, if_neg hb, State.startCommand_eq, State.sample_cmd]
  cases validate s.sampledCmd <;> rfl

theorem State.sample_of_unwritten {s : State} (h : ¬ s.written.all) :
    s.sample = { s with cmd := s.sampledCmd, free := s.free + 5 } := by
  unfold State.sample; rw [if_neg h]

theorem Written.all_iff (w : Written) : w.all ↔ w = ⟨true, true, true, true, true⟩ := by
  obtain ⟨a, b, c, d, e⟩ := w
  simp [Written.all]

/-- Settles O42: START samples the registers, and an unwritten one takes its free value. -/
theorem startSamplesFreeValues : Obligations.StartSamplesFreeValues := by
  intro s hb hw c u
  have hsample := State.sample_of_unwritten (mt (Written.all_iff _).1 hw)
  have hstart := State.start_eq_of_not_busy hb
  rw [hsample] at hstart
  have hc : s.sampledCmd = c := rfl
  rw [hc] at hstart
  have hexec : exec .start s = .next (s.start.setCtrl (s.ctrl &&& 2#2)) := rfl
  rw [firstError_eq, hexec, hstart]
  cases validate c with
  | none => rfl
  | some e => exact ⟨e.err, ⟨rfl, rfl⟩, rfl⟩

/-- Settles O44: while BUSY the pulse is only consumed, and a command of either shape leaves the state as it is. -/
theorem busyIgnoresCommands : Obligations.BusyIgnoresCommands := by
  intro s hb
  refine ⟨congrArg (fun t => Host.Outcome.next (State.setCtrl t (s.ctrl &&& 2#2))) (State.start_busy hb),
    fun i w henc => ?_⟩
  rcases instr_shape s.params i with ⟨f, d, a, -, -, -, hm⟩ | ⟨f, a, -, -, -, hm⟩ | rfl | rfl
  · rw [hm s rfl, State.runCommand_busy hb]
  · rw [hm s rfl, State.refuseCommand_busy hb]
  · cases henc
  · cases henc

/-! ### The bytes of SRC that an image depends on -/

/-- How many bytes of SRC one count of SEQ fetches: a pixel's, or a block's. -/
def Datapath.stride : Datapath → Nat
  | .linear bpp _ => bpp
  | .block _ => 8

/-- A pixel depends on no byte of SRC outside the range that the command declares. -/
theorem Datapath.outAt_congr {d : Datapath} {c : Cmd} {m m' : Memory}
    (h : ∀ o < d.bound c * d.stride, m.read o = m'.read o) {i : Nat} (hi : i < d.turns c) :
    d.outAt m i = d.outAt m' i := by
  cases d with
  | linear bpp load =>
    have hpix : bpp * (i + 1) ≤ bpp * (c.width * c.height) := Nat.mul_le_mul_left bpp hi
    have hlane : ∀ j < bpp, m.read (bpp * i + j) = m'.read (bpp * i + j) := fun j hj => h _ (by
      rw [Nat.mul_succ, Nat.mul_comm bpp (_ * _)] at hpix
      exact Nat.lt_of_lt_of_le (Nat.add_lt_add_left hj _) hpix)
    have hfetch : ∀ old, fetchPixel m bpp i old = fetchPixel m' bpp i old := fun old => by
      simp only [fetchPixel, InReg.mk.injEq]
      exact ⟨ite_congr rfl (hlane 0) fun _ => rfl, ite_congr rfl (hlane 1) fun _ => rfl,
        ite_congr rfl (hlane 2) fun _ => rfl, ite_congr rfl (hlane 3) fun _ => rfl⟩
    simp only [Datapath.outAt, hfetch]
  | block oba =>
    simp only [Datapath.stride, Datapath.turns, Datapath.bound] at h hi
    have hbyte : ∀ j < 8, m.read (8 * (i / 16) + j) = m'.read (8 * (i / 16) + j) := fun j hj => h _ (by omega)
    have hfetch : fetchBlock m (i / 16) = fetchBlock m' (i / 16) := by
      simp only [fetchBlock, Block.mk.injEq]
      exact ⟨hbyte 0 (by decide), hbyte 1 (by decide), hbyte 2 (by decide), hbyte 3 (by decide),
        hbyte 4 (by decide), hbyte 5 (by decide), hbyte 6 (by decide), hbyte 7 (by decide)⟩
    simp only [Datapath.outAt, hfetch]

/-- The declared range of an accepted command is what its loader fetches (46_dispatch.md R204, R206). -/
theorem srcLenOf_eq_stride {k : NibbleMap} {c : Cmd} {d : Datapath} (hd : loaderOf k c.fmt = some d) :
    srcLenOf c.fmt.toNat c.width c.height = d.bound c * d.stride := by
  unfold loaderOf at hd
  split at hd
  case h_15 hf | h_17 hf => cases hd; rw [hf]; exact (Nat.mul_one _).symm
  case h_23 => cases hd
  all_goals next hf => cases hd; rw [hf]; rfl

/-- The image of an accepted command is the same on two units that agree on its declared bytes of SRC, whatever DST
held before (20_memory.md R47, R50). -/
theorem Accomplished.image_congr {s s' t t' : State} {c : Cmd} {d : Datapath} {k : NibbleMap}
    (h : Accomplished s t c d) (h' : Accomplished s' t' c d) (hd : loaderOf k c.fmt = some d) (hv : validate c = none)
    (hm : s.dst.wf) (hm' : s'.dst.wf) (hsrc : ∀ o < c.srcLen, s.src.read o = s'.src.read o) :
    ∀ o < c.dstLen, t.dst.read o = t'.dst.read o := by
  have hdims := validate_dimsOk hd hv
  obtain ⟨hf, -, -, hblock, hdst, hlen⟩ := (validate_none_iff c).1 hv
  rw [requiredSrcLen_eq hf hblock, srcLenOf_eq_stride hd] at hlen
  rw [hlen] at hsrc
  rw [hdst, Nat.mul_comm]
  refine Memory.read_eq_of_pixel_eq fun p hp => ?_
  rw [(h.image hdims hm).1 p hp, (h'.image hdims hm').1 p hp]
  exact Datapath.outAt_congr hsrc (d.addrAt_posOf hdims hp).2

/-- The bits of an encoded command are those of its register tuple. -/
theorem unpack_of_encode {p : Params} {f : BitVec Config.fmtw} {a : CmdArgs} {w : Nat} (h : a.encode p f = .cmd w) :
    Cmd.unpack p w = a.toCmd p f := by
  cases h; exact Cmd.unpack_pack (a.toCmd_fits p f)

/-- Settles O55: an accepted command has a loader, and both units end with the image of the same pixels. -/
theorem imageDependsOnSourceOnly : Obligations.ImageDependsOnSourceOnly := by
  intro i w s s' t t' hp henc hfirst hb hb' hm hm' hsrc ht ht'
  have hv := (firstError_none_iff _).1 hfirst
  rcases instr_shape s.params i with ⟨f, d, a, -, he, hd, hrun⟩ | ⟨f, a, -, he, hf, -⟩ | rfl | rfl
  · rw [unpack_of_encode (he ▸ henc)] at hv hsrc ⊢
    rw [hrun s rfl] at ht
    rw [hrun s' hp] at ht'
    cases ht
    cases ht'
    have h := State.runCommand_spec hb hd hv
    have h' := State.runCommand_spec (s := s') hb' (hp.symm ▸ hd) (hp.symm ▸ hv)
    rw [hp] at h'
    exact ⟨h.status.trans h'.status.symm, h.err.trans h'.err.symm, h.image_congr h' hd hv hm hm' hsrc⟩
  · rw [unpack_of_encode (he ▸ henc), validate_unsupported hf] at hv
    cases hv
  · cases henc
  · cases henc

end Sys2Proof.Machine
end

section
/-! HOST's interface: one rule for each kind of move, then what a step can do, case by case, in the terms of the
statements (`nextHostMove`, `pulses`, `decMoves`). -/

namespace Sys2Proof.Machine

open Sys2Proof.Claims

/-! ### Serving the pulses of CTRL (10_state.md R13) -/

theorem servePulses_none {s : State} (h : s.ctrl = 0) : servePulses s = .next s := by
  rw [servePulses, h]; rfl

theorem servePulses_start {s : State} (h : s.ctrl = 1) : servePulses s = exec .start s := by
  rw [servePulses, h]; exact runAll_one (.ctrl 1) s

theorem servePulses_ack {s : State} (h : s.ctrl = 2) : servePulses s = exec .ack s := by
  rw [servePulses, h]; exact runAll_one (.ctrl 2) s

/-- Both pulses: ACK, then START. -/
theorem servePulses_both {s : State} (h : s.ctrl = 3) : servePulses s = andThen (exec .ack s) (exec .start) := by
  rw [servePulses, h]
  exact congrArg (andThen _) (funext fun t => runAll_one (.ctrl 1) t)

theorem servePulses_busy {s : State} (h : s.status = .busy) : servePulses s = .next (s.setCtrl 0) := by
  rcases servePulses_cases s with ⟨-, he⟩ | ⟨-, he⟩ | ⟨-, he⟩ | ⟨-, he⟩
  · exact he
  · rw [he, State.start_busy h]
  · rw [he, State.acknowledge_busy h]
  · rw [he, State.acknowledge_busy h, State.start_busy h]

/-! ### HOST's register accesses -/

theorem step_write {s : State} {n v : Nat} {rest : List HostMove} {r : Reg} (hc : s.ctrl = 0)
    (hbus : s.bus = .write n v :: rest) (hr : Reg.ofNumber? n = some r) :
    step s = hostWrite r v { s with bus := rest } := by
  rw [step_of_move hc hbus, hostMove, hr]

theorem step_read {s : State} {n : Nat} {rest : List HostMove} {r : Reg} (hc : s.ctrl = 0)
    (hbus : s.bus = .read n :: rest) (hr : Reg.ofNumber? n = some r) :
    step s = .next { s with bus := rest, readData := State.readReg s r, free := s.free + 1 } := by
  rw [step_of_move hc hbus, hostMove, hr]
  cases r <;> rfl

theorem Reg.ofNumber?_none {n : Nat} (h : 7 < n) : Reg.ofNumber? n = none := by
  match n, h with
  | _ + 8, _ => rfl

/-- A write of CTRL with no pulse pending: the same step serves the pulses that it names. -/
theorem step_write_ctrl {s : State} {v : Nat} {rest : List HostMove} (hc : s.ctrl = 0)
    (hbus : s.bus = .write 5 v :: rest) :
    step s = servePulses { s with bus := rest, ctrl := BitVec.ofNat 2 v } := by
  have hv : s.ctrl ||| BitVec.ofNat 2 v = BitVec.ofNat 2 v := by rw [hc]; exact BitVec.zero_or
  rw [step_write hc hbus (r := .ctrl) rfl]
  exact congrArg (fun c => servePulses (State.setCtrl { s with bus := rest } c)) hv

/-- A HOST write of a command register outside BUSY, and of STATUS or ERR: the register write is the whole step. -/
theorem step_write_reg {s : State} {n v : Nat} {rest : List HostMove} {r : Reg} (hc : s.ctrl = 0)
    (hbus : s.bus = .write n v :: rest) (hr : Reg.ofNumber? n = some r) (hne : r ≠ .ctrl) :
    step s = .next (State.writeReg { s with bus := rest } r v) := by
  rw [step_write hc hbus hr]
  cases r with
  | ctrl => exact absurd rfl hne
  | _ => rfl

/-- The two bits of a CTRL write. -/
theorem ctrl_of_bits {v : Nat} {c : BitVec 2} (h0 : v.testBit 0 = c.getLsbD 0) (h1 : v.testBit 1 = c.getLsbD 1) :
    BitVec.ofNat 2 v = c := by
  refine BitVec.eq_of_getLsbD_eq fun i hi => ?_
  match i with
  | 0 => rw [BitVec.getLsbD_ofNat, h0]; rfl
  | 1 => rw [BitVec.getLsbD_ofNat, h1]; rfl
  | _ + 2 => omega

/-! ### Fetching (30_encoding.md R70; log 9) -/

theorem runEncoded_ok {e : Encoded} {s : State} {i : Instr} (h : decode s.params e = .ok i) :
    runEncoded e s = exec i s := by
  rw [runEncoded, h]

/-- A step runs the command at the head of HOST's moves. -/
theorem step_command {s : State} {w : Nat} {rest : List HostMove} {i : Instr} (hc : s.ctrl = 0)
    (hbus : s.bus = .command w :: rest) (h : decode s.params (.cmd w) = .ok i) :
    step s = exec i { s with bus := rest } :=
  (step_of_move hc hbus).trans (runEncoded_ok (s := { s with bus := rest }) h)

/-- A step runs the single pulse pending in CTRL: no pulse, and two, are no instruction. -/
theorem step_pulse {s : State} {i : Instr} (h : decode s.params (.ctrl s.ctrl) = .ok i) : step s = exec i s := by
  have hpulse : ∀ v : BitVec 2, v = 0 ∨ v = 1 ∨ v = 2 ∨ v = 3 := by decide
  have hne : s.ctrl ≠ 0 := fun hc => by rw [hc] at h; cases h
  rw [step_of_pulse hne]
  rcases hpulse s.ctrl with hc | hc | hc | hc <;> rw [hc] at h
  · exact absurd hc hne
  · cases h; exact servePulses_start hc
  · cases h; exact servePulses_ack hc
  · cases h

/-! ### The obligations on HOST's register accesses -/

/-- Settles O4: a command by its move, a pulse by CTRL, and a placed word as the one or the other. -/
theorem stepRunsDecodedInstruction : Obligations.StepRunsDecodedInstruction := by
  refine ⟨fun s w rest i hc hbus h => step_command hc hbus h, fun s i h => step_pulse h, ?_⟩
  intro s nbits w i hp h
  have hdec : decode s.params (tableWord nbits w) = .ok i := by
    rw [hp]
    unfold decodeTableWord at h
    split at h
    · next hd => cases h; exact hd
    · cases h
  unfold State.withFetchWord
  cases he : tableWord nbits w with
  | cmd w' =>
    rw [he] at hdec
    exact step_command (s := s.place (.cmd w')) rfl rfl hdec
  | ctrl v =>
    rw [he] at hdec
    exact step_pulse (s := s.setCtrl v) hdec

/-- Settles O5: the two bits of the written value name the pulses that the same step serves. -/
theorem ctrlWritePulses : Obligations.CtrlWritePulses := by
  refine ⟨fun s v rest hc hbus => ?_, fun s rest hc hbus => ⟨_, step_read hc hbus (r := .ctrl) rfl, rfl⟩⟩
  rw [step_write_ctrl hc hbus]
  refine ⟨fun h0 h1 => ?_, fun h0 h1 => ?_, fun h0 h1 => ?_, fun h0 h1 => ?_⟩
  · rw [ctrl_of_bits (c := 0) h0 h1, servePulses_none rfl, ← hc]
  · rw [ctrl_of_bits (c := 1) h0 h1, servePulses_start rfl]
  · rw [ctrl_of_bits (c := 2) h0 h1, servePulses_ack rfl]
  · rw [ctrl_of_bits (c := 3) h0 h1, servePulses_both rfl]
    obtain ⟨u, hu⟩ := exec_next .ack { s with bus := rest, ctrl := 3 }
    exact ⟨u, hu, by rw [hu]; rfl⟩

/-- Settles O6: while BUSY neither a register write nor a pulse does anything; otherwise the register takes its bits. -/
theorem busyIgnoresHost : Obligations.BusyIgnoresHost := by
  intro s n v rest hc hbus
  have hwrite : ∀ r t, Reg.ofNumber? n = some r → r ≠ .ctrl → State.writeReg { s with bus := rest } r v = t →
      step s = .next t := fun r t hr hne ht => ht ▸ step_write_reg hc hbus hr hne
  refine ⟨fun hb hn => ?_, fun hb => ⟨?_, ?_, ?_, ?_, ?_⟩⟩
  · have hkeep : ∀ r, State.writeReg { s with bus := rest } r v = { s with bus := rest } :=
      fun r => State.writeReg_busy _ r v hb
    match n, hn with
    | 0, _ => exact hwrite .fmt _ rfl (by decide) (hkeep _)
    | 1, _ => exact hwrite .width _ rfl (by decide) (hkeep _)
    | 2, _ => exact hwrite .height _ rfl (by decide) (hkeep _)
    | 3, _ => exact hwrite .srcLen _ rfl (by decide) (hkeep _)
    | 4, _ => exact hwrite .dstLen _ rfl (by decide) (hkeep _)
    | 5, _ =>
      rw [step_write_ctrl hc hbus, servePulses_busy (s := { s with bus := rest, ctrl := BitVec.ofNat 2 v }) hb, hc]
      rfl
  · rintro rfl; exact hwrite .fmt _ rfl (by decide) (if_neg hb)
  · rintro rfl; exact hwrite .width _ rfl (by decide) (if_neg hb)
  · rintro rfl; exact hwrite .height _ rfl (by decide) (if_neg hb)
  · rintro rfl; exact hwrite .srcLen _ rfl (by decide) (if_neg hb)
  · rintro rfl; exact hwrite .dstLen _ rfl (by decide) (if_neg hb)

/-- Settles O7: each register read by its number; numbers above 7 name no register. -/
theorem registerReads : Obligations.RegisterReads := by
  intro s n rest hc hbus
  refine ⟨fun r hr => ?_, fun hn => by rw [step_of_move hc hbus, hostMove, Reg.ofNumber?_none hn]⟩
  have hread : ∀ q, Reg.ofNumber? n = some q → s.readReg q = r →
      step s = .next { s with bus := rest, readData := r, free := s.free + 1 } :=
    fun q hq hv => by rw [step_read hc hbus hq, hv]
  rcases hr with ⟨rfl, hw, rfl⟩ | ⟨rfl, hw, rfl⟩ | ⟨rfl, hw, rfl⟩ | ⟨rfl, hw, rfl⟩ | ⟨rfl, hw, rfl⟩ | ⟨rfl, rfl⟩ |
    ⟨rfl, rfl⟩ | ⟨rfl, rfl⟩
  · exact hread .fmt rfl (by rw [State.readReg, if_pos hw])
  · exact hread .width rfl (by rw [State.readReg, if_pos hw])
  · exact hread .height rfl (by rw [State.readReg, if_pos hw])
  · exact hread .srcLen rfl (by rw [State.readReg, if_pos hw])
  · exact hread .dstLen rfl (by rw [State.readReg, if_pos hw])
  · exact hread .ctrl rfl rfl
  · exact hread .status rfl (by rw [State.readReg]; cases s.status <;> rfl)
  · exact hread .err rfl (by rw [State.readReg, Err.word]; cases s.err.code <;> rfl)

/-- Settles O8: STATUS and ERR hold nothing that HOST can write, and numbers above 7 name no register. -/
theorem readOnlyRegisterWrites : Obligations.ReadOnlyRegisterWrites := by
  intro s n v rest hc hbus
  refine ⟨?_, fun hn => by rw [step_of_move hc hbus, hostMove, Reg.ofNumber?_none hn]⟩
  have hnone : ∀ r, r = .status ∨ r = .err → ∀ t : State, t.writeReg r v = t := by
    rintro r (rfl | rfl) t <;> exact ite_self t
  rintro (rfl | rfl)
  · rw [step_write_reg hc hbus (r := .status) rfl (by decide), hnone _ (.inl rfl)]
  · rw [step_write_reg hc hbus (r := .err) rfl (by decide), hnone _ (.inr rfl)]

/-- Settles O9: a register that does not count as written reads as the next free value of its width. -/
theorem unwrittenRegisterReadsFree : Obligations.UnwrittenRegisterReadsFree := by
  intro s n rest hc hbus
  have hread : ∀ q v, Reg.ofNumber? n = some q → s.readReg q = v →
      step s = .next { s with bus := rest, readData := v, free := s.free + 1 } :=
    fun q v hq hv => by rw [step_read hc hbus hq, hv]
  refine ⟨?_, ?_, ?_, ?_, ?_⟩
  · rintro rfl hw
    exact hread .fmt _ rfl (by rw [State.readReg, hw]; rfl)
  · rintro rfl hw
    exact hread .width _ rfl (by rw [State.readReg, hw]; rfl)
  · rintro rfl hw
    exact hread .height _ rfl (by rw [State.readReg, hw]; rfl)
  · rintro rfl hw
    exact hread .srcLen _ rfl (by rw [State.readReg, hw]; rfl)
  · rintro rfl hw
    exact hread .dstLen _ rfl (by rw [State.readReg, hw]; rfl)

/-! ### The obligations on reset and the idle unit -/

/-- Settles O16: the fields of `State.resetOf`, as it defines them. -/
theorem resetValues : Obligations.ResetValues :=
  ⟨fun _ => ⟨rfl, rfl, rfl, rfl, rfl, rfl, rfl⟩, rfl⟩

theorem Memory.wf_nil : Memory.wf [] := ⟨.nil, fun _ h => nomatch h⟩

theorem Memory.inSpace_nil (p : Params) : Memory.inSpace p [] := fun _ h => nomatch h

/-- The invariant holds after reset: nothing runs, both memories are empty, every register is 0. -/
theorem inv_resetOf {p : Params} (h : p.legal) : Inv (State.resetOf p) where
  legal := h
  widths := ⟨⟨Nat.two_pow_pos _, Nat.two_pow_pos _, Nat.two_pow_pos _, Nat.two_pow_pos _⟩, Nat.two_pow_pos _⟩
  mem := ⟨Memory.wf_nil, Memory.wf_nil, Memory.inSpace_nil p, Memory.inSpace_nil p⟩
  err := by simp [State.errAgrees, State.resetOf]
  busy := fun hb => by cases hb
  pulses := rfl
  tainted := fun ht => by cases ht

/-- Settles O19: the default parameters are legal, and `State.reset` is the reset state for them. -/
theorem invAtReset : Obligations.InvAtReset :=
  have hstd : Params.standard.legal := by decide
  ⟨fun _ => inv_resetOf, hstd, inv_resetOf hstd⟩

/-- Settles O51: it is DEC's turn, and DEC has nothing to do. -/
theorem decIdlesOutsideBusy : Obligations.DecIdlesOutsideBusy := by
  intro s hc hbus hb
  rw [step_of_idle hc hbus, decTurn, if_neg hb]

end Sys2Proof.Machine
end

section
/-! What a step can do, case by case, in the terms of the statements (`nextHostMove`, `pulses`, `decMoves`), and what
each case leaves of the command registers and of STATUS (10_state.md R12 to R16, R24). -/

namespace Sys2Proof.Machine

open Sys2Proof.Claims

/-! ### The cases of a step -/

/-- The number of a register (10_state.md R12). -/
def Reg.number : Reg → Nat
  | .fmt => 0
  | .width => 1
  | .height => 2
  | .srcLen => 3
  | .dstLen => 4
  | .ctrl => 5
  | .status => 6
  | .err => 7

theorem Reg.number_of_ofNumber? {n : Nat} {r : Reg} (h : Reg.ofNumber? n = some r) : n = r.number := by
  unfold Reg.ofNumber? at h
  split at h <;> cases h <;> rfl

/-- What a step that goes on can be: pulses served, DEC's turn, or one of HOST's moves. -/
inductive StepCase (s t : State) : Prop where
  | pulses (rest : List HostMove)
      (served : servePulses { s with bus := rest, ctrl := Claims.pulses s } = .next t)
  | dec (rest : List HostMove) (moves : decMoves s) (turn : decTurn { s with bus := rest } = .next t)
  | write (r : Reg) (v : Nat) (rest : List HostMove) (move : nextHostMove s = some (.write r.number v))
      (result : t = State.writeReg { s with bus := rest } r v)
  | access (result : t = { s with
      bus := t.bus, src := t.src, dst := t.dst, tainted := t.tainted, readData := t.readData, free := t.free })
  | command (w : Nat) (rest : List HostMove) (move : nextHostMove s = some (.command w))
      (run : exec (decodeCmd (Cmd.unpack s.params w)) { s with bus := rest } = .next t)
  | reset (rest : List HostMove) (move : nextHostMove s = some .reset)
      (result : t = State.hostReset { s with bus := rest })

theorem nextHostMove_of_bus {s : State} (hc : s.ctrl = 0) {m : HostMove} {rest : List HostMove}
    (hb : s.bus = m :: rest) : nextHostMove s = some m := by
  simp [nextHostMove, hc, hb]

theorem pulses_of_pending {s : State} (h : s.ctrl ≠ 0) : pulses s = s.ctrl := by
  have hm : nextHostMove s = none := if_neg h
  simp only [pulses, hm]

theorem pulses_of_write {s : State} {v : Nat} (h : nextHostMove s = some (.write 5 v)) :
    pulses s = BitVec.ofNat 2 v := by
  simp [pulses, h]

/-- A write of a register that exists is one of its pulses or of the register. -/
theorem stepCase_write {s t : State} {n v : Nat} {rest : List HostMove} (hc : s.ctrl = 0)
    (hbus : s.bus = .write n v :: rest) (h : step s = .next t) : StepCase s t := by
  have hmove := nextHostMove_of_bus hc hbus
  cases hr : Reg.ofNumber? n with
  | none =>
    rw [step_of_move hc hbus, hostMove, hr] at h
    cases h
  | some r =>
    obtain rfl := Reg.number_of_ofNumber? hr
    by_cases he : r = .ctrl
    · subst he
      rw [step_write_ctrl hc hbus, ← pulses_of_write hmove] at h
      exact .pulses rest h
    · rw [step_write_reg hc hbus hr he] at h
      exact .write r v rest hmove (Host.Outcome.next.inj h).symm

/-- Every step that goes on is one of the cases. -/
theorem step_case {s t : State} (h : step s = .next t) : StepCase s t := by
  rcases step_cases h with ⟨hc, hp⟩ | ⟨hc, hb, hd⟩ | ⟨hc, m, rest, hb, hm⟩
  · exact .pulses s.bus (pulses_of_pending hc ▸ hp)
  · exact .dec s.bus ⟨hc, .inl hb⟩ hd
  · have hmove := nextHostMove_of_bus hc hb
    cases m with
    | write n v => exact stepCase_write hc hb h
    | read n =>
      simp only [hostMove] at hm
      split at hm
      · cases hm; exact .access rfl
      · cases hm
    | storeSrc off v => obtain ⟨-, hm⟩ := atOffset_next hm; cases hm; exact .access rfl
    | loadSrc off => obtain ⟨-, hm⟩ := atOffset_next hm; cases hm; exact .access rfl
    | storeDst off v => obtain ⟨-, hm⟩ := atOffset_next hm; cases hm; exact .access rfl
    | loadDst off =>
      obtain ⟨-, hm⟩ := atOffset_next hm
      unfold hostLoadDst at hm
      split at hm <;> cases hm <;> exact .access rfl
    | command w => exact .command w rest hmove hm
    | reset => cases hm; exact .reset rest hmove rfl
    | wait => exact .dec rest ⟨hc, .inr (by rw [hb]; rfl)⟩ hm

/-! ### What each operation leaves of a command register -/

/-- Whether HOST has written a command register since reset, and the number that it holds. -/
def State.entry (s : State) : Reg → Bool × Nat
  | .fmt => (s.written.fmt, s.cmd.fmt.toNat)
  | .width => (s.written.width, s.cmd.width)
  | .height => (s.written.height, s.cmd.height)
  | .srcLen => (s.written.srcLen, s.cmd.srcLen)
  | .dstLen => (s.written.dstLen, s.cmd.dstLen)
  | .ctrl | .status | .err => (false, 0)

theorem State.entry_congr {s t : State} (hc : t.cmd = s.cmd) (hw : t.written = s.written) (r : Reg) :
    t.entry r = s.entry r := by
  simp only [State.entry, hc, hw]

/-- A write of another register leaves a register as it was. -/
theorem State.entry_writeReg_other (s : State) {r r' : Reg} (v : Nat) (h : r ≠ r') :
    (s.writeReg r' v).entry r = s.entry r := by
  unfold State.writeReg
  split
  · rfl
  · cases r' <;> cases r <;> try rfl
    all_goals exact absurd rfl h

/-- Sampling changes only registers that HOST has not written (10_state.md R24). -/
theorem State.entry_sample {s : State} {r : Reg} (h : (s.entry r).1 = true) : s.sample.entry r = s.entry r := by
  cases r <;> simp only [State.entry, State.sample_cmd, State.sampledCmd, State.sample_written] at h ⊢ <;>
    rw [if_pos h]

theorem State.startCommand_cmd (s : State) : s.startCommand.cmd = s.sample.cmd := by
  rw [State.startCommand_eq]
  cases validate s.sample.cmd <;> rfl

theorem State.startCommand_written (s : State) : s.startCommand.written = s.sample.written := by
  rw [State.startCommand_eq]
  cases validate s.sample.cmd <;> rfl

theorem State.entry_start {s : State} {r : Reg} (h : (s.entry r).1 = true) : s.start.entry r = s.entry r := by
  unfold State.start
  split
  · rfl
  · rw [← State.entry_sample h]
    exact State.entry_congr s.startCommand_cmd s.startCommand_written r

theorem State.entry_acknowledge (s : State) (r : Reg) : s.acknowledge.entry r = s.entry r :=
  State.entry_congr s.acknowledge_cmd s.acknowledge_written r

/-- Serving pulses keeps a written register: only START looks at the registers, and it samples the unwritten. -/
theorem servePulses_entry {s t : State} (e : servePulses s = .next t) {r : Reg} (h : (s.entry r).1 = true) :
    t.entry r = s.entry r := by
  have hctrl : ∀ u : State, (u.setCtrl 0).entry r = u.entry r := fun u => State.entry_congr rfl rfl r
  have hack : (s.acknowledge.entry r).1 = true := by rw [State.entry_acknowledge]; exact h
  rcases servePulses_cases s with ⟨-, he⟩ | ⟨-, he⟩ | ⟨-, he⟩ | ⟨-, he⟩ <;> rw [he] at e <;> cases e <;> rw [hctrl]
  · exact State.entry_start h
  · exact State.entry_acknowledge s r
  · exact (State.entry_start hack).trans (State.entry_acknowledge s r)

theorem decTurn_entry {s t : State} (e : decTurn s = .next t) (r : Reg) : t.entry r = s.entry r := by
  unfold decTurn at e
  split at e
  · split at e
    · next d _ =>
      cases e
      exact State.entry_congr (d.turn_frame s).cmd (d.turn_frame s).written r
    · cases e
  · cases e; rfl

/-- A step that does not touch a written command register keeps it, and keeps it written. -/
theorem step_entry {s t : State} (e : step s = .next t) {r : Reg} (h : (s.entry r).1 = true)
    (hn : ¬ touches s r.number) : t.entry r = s.entry r := by
  rcases step_case e with ⟨rest, hp⟩ | ⟨rest, -, hd⟩ | ⟨r', v, rest, hm, ht⟩ | ht | ⟨w, rest, hm, -⟩ | ⟨rest, hm, -⟩
  · exact servePulses_entry hp h
  · exact decTurn_entry hd r
  · rw [ht]
    exact State.entry_writeReg_other _ v fun he => hn (.inl ⟨v, he ▸ hm⟩)
  · exact State.entry_congr (congrArg State.cmd ht) (congrArg State.written ht) r
  · exact absurd (.inr (.inl ⟨w, hm⟩)) hn
  · exact absurd (.inr (.inr hm)) hn

/-- Settles O10: register by register, what a step that does not touch it leaves. -/
theorem commandRegistersAreHosts : Obligations.CommandRegistersAreHosts := by
  intro s t e
  have hkeep : ∀ {b b' : Bool} {n n' : Nat}, b = true → (b', n') = (b, n) → b' = true ∧ n' = n :=
    fun hb h => by cases h; exact ⟨hb, rfl⟩
  refine ⟨fun h hn => ?_, fun h hn => ?_, fun h hn => ?_, fun h hn => ?_, fun h hn => ?_⟩
  · exact (hkeep h (step_entry e (r := .fmt) h hn)).imp_right BitVec.eq_of_toNat_eq
  · exact hkeep h (step_entry e (r := .width) h hn)
  · exact hkeep h (step_entry e (r := .height) h hn)
  · exact hkeep h (step_entry e (r := .srcLen) h hn)
  · exact hkeep h (step_entry e (r := .dstLen) h hn)

/-! ### What each operation leaves of STATUS -/

theorem State.startCommand_status (s : State) :
    s.startCommand.status = .busy ∨ s.startCommand.status = .error := by
  rw [State.startCommand_eq]
  cases validate s.sample.cmd with
  | none => exact .inl rfl
  | some e => exact .inr rfl

theorem State.start_status {s : State} (h : s.status ≠ .busy) : s.start.status = .busy ∨ s.start.status = .error := by
  rw [State.start, if_neg h]; exact s.startCommand_status

theorem State.acknowledge_status {s : State} (h : s.status ≠ .busy) : s.acknowledge.status = .idle := by
  unfold State.acknowledge
  split
  · rfl
  · rfl
  · assumption
  · contradiction

/-- How serving pulses changes STATUS (10_state.md R14): by START, or by ACK alone. -/
theorem servePulses_status {s t : State} (e : servePulses s = .next t) (hne : t.status ≠ s.status) :
    s.status ≠ .busy ∧ ((s.ctrl.getLsbD 0 = true ∧ (t.status = .busy ∨ t.status = .error)) ∨
      (s.ctrl.getLsbD 1 = true ∧ s.ctrl.getLsbD 0 = false ∧ t.status = .idle)) := by
  have hb : s.status ≠ .busy := fun hb => by
    rw [servePulses_busy hb] at e; cases e; exact hne rfl
  refine ⟨hb, ?_⟩
  rcases servePulses_cases s with ⟨hc, he⟩ | ⟨hc, he⟩ | ⟨hc, he⟩ | ⟨hc, he⟩ <;> rw [he] at e <;> cases e <;> rw [hc]
  · exact absurd rfl hne
  · exact .inl ⟨rfl, State.start_status hb⟩
  · exact .inr ⟨rfl, rfl, State.acknowledge_status hb⟩
  · exact .inl ⟨rfl, State.start_status (by rw [State.acknowledge_status hb]; decide)⟩

theorem Datapath.turn_status (d : Datapath) (s : State) :
    (d.turn s).status = .done ∨ (d.turn s).status = s.status := by
  have hfinish : ∀ u : State, (d.finish u).status = .done ∨ (d.finish u).status = u.status := fun u => by
    unfold Datapath.finish
    split
    · exact .inl u.complete_status
    · exact .inr rfl
  unfold Datapath.turn
  split
  · rw [← d.pixel_status s]; exact hfinish _
  · exact hfinish s

/-- A running command that a turn ends stands at its last pixel. -/
theorem Running.lastPixel_of_done {s : State} {d : Datapath} (h : Running s d) (hb : s.status = .busy)
    (hdone : (d.turn s).status = .done) : lastPixel s := by
  have hend : d.bound s.cmd ≤ (d.pixel s).seq := by
    rw [d.turn_eq h.inBound, Datapath.finish, (d.pixel_frame s).cmd] at hdone
    by_contra hlt
    rw [if_neg hlt, d.pixel_status, hb] at hdone
    cases hdone
  have hin := h.inBound
  have hkind := h.isBlock
  unfold lastPixel
  cases d with
  | linear bpp load =>
    have hf : s.cmd.fmt.toNat < 20 := by simpa [Datapath.isBlock] using hkind
    rw [if_pos hf]
    exact Nat.le_antisymm hin hend
  | block oba =>
    have hf : ¬ s.cmd.fmt.toNat < 20 := by simpa [Datapath.isBlock] using hkind
    rw [if_neg hf]
    simp only [Datapath.pixel, blockPixel_seq, Datapath.bound] at hend hin
    split at hend
    · next hsub => exact ⟨hsub, Nat.le_antisymm hin hend⟩
    · omega

/-- How DEC's turn changes STATUS: from BUSY to DONE, in a state of the invariant with the last pixel. -/
theorem decTurn_status {s t : State} (e : decTurn s = .next t) (hne : t.status ≠ s.status) :
    s.status = .busy ∧ t.status = .done ∧ (Inv s → lastPixel s) := by
  by_cases hb : s.status = .busy
  · have hdone : t.status = .done := by
      rw [decTurn, if_pos hb] at e
      split at e
      · next d _ => cases e; exact (d.turn_status s).resolve_right hne
      · cases e
    refine ⟨hb, hdone, fun hinv => ?_⟩
    obtain ⟨d, hr⟩ := hinv.running hb
    rw [hr.decTurn_eq hb] at e
    cases e
    exact hr.lastPixel_of_done hb hdone
  · rw [decTurn, if_neg hb] at e
    cases e
    exact absurd rfl hne

/-- How a whole command changes STATUS: outside BUSY to DONE or ERROR (20_memory.md R52). -/
theorem exec_command_status {c : Cmd} {s t : State} (e : exec (decodeCmd c) s = .next t)
    (hne : t.status ≠ s.status) : s.status ≠ .busy ∧ (t.status = .done ∨ t.status = .error) := by
  have hargs := args?_decodeCmd c
  rcases instr_shape s.params (decodeCmd c) with ⟨f, d, a, -, -, hd, hm⟩ | ⟨f, a, -, -, hf, hm⟩ | hi | hi
  · rw [hm s rfl] at e
    cases e
    have hb : s.status ≠ .busy := fun hb => hne (by rw [State.runCommand_busy hb])
    refine ⟨hb, ?_⟩
    cases hv : validate (a.toCmd s.params f) with
    | none => exact .inl (State.runCommand_spec hb hd hv).status
    | some k => exact .inr (by rw [State.runCommand_refused hb hv]; rfl)
  · rw [hm s rfl] at e
    cases e
    have hb : s.status ≠ .busy := fun hb => hne (by rw [State.refuseCommand_busy hb])
    exact ⟨hb, .inr (by rw [State.refuseCommand_eq hb hf]; rfl)⟩
  · rw [hi] at hargs; cases hargs
  · rw [hi] at hargs; cases hargs

/-- Settles O11: each case of a step changes STATUS in its own way, register writes and memory accesses not at all. -/
theorem statusTransitions : Obligations.StatusTransitions := by
  intro s t e hne
  rcases step_case e with ⟨rest, hp⟩ | ⟨rest, hdec, hd⟩ | ⟨r, v, rest, -, ht⟩ | ht | ⟨w, rest, hm, hx⟩ | ⟨rest, hm, ht⟩
  · obtain ⟨hb, ⟨h0, hst⟩ | ⟨h1, h0, hst⟩⟩ := servePulses_status hp hne
    · exact .inl ⟨hb, h0, hst⟩
    · have hleave : s.status = .done ∨ s.status = .error := by
        have hidle : s.status ≠ .idle := fun hi => hne (hst.trans hi.symm)
        cases hs : s.status with
        | idle => exact absurd hs hidle
        | busy => exact absurd hs hb
        | done => exact .inl rfl
        | error => exact .inr rfl
      exact .inr (.inr (.inl ⟨hleave, h1, h0, hst⟩))
  · obtain ⟨hb, hst, hlast⟩ := decTurn_status hd hne
    have hinv : Inv s → Inv { s with bus := rest } := fun h => h.of_same rfl rfl rfl rfl rfl rfl rfl rfl rfl rfl
    exact .inr (.inl ⟨hb, hdec, hst, fun h => hlast (hinv h)⟩)
  · exact absurd (by rw [ht, State.writeReg_status]) hne
  · exact absurd (congrArg State.status ht) hne
  · obtain ⟨hb, hst⟩ := exec_command_status hx hne
    exact .inr (.inr (.inr (.inr ⟨hb, ⟨w, hm⟩, hst⟩)))
  · exact .inr (.inr (.inr (.inl ⟨hm, by rw [ht]; rfl⟩)))

end Sys2Proof.Machine
end

section
/-! The two memories (20_memory.md R40 to R56): what HOST's loads and stores do, that only HOST's stores change SRC,
and which bytes of DST a turn of DEC leaves, or spoils when HOST broke its duties. -/

namespace Sys2Proof.Machine

open Sys2Proof.Claims

/-! ### HOST's loads and stores -/

/-- An access at an offset that exists is the whole step, once it is off HOST's moves. -/
theorem step_access {s : State} {m : HostMove} {rest : List HostMove} {off : Nat} {access : State → Result}
    (hc : s.ctrl = 0) (hbus : s.bus = m :: rest) (hm : ∀ u, hostMove m u = atOffset off u access)
    (ho : off < 2 ^ s.params.lenw) : step s = access { s with bus := rest } := by
  rw [step_of_move hc hbus, hm]
  exact atOffset_lt (s := { s with bus := rest }) ho access

/-- An access at an offset that does not exist is refused (20_memory.md R40; log 22). -/
theorem step_access_refused {s : State} {m : HostMove} {rest : List HostMove} {off : Nat} (hc : s.ctrl = 0)
    (hbus : s.bus = m :: rest) (hm : accesses m off) (ho : 2 ^ s.params.lenw ≤ off) :
    step s = .refused (.noSuchOffset off) := by
  rw [step_of_move hc hbus]
  rcases hm with ⟨v, rfl⟩ | ⟨v, rfl⟩ | rfl | rfl <;> exact atOffset_ge (s := { s with bus := rest }) ho _

/-- Settles O13: each access is the step's whole outcome, and a store reads back at its offset alone. -/
theorem hostMemoryAccess : Obligations.HostMemoryAccess := by
  intro s off v rest hc
  refine ⟨fun ho => ⟨fun hm hbus => ?_, fun hm hbus => ?_, fun hbus => ?_, fun hbus hseen => ?_⟩,
    fun ho m hm hbus => step_access_refused hc hbus hm ho⟩
  · exact ⟨s.src.write off v, step_access hc hbus (fun _ => rfl) ho, Memory.write_wf hm off v,
      Memory.read_write_same hm off v, fun _ => Memory.read_write_other s.src v⟩
  · exact ⟨s.dst.write off v, step_access hc hbus (fun _ => rfl) ho, Memory.write_wf hm off v,
      Memory.read_write_same hm off v, fun _ => Memory.read_write_other s.dst v⟩
  · exact step_access hc hbus (fun _ => rfl) ho
  · have hfree : ¬ (s.status = .busy ∧ off < s.cmd.dstLen) := fun ⟨hb, hlt⟩ =>
      hseen.elim (fun hn => hn hb) (Nat.not_le_of_lt hlt)
    exact (step_access hc hbus (fun _ => rfl) ho).trans (if_neg hfree)

/-- Settles O14: the load takes the next free value instead of the byte. -/
theorem busyDstReadIsFree : Obligations.BusyDstReadIsFree := by
  intro s off rest hc hb ho hlt hbus
  exact (step_access hc hbus (fun _ => rfl) ho).trans (if_pos ⟨hb, hlt⟩)

/-! ### SRC, operation by operation -/

@[simp] theorem State.start_src (s : State) : s.start.src = s.src := by
  by_cases hb : s.status = .busy
  · rw [State.start_busy hb]
  · rw [State.start_eq_of_not_busy hb]
    cases validate s.sampledCmd with
    | none => simp
    | some e => simp

/-- No instruction writes SRC: a command that runs only reads it, and one that is refused ends before it does. -/
theorem exec_src {i : Instr} {s t : State} (e : exec i s = .next t) : t.src = s.src := by
  rcases instr_shape s.params i with ⟨f, d, a, -, -, hd, hm⟩ | ⟨f, a, -, -, hf, hm⟩ | rfl | rfl
  · rw [hm s rfl] at e
    cases e
    by_cases hb : s.status = .busy
    · rw [State.runCommand_busy hb]
    · cases hv : validate (a.toCmd s.params f) with
      | none => exact (State.runCommand_spec hb hd hv).src
      | some k => rw [State.runCommand_refused hb hv]; rfl
  · rw [hm s rfl] at e
    cases e
    by_cases hb : s.status = .busy
    · rw [State.refuseCommand_busy hb]
    · rw [State.refuseCommand_eq hb hf]; rfl
  · cases e; simp
  · cases e; simp

/-- DEC's turn keeps the frame of the running command's turn, whatever the state. -/
theorem decTurn_frame {s t : State} (e : decTurn s = .next t) : RunFrame s t := by
  unfold decTurn at e
  split at e
  · split at e
    · next d _ => cases e; exact d.turn_frame s
    · cases e
  · cases e; exact RunFrame.rfl' s

theorem servePulses_src {s t : State} (e : servePulses s = .next t) : t.src = s.src := by
  rcases servePulses_cases s with ⟨-, he⟩ | ⟨-, he⟩ | ⟨-, he⟩ | ⟨-, he⟩ <;>
    (rw [he] at e; cases e; simp)

theorem hostWrite_src {r : Reg} {v : Nat} {s t : State} (e : hostWrite r v s = .next t) : t.src = s.src := by
  cases r with
  | ctrl => exact servePulses_src (s := s.setCtrl (s.ctrl ||| BitVec.ofNat 2 v)) e
  | _ => cases e; simp

theorem hostLoadDst_src {off : Nat} {s t : State} (e : hostLoadDst off s = .next t) : t.src = s.src := by
  unfold hostLoadDst at e
  split at e <;> (cases e; rfl)

/-- Of HOST's moves only a store to SRC changes SRC, at the one byte. -/
theorem hostMove_src {m : HostMove} {s t : State} (e : hostMove m s = .next t) :
    t.src = s.src ∨ ∃ off v, m = .storeSrc off v ∧ t.src = s.src.write off v := by
  cases m with
  | write n v =>
    simp only [hostMove] at e
    split at e
    · exact .inl (hostWrite_src e)
    · cases e
  | read n =>
    simp only [hostMove] at e
    split at e
    · cases e; exact .inl rfl
    · cases e
  | storeSrc off v => obtain ⟨-, e⟩ := atOffset_next e; cases e; exact .inr ⟨off, v, rfl, rfl⟩
  | loadSrc off => obtain ⟨-, e⟩ := atOffset_next e; cases e; exact .inl rfl
  | storeDst off v => obtain ⟨-, e⟩ := atOffset_next e; cases e; exact .inl rfl
  | loadDst off => exact .inl (hostLoadDst_src (atOffset_next e).2)
  | command w => exact .inl (exec_src (i := decodeCmd (Cmd.unpack s.params w)) e)
  | reset => cases e; exact .inl s.hostReset_src
  | wait => exact .inl (decTurn_frame e).src

/-- A step leaves SRC as it is, or is HOST's store of a byte to it. -/
theorem step_src {s t : State} (e : step s = .next t) :
    t.src = s.src ∨ ∃ off v, nextHostMove s = some (.storeSrc off v) ∧ t.src = s.src.write off v := by
  rcases step_cases e with ⟨-, hpulse⟩ | ⟨-, -, hdec⟩ | ⟨hc, m, rest, hbus, hmove⟩
  · exact .inl (servePulses_src hpulse)
  · exact .inl (decTurn_frame hdec).src
  · rcases hostMove_src hmove with hkeep | ⟨off, v, rfl, hsrc⟩
    · exact .inl hkeep
    · exact .inr ⟨off, v, nextHostMove_of_bus hc hbus, hsrc⟩

/-- Settles O12: the one move that changes SRC is HOST's store, which writes the byte at its own offset. -/
theorem srcIsReadOnlyToDec : Obligations.SrcIsReadOnlyToDec := by
  intro s t e
  rcases step_src e with hkeep | ⟨off, v, hm, hsrc⟩
  · exact ⟨.inl hkeep, fun _ _ _ o _ => by rw [hkeep]⟩
  · refine ⟨.inr ⟨off, v, hm⟩, fun off' v' hm' o ho => ?_⟩
    rw [hm] at hm'
    cases hm'
    rw [hsrc, Memory.read_write_other s.src v ho]

/-! ### DST at the end of a command (20_memory.md R56; log 12) -/

theorem State.read_scrambleDst {s : State} (hm : s.dst.wf) (off : Nat) :
    s.scrambleDst.dst.read off =
      if off < s.cmd.dstLen then Config.freeValue 8 (s.free + off) else s.dst.read off :=
  Memory.read_scramble hm s.free s.cmd.dstLen off

theorem State.complete_dst (s : State) : s.complete.dst = if s.tainted then s.scrambleDst.dst else s.dst := by
  unfold State.complete; split <;> rfl

/-- Completion leaves every byte past the declared range, marked or not. -/
theorem State.read_complete_rest {s : State} (hm : s.dst.wf) {off : Nat} (ho : s.cmd.dstLen ≤ off) :
    s.complete.dst.read off = s.dst.read off := by
  rw [State.complete_dst]
  split
  · rw [State.read_scrambleDst hm, if_neg (Nat.not_lt.2 ho)]
  · rfl

/-- Completion of a marked command spoils the declared range. -/
theorem State.read_complete_tainted {s : State} (hm : s.dst.wf) (ht : s.tainted = true) {off : Nat}
    (ho : off < s.cmd.dstLen) : s.complete.dst.read off = Config.freeValue 8 (s.free + off) := by
  rw [State.complete_dst, if_pos ht, State.read_scrambleDst hm, if_pos ho]

/-! ### DST over a turn of DEC -/

/-- A turn of a running command is its pixel, and completion where that was the last. -/
theorem Running.turn_cases {s : State} {d : Datapath} (h : Running s d) :
    d.turn s = d.pixel s ∨ d.turn s = (d.pixel s).complete := by
  rw [d.turn_eq h.inBound, Datapath.finish]
  split
  · exact .inr rfl
  · exact .inl rfl

theorem Running.pixel_dst_wf {s : State} {d : Datapath} (h : Running s d) (hm : s.dst.wf) : (d.pixel s).dst.wf := by
  rw [Datapath.pixel_dst (loaderOf_loadOk h.loader)]
  exact Memory.writePixel_wf hm _ _

/-- The pixel of a running command lies in the declared range (20_memory.md R47). -/
theorem Running.read_pixel_rest {s : State} {d : Datapath} (h : Running s d) {off : Nat} (ho : s.cmd.dstLen ≤ off) :
    (d.pixel s).dst.read off = s.dst.read off := by
  have haddr : d.addrAt s.cmd (d.pos s) < s.cmd.width * s.cmd.height := d.addrAt_lt (d.pos_lt_turns.2 h.inBound)
  obtain ⟨-, -, -, -, hdst, -⟩ := (validate_none_iff _).1 h.valid
  rw [Datapath.pixel_dst (loaderOf_loadOk h.loader), Memory.read_writePixel_other _ _ (.inr (by omega))]

/-- A turn of a running command leaves every byte past the declared range, the last one too. -/
theorem Running.read_turn_rest {s : State} {d : Datapath} (h : Running s d) (hm : s.dst.wf) {off : Nat}
    (ho : s.cmd.dstLen ≤ off) : (d.turn s).dst.read off = s.dst.read off := by
  have hpixel := h.read_pixel_rest ho
  rcases h.turn_cases with he | he
  · rw [he, hpixel]
  · rw [he, State.read_complete_rest (h.pixel_dst_wf hm) (by rwa [(d.pixel_frame s).cmd]), hpixel]

/-- A turn of a marked command goes on marked, or ends it with the declared range spoiled
(93_implementation_defined.md U4). -/
theorem Running.turn_tainted {s : State} {d : Datapath} (h : Running s d) (hm : s.dst.wf) (hb : s.status = .busy)
    (ht : s.tainted = true) :
    ((d.turn s).status = .busy ∧ (d.turn s).tainted = true) ∨
      ((d.turn s).status = .done ∧
        ∀ off < s.cmd.dstLen, (d.turn s).dst.read off = Config.freeValue 8 (s.free + off)) := by
  have hmark : (d.pixel s).tainted = true := (d.pixel_tainted s).trans ht
  rcases h.turn_cases with he | he
  · rw [he]
    exact .inl ⟨(d.pixel_status s).trans hb, hmark⟩
  · rw [he]
    refine .inr ⟨State.complete_status _, fun off ho => ?_⟩
    rw [State.read_complete_tainted (h.pixel_dst_wf hm) hmark (by rwa [(d.pixel_frame s).cmd]), d.pixel_free]

/-! ### The obligations on DEC's turn -/

/-- While BUSY ERR says that there is no error (10_state.md R14, R15). -/
theorem Inv.err_of_busy {s : State} (h : Inv s) (hb : s.status = .busy) : s.err = ⟨.none, 0⟩ := by
  obtain ⟨hstatus, hinfo⟩ := h.err
  have hcode : s.err.code = .none := by
    by_contra hc
    rw [hstatus.2 hc] at hb
    cases hb
  have hzero : s.err.info = 0 := by simpa [hcode] using hinfo
  exact congrArg₂ Err.mk hcode hzero

/-- Where DEC moves, a step is its turn, of a state that differs in HOST's moves alone. -/
theorem step_of_decMoves {s : State} (h : decMoves s) : ∃ rest, step s = decTurn { s with bus := rest } := by
  obtain ⟨hc, hbus | hwait⟩ := h
  · exact ⟨s.bus, step_of_idle hc hbus⟩
  · obtain ⟨rest, hbus⟩ := List.head?_eq_some_iff.1 hwait
    exact ⟨rest, step_of_move hc hbus⟩

/-- A step in which DEC moves while BUSY is a turn of the running command, and HOST's moves are all that it takes
off the state before. -/
theorem Inv.step_turn_of_decMoves {s : State} (h : Inv s) (hb : s.status = .busy) (hdec : decMoves s) :
    ∃ rest d, Running { s with bus := rest } d ∧ step s = .next (d.turn { s with bus := rest }) := by
  obtain ⟨rest, hstep⟩ := step_of_decMoves hdec
  have hrest : Inv { s with bus := rest } := h.of_same rfl rfl rfl rfl rfl rfl rfl rfl rfl rfl
  obtain ⟨d, hr⟩ := hrest.running hb
  exact ⟨rest, d, hr, hstep.trans (hr.decTurn_eq hb)⟩

/-- Settles O52: outside BUSY DEC's turn does nothing, and a running command writes in its declared range. -/
theorem decStaysInBounds : Obligations.DecStaysInBounds := by
  intro s t hinv hdec e off ho
  by_cases hb : s.status = .busy
  · obtain ⟨rest, d, hr, hstep⟩ := hinv.step_turn_of_decMoves hb hdec
    rw [hstep] at e
    cases e
    exact hr.read_turn_rest hinv.mem.2.1 ho
  · obtain ⟨rest, hstep⟩ := step_of_decMoves hdec
    rw [hstep, decTurn, if_neg hb] at e
    cases e
    rfl

/-- The mark that a store while BUSY leaves, if its offset lies in the declared range (log 12). -/
theorem marked_of_store {s : State} {off len : Nat} (hb : s.status = .busy) (ho : off < len) :
    (s.tainted || (s.status = .busy && off < len)) = true := by
  simp [hb, ho]

/-- Settles O15: the store sets the mark, the turns keep it, and completion of the marked command spoils DST. -/
theorem hostStoreWhileBusySpoilsDst : Obligations.HostStoreWhileBusySpoilsDst := by
  refine ⟨fun s t off v rest hc hb e => ⟨fun hbus ho => ?_, fun hbus ho => ?_⟩, fun s t hinv hb ht hdec e => ?_⟩
  · rw [step_of_move hc hbus] at e
    obtain ⟨-, e⟩ := atOffset_next e
    cases e
    exact marked_of_store hb ho
  · rw [step_of_move hc hbus] at e
    obtain ⟨-, e⟩ := atOffset_next e
    cases e
    exact marked_of_store hb ho
  · obtain ⟨rest, d, hr, hstep⟩ := hinv.step_turn_of_decMoves hb hdec
    rw [hstep] at e
    cases e
    have hm := hinv.mem.2.1
    refine (hr.turn_tainted hm hb ht).imp_right fun ⟨hdone, hfree⟩ => ⟨hdone, ?_, hfree, ?_⟩
    · rw [(d.turn_frame _).err]
      exact hinv.err_of_busy hb
    · exact fun off ho => hr.read_turn_rest hm ho

end Sys2Proof.Machine
end

section
/-! Encoding (30_encoding.md): decoder and encoder are inverse to each other, the codes without a loader are refused,
and the register interface with the sequencer does what the whole command does. -/

namespace Sys2Proof.Machine

open Sys2Proof.Claims

/-! ### Decoder and encoder (30_encoding.md R70 to R73) -/

/-- Settles O1: the round trip of each row of the opcode table, as its own law states it. -/
theorem decodeOfEncode : Obligations.DecodeOfEncode := by
  intro p i hw
  cases i with
  | rgba8888 a => exact Laws.RoundTrip.rgba8888 a p hw
  | bgra8888 a => exact Laws.RoundTrip.bgra8888 a p hw
  | argb8888 a => exact Laws.RoundTrip.argb8888 a p hw
  | abgr8888 a => exact Laws.RoundTrip.abgr8888 a p hw
  | rgb888 a => exact Laws.RoundTrip.rgb888 a p hw
  | bgr888 a => exact Laws.RoundTrip.bgr888 a p hw
  | bgrx8888 a => exact Laws.RoundTrip.bgrx8888 a p hw
  | uvlx8888 a => exact Laws.RoundTrip.uvlx8888 a p hw
  | uvwq8888 a => exact Laws.RoundTrip.uvwq8888 a p hw
  | rgb565 a => exact Laws.RoundTrip.rgb565 a p hw
  | bgr565 a => exact Laws.RoundTrip.bgr565 a p hw
  | bgra4444 a => exact Laws.RoundTrip.bgra4444 a p hw
  | bgra5551 a => exact Laws.RoundTrip.bgra5551 a p hw
  | bgrx5551 a => exact Laws.RoundTrip.bgrx5551 a p hw
  | i8 a => exact Laws.RoundTrip.i8 a p hw
  | ia88 a => exact Laws.RoundTrip.ia88 a p hw
  | a8 a => exact Laws.RoundTrip.a8 a p hw
  | uv88 a => exact Laws.RoundTrip.uv88 a p hw
  | rgb888Bluescreen a => exact Laws.RoundTrip.rgb888Bluescreen a p hw
  | bgr888Bluescreen a => exact Laws.RoundTrip.bgr888Bluescreen a p hw
  | dxt1 a => exact Laws.RoundTrip.dxt1 a p hw
  | dxt1OneBitAlpha a => exact Laws.RoundTrip.dxt1OneBitAlpha a p hw
  | p8 a => exact Laws.RoundTrip.p8 a p hw
  | dxt3 a => exact Laws.RoundTrip.dxt3 a p hw
  | dxt5 a => exact Laws.RoundTrip.dxt5 a p hw
  | float16 a => exact Laws.RoundTrip.float16 a p hw
  | unassigned26 a => exact Laws.RoundTrip.unassigned26 a p hw
  | unassigned27 a => exact Laws.RoundTrip.unassigned27 a p hw
  | unassigned28 a => exact Laws.RoundTrip.unassigned28 a p hw
  | unassigned29 a => exact Laws.RoundTrip.unassigned29 a p hw
  | unassigned30 a => exact Laws.RoundTrip.unassigned30 a p hw
  | unassigned31 a => exact Laws.RoundTrip.unassigned31 a p hw
  | start => exact Laws.RoundTrip.start p hw
  | ack => exact Laws.RoundTrip.ack p hw

/-- A register tuple whose values have their widths decodes to a well-formed instruction. -/
theorem decodeCmd_wellFormed {p : Params} {c : Cmd} (h : c.fits p) : (decodeCmd c).wellFormed p = true := by
  simp only [Instr.wellFormed, args?_decodeCmd]
  exact decide_eq_true h

/-- The four values of CTRL: no pulse, START, ACK, both (10_state.md R13). -/
theorem ctrl_values (v : BitVec 2) : v = 0 ∨ v = 1 ∨ v = 2 ∨ v = 3 := by
  revert v; decide

/-- Settles O2: a command word is unpacked into registers that fit, and packed again by the encoder; of the four
values of CTRL two are single pulses. -/
theorem encodeOfDecode : Obligations.EncodeOfDecode := by
  refine ⟨fun p w i h => ?_, fun p w => ⟨decodeCmd (Cmd.unpack p w), rfl⟩, fun p v i h => ?_, fun p v => ?_⟩
  · cases h
    have hfits := Cmd.unpack_fits p w
    have hwidth : 5 + 2 * p.dimw + 2 * (2 * p.dimw + 2) = p.cmdw := by
      simp only [Params.cmdw, Config.fmtw, Params.lenw]; omega
    refine ⟨?_, decodeCmd_wellFormed hfits⟩
    rw [encode_decodeCmd, CmdArgs.encode, Cmd.toCmd_args hfits, Cmd.pack_unpack, hwidth]
  · rcases ctrl_values v with rfl | rfl | rfl | rfl <;> cases h <;> exact ⟨rfl, rfl⟩
  · rcases ctrl_values v with rfl | rfl | rfl | rfl
    · exact iff_of_true ⟨.noPulse, rfl⟩ (.inl rfl)
    · exact iff_of_false (fun ⟨_, h⟩ => nomatch h) (by decide)
    · exact iff_of_false (fun ⟨_, h⟩ => nomatch h) (by decide)
    · exact iff_of_true ⟨.twoPulses, rfl⟩ (.inr rfl)

/-- Settles O3: the decoder evaluated on each of the ten words. -/
theorem wordsDecode : Obligations.WordsDecode :=
  ⟨rfl, rfl, rfl, rfl, rfl, rfl, rfl, rfl, rfl, rfl⟩

/-! ### Codes without a loader (30_encoding.md R73) -/

/-- What a code without a loader leaves: the command in its registers, and the exception with the code. -/
theorem State.refuseCommand_registers {s : State} (hb : s.status ≠ .busy) {n : Nat} (h : 22 ≤ n) (h' : n < 32)
    (a : CmdArgs) :
    s.refuseCommand (BitVec.ofNat _ n) a = { s with
      cmd := registers s.params n a, written := ⟨true, true, true, true, true⟩, seq := 0, sub := 0,
      status := .error, err := ⟨.unsupportedFormat, BitVec.ofNat _ n⟩ } := by
  have hcode : 22 ≤ (BitVec.ofNat Config.fmtw n).toNat := h.trans (Nat.mod_eq_of_lt h').ge
  rw [State.refuseCommand_eq hb hcode]
  rfl

/-- Settles O39: each of the ten codes is refused, whatever its operands. -/
theorem formatsWithoutLoaderAreRefused : Obligations.FormatsWithoutLoaderAreRefused := by
  intro p hp a s hb
  have hrefused := fun n h h' => State.refuseCommand_registers (n := n) hb h h' a
  simp only [List.mem_cons, List.not_mem_nil, or_false] at hp
  rcases hp with rfl | rfl | rfl | rfl | rfl | rfl | rfl | rfl | rfl | rfl <;>
    exact congrArg Host.Outcome.next (hrefused _ (by decide) (by decide))

/-! ### The five register writes (30_encoding.md R71) -/

theorem Reg.ofNumber?_number (r : Reg) : Reg.ofNumber? r.number = some r := by cases r <;> rfl

theorem Reg.number_inj {q r : Reg} (h : q.number = r.number) : q = r :=
  Option.some.inj (by rw [← Reg.ofNumber?_number q, h, Reg.ofNumber?_number])

/-- The five writes of a command overwrite any register write before them. -/
theorem State.writeCmd_writeReg (s : State) (r : Reg) (v : Nat) (k : Cmd) :
    (s.writeReg r v).writeCmd k = s.writeCmd k := by
  unfold State.writeReg
  split
  · rfl
  · cases r <;> rfl

/-- Once every register is as the five writes of a command leave it, those writes change nothing. -/
theorem State.writeCmd_of_entry {s : State} {k : Cmd} (h : ∀ r, s.entry r = (s.writeCmd k).entry r) :
    s.writeCmd k = s := by
  obtain ⟨hf', hf⟩ := Prod.mk.inj (h .fmt)
  obtain ⟨hw', hw⟩ := Prod.mk.inj (h .width)
  obtain ⟨hh', hh⟩ := Prod.mk.inj (h .height)
  obtain ⟨hs', hs⟩ := Prod.mk.inj (h .srcLen)
  obtain ⟨hd', hd⟩ := Prod.mk.inj (h .dstLen)
  have hwritten : s.written = ⟨true, true, true, true, true⟩ := (Written.all_iff _).1 ⟨hf', hw', hh', hs', hd'⟩
  have hcmd : s.cmd = k := (Cmd.mk.injEq ..).mpr ⟨BitVec.eq_of_toNat_eq hf, hw, hh, hs, hd⟩
  rw [State.writeCmd, ← hwritten, ← hcmd]

/-- The state with a command in its registers, each holding the bits it has (10_state.md R12, 30_encoding.md R71). -/
def State.loaded (s : State) (c : Cmd) : State := s.writeCmd (c.args.toCmd s.params c.fmt)

/-- Loading a command overwrites any register write before it. -/
theorem State.loaded_writeReg (s : State) (r : Reg) (v : Nat) (c : Cmd) : (s.writeReg r v).loaded c = s.loaded c := by
  rw [State.loaded, State.writeReg_params, State.writeCmd_writeReg]; rfl

/-- A register write of a command leaves its register as the whole command does. -/
theorem registerWrites_entry {c : Cmd} {m : HostMove} (h : m ∈ registerWrites c) :
    ∃ (r : Reg) (v : Nat), m = .write r.number v ∧ r ≠ .ctrl ∧
      ∀ s : State, s.status ≠ .busy → (s.writeReg r v).entry r = (s.loaded c).entry r := by
  simp only [registerWrites, List.mem_cons, List.not_mem_nil, or_false] at h
  rcases h with rfl | rfl | rfl | rfl | rfl
  · refine ⟨.fmt, _, rfl, by decide, fun s hb => ?_⟩
    rw [State.writeReg, if_neg hb]
    simp only [State.entry, BitVec.ofNat_toNat, BitVec.setWidth_eq]
    rfl
  · exact ⟨.width, _, rfl, by decide, fun s hb => by rw [State.writeReg, if_neg hb]; rfl⟩
  · exact ⟨.height, _, rfl, by decide, fun s hb => by rw [State.writeReg, if_neg hb]; rfl⟩
  · exact ⟨.srcLen, _, rfl, by decide, fun s hb => by rw [State.writeReg, if_neg hb]; rfl⟩
  · exact ⟨.dstLen, _, rfl, by decide, fun s hb => by rw [State.writeReg, if_neg hb]; rfl⟩

/-- Each register that the five writes of a command change is named by one of them. -/
theorem registerWrites_names (s : State) (c : Cmd) (r : Reg) :
    s.entry r = (s.loaded c).entry r ∨ ∃ v, .write r.number v ∈ registerWrites c := by
  cases r with
  | fmt => exact .inr ⟨_, .head _⟩
  | width => exact .inr ⟨_, .tail _ (.head _)⟩
  | height => exact .inr ⟨_, .tail _ (.tail _ (.head _))⟩
  | srcLen => exact .inr ⟨_, .tail _ (.tail _ (.tail _ (.head _)))⟩
  | dstLen => exact .inr ⟨_, .tail _ (.tail _ (.tail _ (.tail _ (.head _))))⟩
  | ctrl | status | err => exact .inl rfl

/-- HOST's register writes of a command, in any order and any number of times each, leave what the five writes leave,
if each register that is not yet so is among them. -/
theorem runSteps_registerWrites {c : Cmd} {ws rest : List HostMove} (n : Nat) {s : State} (hc : s.ctrl = 0)
    (hb : s.status ≠ .busy) (hws : ∀ m ∈ ws, m ∈ registerWrites c)
    (hall : ∀ r, s.entry r = (s.loaded c).entry r ∨ ∃ v, .write r.number v ∈ ws)
    (hbus : s.bus = ws ++ rest) :
    runSteps (ws.length + n) s = runSteps n { s.loaded c with bus := rest } := by
  induction ws generalizing s with
  | nil =>
    have hdone : s.loaded c = s := State.writeCmd_of_entry fun r => (hall r).resolve_right fun ⟨_, h⟩ => nomatch h
    rw [hdone, ← show s.bus = rest from hbus, List.length_nil, Nat.zero_add]
  | cons m ws ih =>
    obtain ⟨r, v, rfl, hr, hentry⟩ := registerWrites_entry (hws m (.head _))
    let u : State := { s with bus := ws ++ rest }
    have hstep : step s = .next (u.writeReg r v) := step_write_reg hc hbus (Reg.ofNumber?_number r) hr
    have hleft : ∀ q, (u.writeReg r v).entry q = ((u.writeReg r v).loaded c).entry q ∨
        ∃ w, .write q.number w ∈ ws := by
      intro q
      rw [u.loaded_writeReg]
      by_cases hq : q = r
      · rw [hq]; exact .inl (hentry u hb)
      · rw [State.entry_writeReg_other _ _ hq]
        refine (hall q).imp_right fun ⟨w, hw⟩ => ⟨w, (List.mem_cons.1 hw).resolve_left fun e => hq ?_⟩
        exact Reg.number_inj (HostMove.write.inj e).1
    calc runSteps (ws.length + 1 + n) s
        = runSteps (ws.length + n) (u.writeReg r v) := by
          rw [Nat.add_right_comm]; exact runSteps_step hstep _
      _ = runSteps n { (u.writeReg r v).loaded c with bus := rest } :=
          ih ((u.writeReg_ctrl r v).trans hc) ((u.writeReg_status r v).symm ▸ hb)
            (fun m hm => hws m (.tail _ hm)) hleft (u.writeReg_bus r v)
      _ = runSteps n { s.loaded c with bus := rest } := by rw [u.loaded_writeReg]; rfl

/-! ### START, and DEC's turns (46_dispatch.md R202, R211) -/

/-- The step of a CTRL write of START, with no pulse pending. -/
theorem step_write_start {s : State} {rest : List HostMove} (hc : s.ctrl = 0) (hbus : s.bus = .write 5 1 :: rest) :
    step s = .next (State.start { s with bus := rest }) := by
  let u : State := { s with bus := rest }
  have hu : u.setCtrl 0 = u := by rw [← show u.ctrl = 0 from hc]; rfl
  calc step s = servePulses (u.setCtrl 1) := step_write_ctrl hc hbus
    _ = exec .start (u.setCtrl 1) := servePulses_start rfl
    _ = .next ((u.setCtrl 1).start.setCtrl (1 &&& 2)) := rfl
    _ = .next (u.setCtrl 0).start := by rw [State.start_setCtrl, State.start_setCtrl]; rfl
    _ = .next u.start := by rw [hu]

section written
variable {s : State} {k : Cmd}

/-- START of an accepted command whose registers are written. -/
theorem State.start_writeCmd_accepted (hb : s.status ≠ .busy) (hv : validate k = none) :
    (s.writeCmd k).start = s.begun k := by
  rw [State.start, if_neg (by exact hb), State.startCommand_accepted (by rw [State.sample_writeCmd]; exact hv),
    State.sample_writeCmd]
  rfl

/-- START of a refused command whose registers are written. -/
theorem State.start_writeCmd_refused {e : ErrorKind} (hb : s.status ≠ .busy) (hv : validate k = some e) :
    (s.writeCmd k).start = { s.writeCmd k with seq := 0, sub := 0 }.raise e := by
  rw [State.start, if_neg (by exact hb), State.startCommand_refused (by rw [State.sample_writeCmd]; exact hv),
    State.sample_writeCmd]

/-- After a refused START nothing runs. -/
theorem runSteps_start_refused {e : ErrorKind} (hc : s.ctrl = 0) (hb : s.status ≠ .busy) (hbus : s.bus = [])
    (hv : validate k = some e) (n : Nat) :
    runSteps n (s.writeCmd k).start = .next ({ s.writeCmd k with seq := 0, sub := 0 }.raise e) := by
  rw [State.start_writeCmd_refused hb hv]
  exact runSteps_idle (by exact hc) (by exact hbus) (by nofun) n

end written

/-- After an accepted START, DEC's turns run the command to its end, and nothing happens after that. -/
theorem runSteps_start_accepted {s : State} (hc : s.ctrl = 0) (hb : s.status ≠ .busy) (hbus : s.bus = [])
    {f : BitVec Config.fmtw} {a : CmdArgs} {d : Datapath} (hd : loaderOf s.params.nibbles f = some d)
    (hv : validate (a.toCmd s.params f) = none) {n : Nat}
    (hn : (a.toCmd s.params f).width * (a.toCmd s.params f).height ≤ n) :
    runSteps n (s.writeCmd (a.toCmd s.params f)).start = .next (s.runCommand f d a) := by
  have hspec := State.runCommand_spec hb hd hv
  have hturns : d.turns (a.toCmd s.params f) ≤ n := by
    rw [d.turns_eq (validate_dimsOk hd hv)]; exact hn
  have hpos : d.pos (s.begun (a.toCmd s.params f)) = 0 := by cases d <;> rfl
  have hrun : runSteps (d.turns (a.toCmd s.params f)) (s.begun (a.toCmd s.params f)) =
      .next (s.runCommand f d a) := by
    rw [State.runCommand_accepted hb hv]
    exact runSteps_turns _ hd hc hbus rfl rfl (by rw [hpos, Nat.zero_add]; exact Nat.le_refl _)
  rw [State.start_writeCmd_accepted hb hv, ← Nat.add_sub_cancel' hturns, runSteps_add, hrun]
  exact runSteps_idle (hspec.ctrl.trans hc) (hspec.bus.trans hbus) (by rw [hspec.status]; decide) _

/-- The encoding of a command tells the registers that it loads. -/
theorem toCmd_of_encode_decodeCmd {p : Params} {c : Cmd} {f : BitVec Config.fmtw} {a : CmdArgs}
    (h : encode p (decodeCmd c) = a.encode p f) : c.args.toCmd p c.fmt = a.toCmd p f := by
  rw [encode_decodeCmd] at h
  exact (unpack_of_encode rfl).symm.trans (unpack_of_encode h.symm)

/-- START on the loaded registers, then at least one turn a pixel, is the whole command. -/
theorem runSteps_start_loaded {c : Cmd} {s : State} {n : Nat} (hc : s.ctrl = 0) (hb : s.status ≠ .busy)
    (hbus : s.bus = []) (hn : c.width * c.height ≤ n) :
    runSteps n (s.loaded c).start = exec (decodeCmd c) s := by
  have hargs := args?_decodeCmd c
  have harea : (c.args.toCmd s.params c.fmt).width * (c.args.toCmd s.params c.fmt).height ≤ n :=
    (Nat.mul_le_mul (Nat.mod_le _ _) (Nat.mod_le _ _)).trans hn
  rw [State.loaded]
  rcases instr_shape s.params (decodeCmd c) with ⟨f, d, a, -, he, hd, hm⟩ | ⟨f, a, -, he, hf, hm⟩ | hi | hi
  · have hk := toCmd_of_encode_decodeCmd he
    rw [hk] at harea ⊢
    rw [hm s rfl]
    cases hv : validate (a.toCmd s.params f) with
    | none => exact runSteps_start_accepted hc hb hbus hd hv harea
    | some e => rw [runSteps_start_refused hc hb hbus hv, State.runCommand_refused hb hv]
  · rw [toCmd_of_encode_decodeCmd he, hm s rfl, runSteps_start_refused hc hb hbus (validate_unsupported hf),
      State.refuseCommand_eq hb hf, CmdArgs.toCmd_fmt]
  · rw [hi] at hargs; cases hargs
  · rw [hi] at hargs; cases hargs

/-- Settles O54: the writes leave the command in its registers, and START with DEC's turns is then the whole command. -/
theorem sequenceRefinesCommand : Obligations.SequenceRefinesCommand := by
  intro c ws s n hc hb hws hbus hn
  have hwrites := runSteps_registerWrites (1 + n) hc hb (fun m hm => (hws m).1 hm)
    (fun r => (registerWrites_names s c r).imp_right fun ⟨v, hv⟩ => ⟨v, (hws _).2 hv⟩) hbus
  let u : State := { s with bus := [] }
  calc runSteps (ws.length + 1 + n) s
      = runSteps (1 + n) { s.loaded c with bus := [.write 5 1] } := by
        rw [Nat.add_assoc]; exact hwrites
    _ = runSteps n (u.loaded c).start := by
        rw [Nat.add_comm]; exact runSteps_step (step_write_start (by exact hc) rfl) n
    _ = exec (decodeCmd c) u := runSteps_start_loaded hc hb rfl hn

end Sys2Proof.Machine
end

section
/-! Bit expansion (40_bit_expansion.md R100 to R105): the fields of a 565 word, and the values that the expanders give
them, in numbers. -/

namespace Sys2Proof.Machine

open Sys2Proof.Claims

/-! ### The fields of a 565 word (R100, R103) -/

/-- Settles O22: each field is its bits of the little-endian word, times the power of two of its padding. -/
theorem decomp565Fields : Obligations.Decomp565Fields := by
  intro a b v
  exact ⟨(decomp565_f0 a b).trans (Nat.mul_comm _ _), (decomp565_f1 a b).trans (Nat.mul_comm _ _),
    (decomp565_f2 a b).trans (Nat.mul_comm _ _)⟩

/-- Settles O24: each component is the widened field of the word. -/
theorem expand565Values : Obligations.Expand565Values := by
  intro a b v
  exact ⟨expand565_e0 a b, expand565_e1 a b, expand565_e2 a b⟩

/-! ### The closed forms of `up5` and `up6` on their domains (R102) -/

theorem wide5_mono : Monotone wide5 := fun m n h => by
  unfold wide5; omega

theorem wide6_mono : Monotone wide6 := fun m n h => by
  unfold wide6; omega

theorem up5_u8_toNat {n : Nat} (h : n ≤ 31) : (up5 (u8 (8 * n))).toNat = wide5 n :=
  up5_toNat (Nat.mod_eq_of_lt (by omega))

theorem up6_u8_toNat {n : Nat} (h : n ≤ 63) : (up6 (u8 (4 * n))).toNat = wide6 n :=
  up6_toNat (Nat.mod_eq_of_lt (by omega))

theorem up5_u8_mono {m n : Nat} (hmn : m ≤ n) (hn : n ≤ 31) :
    (up5 (u8 (8 * m))).toNat ≤ (up5 (u8 (8 * n))).toNat := by
  rw [up5_u8_toNat (hmn.trans hn), up5_u8_toNat hn]
  exact wide5_mono hmn

theorem up6_u8_mono {m n : Nat} (hmn : m ≤ n) (hn : n ≤ 63) :
    (up6 (u8 (4 * m))).toNat ≤ (up6 (u8 (4 * n))).toNat := by
  rw [up6_u8_toNat (hmn.trans hn), up6_u8_toNat hn]
  exact wide6_mono hmn

/-- Settles O23: the formula is the definition of `upsample` at 5 and 6; the ends 0 and 31, 0 and 63 are instances
of the closed forms. -/
theorem upsampleValues : Obligations.UpsampleValues := by
  have closed5 : ∀ n ≤ 31, up5 (u8 (8 * n)) = u8 (wide5 n) := fun n h => eq_u8 (up5_u8_toNat h)
  have closed6 : ∀ n ≤ 63, up6 (u8 (4 * n)) = u8 (wide6 n) := fun n h => eq_u8 (up6_u8_toNat h)
  refine ⟨fun v => rfl, fun v => rfl, closed5, closed6, ?_, ?_, ?_, ?_,
    fun m n => up5_u8_mono, fun m n => up6_u8_mono⟩
  · exact closed5 0 (by decide)
  · exact closed6 0 (by decide)
  · exact closed5 31 (by decide)
  · exact closed6 63 (by decide)

/-! ### A nibble and a single bit (R104, R105) -/

theorem rep4_lt_rep4 {m n : BitVec 4} (h : m.toNat < n.toNat) : (rep4 m).toNat < (rep4 n).toNat := by
  rw [rep4_toNat, rep4_toNat]
  exact Nat.mul_lt_mul_of_pos_left h (by decide)

/-- Settles O25: the doubled nibble is 17 times its value, hence strictly increasing; `sel1` at its two bits. -/
theorem rep4AndSel1 : Obligations.Rep4AndSel1 :=
  ⟨rep4_toNat, fun _ _ => rep4_lt_rep4, rfl, rfl⟩

end Sys2Proof.Machine
end

section
/-! Whole commands (46_dispatch.md R203 to R211): an accepted command with a loader leaves the image that its FMT code's
rule gives. Then the byte-lane formats (41_byte_lane.md R110 to R119). -/

namespace Sys2Proof.Machine

open Sys2Proof.Claims

/-! ### Operands that fit their registers -/

theorem CmdArgs.toCmd_of_fits {p : Params} {a : CmdArgs} (h : a.fits p) (f : BitVec Config.fmtw) :
    a.toCmd p f = ⟨f, a.width, a.height, a.srcLen, a.dstLen⟩ := by
  obtain ⟨hw, hh, hs, hd⟩ := h
  simp only [CmdArgs.toCmd, Nat.mod_eq_of_lt hw, Nat.mod_eq_of_lt hh, Nat.mod_eq_of_lt hs, Nat.mod_eq_of_lt hd]

/-- LENW has room for four bytes a pixel of the largest image (00_scope.md R7). -/
theorem area_mul_four_lt {p : Params} {w h : Nat} (hw : w < 2 ^ p.dimw) (hh : h < 2 ^ p.dimw) :
    w * h * 4 < 2 ^ p.lenw := by
  have harea : w * h < 2 ^ p.dimw * 2 ^ p.dimw := Nat.mul_lt_mul_of_lt_of_lt hw hh
  rw [Params.lenw, Nat.two_mul, Nat.pow_add, Nat.pow_add]
  omega

/-! ### Operands that pass validation (R203 to R205) -/

/-- Validation in the terms of the loader: dimensions that suit it, and the length that it fetches. -/
theorem validate_none_of_loader {k : NibbleMap} {c : Cmd} {d : Datapath} (hd : loaderOf k c.fmt = some d)
    (hw : 0 < c.width) (hh : 0 < c.height) (hdims : d.dimsOk c) (hl : c.dstLen = c.width * c.height * 4)
    (hs : c.srcLen = d.bound c * d.stride) : validate c = none := by
  have hf : c.fmt.toNat < 22 := Nat.lt_of_not_le fun hge => by
    rw [(loaderOf_none_iff k c.fmt).2 hge] at hd; cases hd
  have hblock : isBlockFormat c.fmt.toNat = true → c.width % 4 = 0 ∧ c.height % 4 = 0 := fun hb => by
    cases d with
    | linear _ _ => rw [loaderOf_block hd] at hb; cases hb
    | block _ => exact hdims
  refine (validate_none_iff c).2 ⟨hf, hw, hh, hblock, hl, ?_⟩
  rw [requiredSrcLen_eq hf hblock, hs, srcLenOf_eq_stride hd]

section linear
variable {p : Params} {a : CmdArgs} {k : NibbleMap} {f : BitVec Config.fmtw} {bpp : Nat} {load : InReg → LoadOut}
  (hd : loaderOf k f = some (.linear bpp load))
include hd

/-- A linear loader fetches at most four bytes a pixel, as the lengths of a one-pixel image show. -/
theorem bpp_le_four : bpp ≤ 4 := by
  have hone : srcLenOf f.toNat 1 1 = 1 * 1 * bpp := srcLenOf_eq_stride (c := ⟨f, 1, 1, 0, 0⟩) hd
  have hle : srcLenOf f.toNat 1 1 ≤ 4 := by unfold srcLenOf; split <;> decide
  omega

theorem fits_of_validLinear (h : ValidLinear p bpp a) : a.fits p := by
  obtain ⟨⟨-, hw⟩, ⟨-, hh⟩, hs, hl⟩ := h
  have hfour := area_mul_four_lt hw hh
  have hstride : a.width * a.height * bpp ≤ a.width * a.height * 4 := Nat.mul_le_mul_left _ (bpp_le_four hd)
  exact ⟨hw, hh, hs ▸ hstride.trans_lt hfour, hl ▸ hfour⟩

theorem validate_of_validLinear (h : ValidLinear p bpp a) : validate (a.toCmd p f) = none := by
  rw [CmdArgs.toCmd_of_fits (fits_of_validLinear hd h)]
  obtain ⟨⟨hw, -⟩, ⟨hh, -⟩, hs, hl⟩ := h
  exact validate_none_of_loader hd hw hh trivial hl hs

end linear

/-! ### The image and the frame of an accepted command (R206 to R211) -/

/-- What an accepted command leaves, in the terms of the statements: its image is that of its FMT code. -/
theorem Accomplished.decoded {s t : State} {a : CmdArgs} {d : Datapath} {n : Nat} (hn : n < 32)
    (h : Accomplished s t (a.toCmd s.params (BitVec.ofNat _ n)) d)
    (hd : loaderOf s.params.nibbles (BitVec.ofNat _ n) = some d)
    (hv : validate (a.toCmd s.params (BitVec.ofNat _ n)) = none) (hfits : a.fits s.params) (hm : s.dst.wf) :
    Decoded n a (pixelOf s.params.nibbles n a.width s.src) s t := by
  have hpx := loaderOf_decodes hd
  rw [show (BitVec.ofNat Config.fmtw n).toNat = n from Nat.mod_eq_of_lt hn] at hpx
  have himage := h.image (validate_dimsOk hd hv) hm
  rw [CmdArgs.toCmd_of_fits hfits] at himage
  obtain ⟨hpixels, hrest⟩ := himage
  exact {
    params := h.params
    cmd := h.cmd
    written := (Written.all_iff _).1 h.written
    status := h.status
    err := h.err
    image := fun p hp => by rw [bytesAt_eq, hpixels p hp, hpx]
    rest := fun off ho => hrest off ((Nat.mul_comm _ _).trans_le ho)
    src := h.src
    ctrl := h.ctrl
    tainted := h.tainted
    readData := h.readData
    free := h.free
    bus := h.bus }

/-- An instruction that runs the linear loader of its FMT code decodes as the rule of that code says. -/
theorem linearDecodesBy_of_loader {i : CmdArgs → Instr} {n bpp : Nat} {px : Params → Memory → Nat → List Byte}
    {load : NibbleMap → InReg → LoadOut} (hn : n < 32)
    (hload : ∀ k, loaderOf k (BitVec.ofNat _ n) = some (.linear bpp (load k)))
    (hexec : ∀ a s, exec (i a) s = .next (s.runCommand (BitVec.ofNat _ n) (.linear bpp (load s.params.nibbles)) a))
    (hpx : ∀ p w, pixelOf (Params.nibbles p) n w = px p) : LinearDecodesBy i n bpp px := by
  intro a s hb hm hvalid
  have hd := hload s.params.nibbles
  have hv := validate_of_validLinear hd hvalid
  have hdecoded := (State.runCommand_spec hb hd hv).decoded hn hd hv (fits_of_validLinear hd hvalid) hm
  rw [hpx] at hdecoded
  exact ⟨_, hexec a s, hdecoded⟩

/-! ### The byte-lane formats (41_byte_lane.md R110) -/

/-- The instruction of a byte-lane format decodes as the rule of its FMT code says. Its row of the dispatch table, its
arm of `exec` and its rule are read off their definitions. -/
theorem byteLane_decodes (ir ig ib : Fin 4) (ia : Option (Fin 4)) {i : CmdArgs → Instr} {n bpp : Nat}
    {px : Memory → Nat → List Byte} (hn : n < 32 := by decide)
    (hload : ∀ k, loaderOf k (BitVec.ofNat _ n) = some (.linear bpp (generic ir ig ib ia)) := by exact fun _ => rfl)
    (hexec : ∀ a s, exec (i a) s = .next (s.runCommand (BitVec.ofNat _ n) (.linear bpp (generic ir ig ib ia)) a) := by
      exact fun _ _ => rfl)
    (hpx : ∀ k w, pixelOf k n w = px := by exact fun _ _ => rfl) : LinearDecodes i n bpp px :=
  linearDecodesBy_of_loader hn hload hexec fun p => hpx p.nibbles

/-- Settles O26: `RGBA8888` copies the four lanes, `BGRA8888` exchanges lanes 0 and 2. -/
theorem rgbaAndBgraDecode : Obligations.RgbaAndBgraDecode :=
  ⟨byteLane_decodes 0 1 2 (some 3), byteLane_decodes 2 1 0 (some 3)⟩

/-- Settles O27: lanes 0 to 3 are green, blue, alpha and red. -/
theorem argbDecodes : Obligations.ArgbDecodes := by
  unfold Obligations.ArgbDecodes
  exact byteLane_decodes 3 0 1 (some 2)

/-- Settles O28: the four lanes in reverse. -/
theorem abgrDecodes : Obligations.AbgrDecodes := by
  unfold Obligations.AbgrDecodes
  exact byteLane_decodes 3 2 1 (some 0)

/-- Settles O29: three lanes and no alpha lane, so alpha is 255. -/
theorem rgbAndBgr888Decode : Obligations.RgbAndBgr888Decode :=
  ⟨byteLane_decodes 0 1 2 none, byteLane_decodes 2 1 0 none⟩

/-- Settles O30: the lanes of `BGR888` at stride 4. -/
theorem bgrxDecodes : Obligations.BgrxDecodes := by
  unfold Obligations.BgrxDecodes
  exact byteLane_decodes 2 1 0 none

/-- Settles O31: the lanes of `RGBA8888`, under codes 7 and 8. -/
theorem uvlxAndUvwqDecode : Obligations.UvlxAndUvwqDecode :=
  ⟨byteLane_decodes 0 1 2 (some 3), byteLane_decodes 0 1 2 (some 3)⟩

end Sys2Proof.Machine
end

section
/-! The packed-bit formats (42_packed_bit.md R130 to R136): whole commands, over the little-endian word of a pixel. -/

namespace Sys2Proof.Machine

open Sys2Proof.Claims

/-! ### The commands (R131 to R135) -/

/-- The instruction of a linear format decodes as the rule of its FMT code says. Its row of the dispatch table, its arm
of `exec` and its rule are read off their definitions; what the loader computes is `loaderOf_decodes`. -/
theorem linearFormat_decodes (load : NibbleMap → InReg → LoadOut) {i : CmdArgs → Instr} {n bpp : Nat}
    {px : Params → Memory → Nat → List Byte} (hn : n < 32 := by decide)
    (hload : ∀ k, loaderOf k (BitVec.ofNat _ n) = some (.linear bpp (load k)) := by exact fun _ => rfl)
    (hexec : ∀ a s, exec (i a) s = .next (s.runCommand (BitVec.ofNat _ n) (.linear bpp (load s.params.nibbles)) a) := by
      exact fun _ _ => rfl)
    (hpx : ∀ p w, pixelOf (Params.nibbles p) n w = px p := by exact fun _ _ => rfl) : LinearDecodesBy i n bpp px :=
  linearDecodesBy_of_loader hn hload hexec hpx

/-- Settles O32: both expand the three fields of the word, and differ in the channel that each field feeds. -/
theorem packed565Decode : Obligations.Packed565Decode :=
  ⟨linearFormat_decodes fun _ => loadRgb565, linearFormat_decodes fun _ => loadBgr565⟩

/-- Settles O34: both expand the three fields of the word, and differ in what they do with its top bit. -/
theorem packed5551Decode : Obligations.Packed5551Decode :=
  ⟨linearFormat_decodes fun _ => loadBgra5551, linearFormat_decodes fun _ => loadBgrx5551⟩

/-! ### The default NIBBLE_MAP (R133; 92_eei_decisions.md D11) -/

theorem word_lt (m : Memory) (o : Nat) : word m o < 65536 := by
  have hlow := byte_lt (m.read o)
  have hhigh := byte_lt (m.read (o + 1))
  unfold word; omega

/-- Nibble 0 is the bare remainder, and nibble 3, the highest, needs none. -/
theorem pxNibbles_standard : pxNibbles NibbleMap.standard = pxBgra4444 := by
  funext m p
  have hblue : word m (2 * p) / 16 ^ 0 % 16 = word m (2 * p) % 16 := by rw [pow_zero, Nat.div_one]
  have halpha : word m (2 * p) / 16 ^ 3 % 16 = word m (2 * p) / 4096 :=
    Nat.mod_eq_of_lt (Nat.div_lt_of_lt_mul (word_lt m (2 * p)))
  simp only [pxBgra4444, ← hblue, ← halpha]; rfl

/-- Settles O33: the loader takes the unit's map; under the default one its image is R133's own. -/
theorem bgra4444Decodes : Obligations.Bgra4444Decodes := by
  have hdecodes : LinearDecodesBy .bgra4444 11 2 fun p => pxNibbles p.nibbles := linearFormat_decodes loadBgra4444
  refine ⟨hdecodes, fun a s hb hm hvalid hmap => ?_⟩
  have hpx : pxNibbles s.params.nibbles = pxBgra4444 := hmap ▸ pxNibbles_standard
  exact hpx ▸ hdecodes a s hb hm hvalid

/-! ### `BGR565` against `RGB565` (R132) -/

/-- The two formulas give the same three channels, the outer two exchanged. -/
theorem pxBgr565_swaps_pxRgb565 (m : Memory) (p : Nat) :
    ∃ r g b, pxRgb565 m p = [r, g, b, 255] ∧ pxBgr565 m p = [b, g, r, 255] :=
  ⟨_, _, _, rfl, rfl⟩

theorem bytesAt_eq_iff {m : Memory} {p : Nat} {r g b a : Byte} :
    bytesAt m p = [r, g, b, a] ↔
      m.read (4 * p) = r ∧ m.read (4 * p + 1) = g ∧ m.read (4 * p + 2) = b ∧ m.read (4 * p + 3) = a := by
  simp [bytesAt]

/-- Settles O57: both commands complete, each with its own formula over the same SRC. -/
theorem bgr565SwapsRedAndBlue : Obligations.Bgr565SwapsRedAndBlue := by
  intro a s t u hb hm hvalid ht hu p hp
  obtain ⟨hrgb, hbgr⟩ := packed565Decode
  obtain ⟨_, ht', hrgb⟩ := hrgb a s hb hm hvalid
  obtain ⟨_, hu', hbgr⟩ := hbgr a s hb hm hvalid
  cases ht.symm.trans ht'
  cases hu.symm.trans hu'
  obtain ⟨r, g, b, hpxRgb, hpxBgr⟩ := pxBgr565_swaps_pxRgb565 s.src p
  obtain ⟨htr, htg, htb, hta⟩ := bytesAt_eq_iff.1 ((hrgb.image p hp).trans hpxRgb)
  obtain ⟨hur, hug, hub, hua⟩ := bytesAt_eq_iff.1 ((hbgr.image p hp).trans hpxBgr)
  exact ⟨hur.trans htb.symm, hub.trans htr.symm, hug.trans htg.symm, hua.trans hta.symm⟩

end Sys2Proof.Machine
end

section
/-! The scalar and dual-channel formats (43_scalar.md R150 to R154): one or two whole bytes a pixel, copied or broadcast,
and a constant in each channel without a source. -/

namespace Sys2Proof.Machine

open Sys2Proof.Claims

/-- Settles O35: each loader copies or broadcasts its byte or bytes, and sets the channels that they do not feed to
constants. -/
theorem scalarFormatsDecode : Obligations.ScalarFormatsDecode :=
  ⟨linearFormat_decodes fun _ => loadI8, linearFormat_decodes fun _ => loadIa88, linearFormat_decodes fun _ => loadA8,
    linearFormat_decodes fun _ => loadUv88⟩

end Sys2Proof.Machine
end

section
/-! The colour-key formats (44_colorkey.md R160 to R162): three bytes a pixel, routed to a triplet that is then tested
against the key. -/

namespace Sys2Proof.Machine

open Sys2Proof.Claims

/-- Settles O36: both loaders yield `keyed` of the routed triplet (`key_bytes`), and the command lemma carries that to
the image. -/
theorem bluescreenFormatsDecode : Obligations.BluescreenFormatsDecode :=
  ⟨linearFormat_decodes fun _ => loadRgb888Bluescreen, linearFormat_decodes fun _ => loadBgr888Bluescreen⟩

end Sys2Proof.Machine
end

section
/-! The DXT1 pair (45_dxt1.md R170 to R183): whole commands, what the option bit changes, and the derived channels of
the palette. -/

namespace Sys2Proof.Machine

open Sys2Proof.Claims

/-! ### Operands that fit and pass validation (46_dispatch.md R203 to R205) -/

section validBlock
variable {p : Params} {a : CmdArgs} (h : ValidBlock p a)
include h

/-- SRC holds half a byte a pixel, so its length fits where that of DST does. -/
theorem fits_of_validBlock : a.fits p := by
  obtain ⟨⟨-, hw, hw4⟩, ⟨-, hh, hh4⟩, hs, hl⟩ := h
  have hfour := area_mul_four_lt hw hh
  have harea : 16 * (a.width / 4 * (a.height / 4)) = a.width * a.height :=
    (Datapath.block false).turns_eq (c := ⟨0, a.width, a.height, 0, 0⟩) ⟨hw4, hh4⟩
  exact ⟨hw, hh, by omega, hl ▸ hfour⟩

theorem validate_of_validBlock {k : NibbleMap} {f : BitVec Config.fmtw} {oba : Bool}
    (hd : loaderOf k f = some (.block oba)) : validate (a.toCmd p f) = none := by
  rw [CmdArgs.toCmd_of_fits (fits_of_validBlock h)]
  obtain ⟨⟨hw, -, hw4⟩, ⟨hh, -, hh4⟩, hs, hl⟩ := h
  exact validate_none_of_loader hd hw hh ⟨hw4, hh4⟩ hl hs

end validBlock

/-! ### The commands (R181, R182) -/

/-- An instruction that runs the block decompressor of its FMT code decodes as the rule of that code says. Its row of
the dispatch table, its arm of `exec` and its rule are read off their definitions. -/
theorem blockFormat_decodes (oba : Bool) {i : CmdArgs → Instr} {n : Nat} (hn : n < 32 := by decide)
    (hload : ∀ k, loaderOf k (BitVec.ofNat _ n) = some (.block oba) := by exact fun _ => rfl)
    (hexec : ∀ a s, exec (i a) s = .next (s.runCommand (BitVec.ofNat _ n) (.block oba) a) := by exact fun _ _ => rfl)
    (hpx : ∀ k, pixelOf k n = pxDxt1 oba := by exact fun _ => rfl) : BlockDecodes i n oba := by
  intro a s hb hm hvalid
  have hd := hload s.params.nibbles
  have hv := validate_of_validBlock hvalid hd
  have hdecoded := (State.runCommand_spec hb hd hv).decoded hn hd hv (fits_of_validBlock hvalid) hm
  rw [hpx] at hdecoded
  exact ⟨_, hexec a s, hdecoded⟩

/-- Settles O37: the block decompressor with the option bit clear. -/
theorem dxt1Decodes : Obligations.Dxt1Decodes := by
  unfold Obligations.Dxt1Decodes
  exact blockFormat_decodes false

/-- Settles O38: the block decompressor with the option bit set. -/
theorem dxt1OneBitAlphaDecodes : Obligations.Dxt1OneBitAlphaDecodes := by
  unfold Obligations.Dxt1OneBitAlphaDecodes
  exact blockFormat_decodes true

/-! ### What the option bit changes (R177, R182) -/

theorem paletteAlpha_dxt1 (v0 v1 i : Nat) : paletteAlpha false v0 v1 i = 255 :=
  if_neg fun ⟨h, _⟩ => Bool.false_ne_true h

theorem paletteAlpha_sentinel {v0 v1 : Nat} (h : v0 ≤ v1) : paletteAlpha true v0 v1 3 = 0 :=
  if_pos ⟨rfl, rfl, Nat.not_lt.2 h⟩

theorem paletteAlpha_not_sentinel {v0 v1 i : Nat} (h : ¬ (i = 3 ∧ v0 ≤ v1)) : paletteAlpha true v0 v1 i = 255 :=
  if_neg fun ⟨_, hi, hmode⟩ => h ⟨hi, Nat.not_lt.1 hmode⟩

theorem paletteChannel_sentinel {v0 v1 : Nat} (h : v0 ≤ v1) (ch : Fin 3) : paletteChannel v0 v1 3 ch = 0 :=
  if_neg (Nat.not_lt.2 h)

/-- The pixel selects the sentinel: index 3 in a block in 3-colour mode. -/
def SelectsSentinel (m : Memory) (w p : Nat) : Prop :=
  indexOf m w p = 3 ∧ word m (8 * blockOf w p) ≤ word m (8 * blockOf w p + 2)

/-- The two formats give the same colour, and alpha 255 but where the sentinel is selected in the second. -/
theorem pxDxt1_pair (m : Memory) (w p : Nat) : ∃ r g b alpha,
    pxDxt1 false w m p = [r, g, b, 255] ∧ pxDxt1 true w m p = [r, g, b, alpha] ∧
      (SelectsSentinel m w p → alpha = 0 ∧ r = 0 ∧ g = 0 ∧ b = 0) ∧
      (¬ SelectsSentinel m w p → alpha = 255) := by
  refine ⟨_, _, _, _, ?_, rfl, ?_, fun h => ?_⟩
  · rw [pxDxt1, paletteAlpha_dxt1]; rfl
  · rintro ⟨hi, hmode⟩
    simp only [hi, paletteAlpha_sentinel hmode, paletteChannel_sentinel hmode]
    exact ⟨rfl, rfl, rfl, rfl⟩
  · rw [paletteAlpha_not_sentinel h]; rfl

/-- The colour bytes of a pixel, by number. -/
theorem forall_colour {P : Nat → Prop} (h0 : P 0) (h1 : P 1) (h2 : P 2) : ∀ j < 3, P j
  | 0, _ => h0
  | 1, _ => h1
  | 2, _ => h2

/-- Settles O58: both commands complete, each with its own formula over the same SRC. -/
theorem oneBitAlphaDiffersOnlyInSentinel : Obligations.OneBitAlphaDiffersOnlyInSentinel := by
  intro a s t u hb hm hvalid ht hu p hp
  obtain ⟨_, ht', hopaque⟩ := dxt1Decodes a s hb hm hvalid
  obtain ⟨_, hu', honebit⟩ := dxt1OneBitAlphaDecodes a s hb hm hvalid
  cases ht.symm.trans ht'
  cases hu.symm.trans hu'
  obtain ⟨r, g, b, alpha, hpxOpaque, hpxOnebit, hsentinel, hother⟩ := pxDxt1_pair s.src a.width p
  obtain ⟨htr, htg, htb, hta⟩ := bytesAt_eq_iff.1 ((hopaque.image p hp).trans hpxOpaque)
  obtain ⟨hur, hug, hub, hua⟩ := bytesAt_eq_iff.1 ((honebit.image p hp).trans hpxOnebit)
  refine ⟨forall_colour (hur.trans htr.symm) (hug.trans htg.symm) (hub.trans htb.symm), hta, fun h => ?_,
    fun h => hua.trans (hother h)⟩
  obtain ⟨halpha, hr, hg, hb⟩ := hsentinel h
  exact ⟨hua.trans halpha, forall_colour (hur.trans hr) (hug.trans hg) (hub.trans hb)⟩

/-! ### The derived channels of the palette (R175 to R178, R183) -/

/-- A truncated weighted mean lies between its two arguments. -/
theorem interpolate_between {wa wb d : Nat} (hd : wa + wb = d) (h0 : 0 < d) (x y : Byte) :
    min x.toNat y.toNat ≤ (interpolate wa wb d x y).toNat ∧
      (interpolate wa wb d x y).toNat ≤ max x.toNat y.toNat := by
  rw [interpolate_toNat hd h0]
  constructor
  · rw [Nat.le_div_iff_mul_le h0, Nat.mul_comm, ← hd, Nat.add_mul]
    exact Nat.add_le_add (Nat.mul_le_mul_left wa (Nat.min_le_left _ _)) (Nat.mul_le_mul_left wb (Nat.min_le_right _ _))
  · refine Nat.div_le_of_le_mul ?_
    rw [← hd, Nat.add_mul]
    exact Nat.add_le_add (Nat.mul_le_mul_left wa (Nat.le_max_left _ _)) (Nat.mul_le_mul_left wb (Nat.le_max_right _ _))

/-- One channel of palette entries 2 and 3, from that channel of the reference colours. -/
def derivedPair (m4 : Bool) (x y : Byte) : Byte × Byte :=
  if m4 then (interpolate 2 1 3 x y, interpolate 1 2 3 x y) else (interpolate 1 1 2 x y, 0)

/-- The three channels of a palette are derived alike. -/
theorem makePalette_derived (oba m4 : Bool) (c0 c1 : Rgb) :
    let pal := makePalette oba m4 c0 c1
    (pal.p2.r, pal.p3.r) = derivedPair m4 c0.r c1.r ∧ (pal.p2.g, pal.p3.g) = derivedPair m4 c0.g c1.g ∧
      (pal.p2.b, pal.p3.b) = derivedPair m4 c0.b c1.b := by
  cases m4 <;> exact ⟨rfl, rfl, rfl⟩

theorem derivedPair_fourColour (x y : Byte) :
    let q := derivedPair true x y
    q.1.toNat = (2 * x.toNat + y.toNat) / 3 ∧ q.2.toNat = (x.toNat + 2 * y.toNat) / 3 ∧
      min x.toNat y.toNat ≤ q.1.toNat ∧ q.1.toNat ≤ max x.toNat y.toNat ∧
      min x.toNat y.toNat ≤ q.2.toNat ∧ q.2.toNat ≤ max x.toNat y.toNat := by
  have hentry2 := interpolate_toNat (wa := 2) (wb := 1) rfl (by decide) x y
  have hentry3 := interpolate_toNat (wa := 1) (wb := 2) rfl (by decide) x y
  rw [Nat.one_mul] at hentry2 hentry3
  obtain ⟨hmin2, hmax2⟩ := interpolate_between (wa := 2) (wb := 1) rfl (by decide) x y
  obtain ⟨hmin3, hmax3⟩ := interpolate_between (wa := 1) (wb := 2) rfl (by decide) x y
  exact ⟨hentry2, hentry3, hmin2, hmax2, hmin3, hmax3⟩

theorem derivedPair_threeColour (x y : Byte) :
    (derivedPair false x y).1.toNat = (x.toNat + y.toNat) / 2 ∧ (derivedPair false x y).2.toNat = 0 := by
  have hmean := interpolate_toNat (wa := 1) (wb := 1) rfl (by decide) x y
  rw [Nat.one_mul, Nat.one_mul] at hmean
  exact ⟨hmean, rfl⟩

/-- Settles O59: each channel is `derivedPair` of its references, in the mode that the raw words choose. -/
theorem derivedColoursLieBetween : Obligations.DerivedColoursLieBetween := by
  intro oba b w ch hch
  obtain ⟨x, y, hxy⟩ : ∃ x y, ch = (x, y, derivedPair (mode4 w.raw0 w.raw1) x y) := by
    obtain ⟨hr, hg, hb⟩ := makePalette_derived oba (mode4 w.raw0 w.raw1) w.c0 w.c1
    simp only [List.mem_cons, List.not_mem_nil, or_false] at hch
    rcases hch with rfl | rfl | rfl
    · exact ⟨w.c0.r, w.c1.r, congrArg _ (congrArg _ hr)⟩
    · exact ⟨w.c0.g, w.c1.g, congrArg _ (congrArg _ hg)⟩
    · exact ⟨w.c0.b, w.c1.b, congrArg _ (congrArg _ hb)⟩
  subst hxy
  refine ⟨fun hmode => ?_, fun hmode => ?_⟩
  · rw [show mode4 w.raw0 w.raw1 = true from decide_eq_true hmode]
    exact derivedPair_fourColour x y
  · rw [show mode4 w.raw0 w.raw1 = false from decide_eq_false (Nat.not_lt.2 hmode)]
    exact derivedPair_threeColour x y

end Sys2Proof.Machine
end

section
/-! Dispatch (46_dispatch.md R202 to R211): START and ACK outside BUSY, the two ways in which a whole command ends,
DEC's turns up to DONE, and what a linear format reads of the dimensions. -/

namespace Sys2Proof.Machine

open Sys2Proof.Claims

/-! ### START and ACK (R202, R210) -/

/-- START of a valid command outside BUSY, with all five registers written: sampling takes them as they are. -/
theorem State.start_of_written {s : State} (hb : s.status ≠ .busy) (hw : s.written.all) (hv : validate s.cmd = none) :
    s.start = { s with seq := 0, sub := 0 }.accept := by
  have hsample := State.sample_of_written s hw
  rw [State.start, if_neg hb, State.startCommand_accepted (hsample.symm ▸ hv), hsample]

/-- Settles O40: validation passes, so START accepts the written registers. -/
theorem startAccepts : Obligations.StartAccepts := by
  intro s hb hw hfirst
  have hstart := State.start_of_written hb ((Written.all_iff _).2 hw) ((firstError_none_iff _).1 hfirst)
  exact congrArg (fun t => Host.Outcome.next (State.setCtrl t (s.ctrl &&& 2#2))) hstart

theorem State.acknowledge_ended {s : State} (h : s.status = .done ∨ s.status = .error) :
    s.acknowledge = { s with status := .idle, err := ⟨.none, 0⟩ } := by
  rcases h with h | h <;> simp only [State.acknowledge, h]

theorem State.acknowledge_idle {s : State} (h : s.status = .idle) : s.acknowledge = s := by
  simp only [State.acknowledge, h]

/-- Settles O43: the pulse is consumed in every STATUS, and only an ended command is acknowledged. -/
theorem ackAcknowledges : Obligations.AckAcknowledges := by
  intro s
  have hexec : exec .ack s = .next (s.acknowledge.setCtrl (s.ctrl &&& 1#2)) := rfl
  refine ⟨fun hended => ?_, fun hother => ?_⟩
  · rw [hexec, State.acknowledge_ended hended]; rfl
  · rw [hexec, hother.elim State.acknowledge_idle State.acknowledge_busy]; rfl

/-! ### How a whole command ends (R203 to R208, R211) -/

/-- The two ends of a whole command with these registers: accepted, it has a loader and runs to DONE; refused, it
leaves the exception of its first failing check. -/
inductive CommandEnd (i : Instr) (s : State) (c : Cmd) : Prop where
  | accepted (d : Datapath) (t : State) (loader : loaderOf s.params.nibbles c.fmt = some d)
      (valid : validate c = none) (run : exec i s = .next t) (leaves : Accomplished s t c d)
  | refused (e : ErrorKind) (invalid : validate c = some e)
      (trap : exec i s = .next ({ s.writeCmd c with seq := 0, sub := 0 }.raise e))

/-- Outside BUSY a command of any of the 32 codes has one of the two ends. -/
theorem command_end {i : Instr} {s : State} {w : Nat} (henc : encode s.params i = .cmd w) (hb : s.status ≠ .busy) :
    CommandEnd i s (Cmd.unpack s.params w) := by
  rcases instr_shape s.params i with ⟨f, d, a, -, he, hd, hm⟩ | ⟨f, a, -, he, hf, hm⟩ | rfl | rfl
  · rw [unpack_of_encode (he ▸ henc)]
    cases hv : validate (a.toCmd s.params f) with
    | none => exact .accepted d _ hd hv (hm s rfl) (State.runCommand_spec hb hd hv)
    | some e => exact .refused e hv ((hm s rfl).trans (congrArg _ (State.runCommand_refused hb hv d)))
  · rw [unpack_of_encode (he ▸ henc)]
    exact .refused _ (validate_unsupported hf) ((hm s rfl).trans (congrArg _ (State.refuseCommand_eq hb hf a)))
  · cases henc
  · cases henc

/-- Settles O45: a command with a failing check is refused, with that check's exception. -/
theorem invalidCommandTraps : Obligations.InvalidCommandTraps := by
  intro i w s k henc hb hfirst
  rw [firstError_eq] at hfirst
  rcases command_end henc hb with ⟨d, t, -, hv, -, -⟩ | ⟨e, hv, htrap⟩
  · rw [hv] at hfirst
    cases hfirst
  · rw [hv] at hfirst
    cases hfirst
    exact ⟨e.err, ⟨rfl, rfl⟩, htrap⟩

/-- Settles O47: no instruction stops; of the two ends of a command the accepted one is DONE, the refused one ERROR. -/
theorem commandsAreTotal : Obligations.CommandsAreTotal := by
  intro i s
  obtain ⟨t, ht⟩ := exec_next i s
  refine ⟨t, ht, fun w henc hb => ?_⟩
  rw [firstError_none_iff]
  rcases command_end henc hb with ⟨d, u, -, hv, hrun, hleaves⟩ | ⟨e, hv, htrap⟩
  · cases ht.symm.trans hrun
    exact iff_of_true hleaves.status hv
  · cases ht.symm.trans htrap
    exact iff_of_false nofun (by rw [hv]; nofun)

/-! ### DEC's turns up to DONE (R208; 70_reset_and_hazards.md R280) -/

/-- A turn of a running command ends it, or leaves it BUSY with one more pixel done, marked or not. -/
theorem Running.turn_done_or_busy {s : State} {d : Datapath} (h : Running s d) (hb : s.status = .busy) :
    (d.turn s).status = .done ∨ ((d.turn s).status = .busy ∧ d.pos (d.turn s) = d.pos s + 1) := by
  rcases h.turn_cases with he | he
  · rw [he]; exact .inr ⟨(d.pixel_status s).trans hb, d.pixel_pos s⟩
  · rw [he]; exact .inl (State.complete_status _)

theorem Inv.running_of_loader {s : State} {d : Datapath} (h : Inv s) (hb : s.status = .busy)
    (hd : loaderOf s.params.nibbles s.cmd.fmt = some d) : Running s d := by
  obtain ⟨d', hr⟩ := h.running hb
  cases hd.symm.trans hr.loader
  exact hr

/-- With HOST making no move, a running command with at most `n` pixels left reaches DONE in at most `n` steps. -/
theorem runSteps_done {d : Datapath} (n : Nat) {s : State} (hinv : Inv s) (hr : Running s d) (hb : s.status = .busy)
    (hbus : s.bus = []) (hn : d.turns s.cmd ≤ d.pos s + n) :
    ∃ k ≤ n, ∃ t, runSteps k s = .next t ∧ t.status = .done ∧ RunFrame s t := by
  induction n generalizing s with
  | zero => exact absurd hn (Nat.not_le.2 (d.pos_lt_turns.2 hr.inBound))
  | succ n ih =>
    have hstep : step s = .next (d.turn s) := (step_of_idle hinv.pulses hbus).trans (hr.decTurn_eq hb)
    have hframe := d.turn_frame s
    rcases hr.turn_done_or_busy hb with hdone | ⟨hbusy, hpos⟩
    · exact ⟨1, Nat.le_add_left 1 n, d.turn s, runSteps_step hstep 0, hdone, hframe⟩
    · have hinv' := d.turn_inv hr.loader hinv hb
      have hr' := hinv'.running_of_loader hbusy (by rw [hframe.params, hframe.cmd]; exact hr.loader)
      have hleft : d.turns (d.turn s).cmd ≤ d.pos (d.turn s) + n := by
        rw [hframe.cmd, hpos]; omega
      obtain ⟨k, hk, t, hrun, hdone, hrest⟩ := ih hinv' hr' hbusy (hframe.bus.trans hbus) hleft
      exact ⟨k + 1, Nat.succ_le_succ hk, t, (runSteps_step hstep k).trans hrun, hdone, hframe.trans' hrest⟩

/-- Settles O53: a command has as many turns as pixels, and the turns change neither ERR nor a command register. -/
theorem acceptedCommandCompletes : Obligations.AcceptedCommandCompletes := by
  intro s hinv hb hbus
  obtain ⟨d, hr⟩ := hinv.running hb
  have hturns := d.turns_eq (validate_dimsOk hr.loader hr.valid)
  obtain ⟨n, hn, t, hrun, hdone, hframe⟩ := runSteps_done (d.turns s.cmd) hinv hr hb hbus (Nat.le_add_left _ _)
  exact ⟨n, hturns ▸ hn, t, hrun, hdone, hframe.err.trans (hinv.err_of_busy hb), hframe.cmd⟩

/-! ### Linear formats read the dimensions as their product (R206) -/

/-- The codes below 20 select a linear loader. -/
theorem exists_linear_loader (k : NibbleMap) {f : BitVec Config.fmtw} (hf : f.toNat < 20) :
    ∃ bpp load, loaderOf k f = some (.linear bpp load) := by
  cases hd : loaderOf k f with
  | none =>
    have hnone := (loaderOf_none_iff k f).1 hd
    omega
  | some d =>
    cases d with
    | linear bpp load => exact ⟨bpp, load, rfl⟩
    | block oba =>
      have hblock : f.toNat = 20 ∨ f.toNat = 21 := by simpa [isBlockFormat, Datapath.isBlock] using loaderOf_block hd
      omega

theorem registers_eq_toCmd (p : Params) (f : BitVec Config.fmtw) (a : CmdArgs) :
    registers p f.toNat a = a.toCmd p f := by
  simp only [registers, BitVec.ofNat_toNat, BitVec.setWidth_eq]; rfl

/-- Registers that hold values of their widths are encoded by their bits. -/
theorem encode_decodeCmd_of_fits {p : Params} {c : Cmd} (h : c.fits p) : encode p (decodeCmd c) = .cmd (c.pack p) := by
  rw [encode_decodeCmd, CmdArgs.encode, Cmd.toCmd_args h]

/-- What a linear command with valid operands leaves: DONE, and its pixels painted in the order of SRC. -/
theorem exec_linear {f : BitVec Config.fmtw} {bpp : Nat} {load : InReg → LoadOut} {a : CmdArgs} {s t : State}
    (hd : loaderOf s.params.nibbles f = some (.linear bpp load)) (hb : s.status ≠ .busy)
    (hvalid : ValidLinear s.params bpp a) (ht : exec (decodeCmd (registers s.params f.toNat a)) s = .next t) :
    t.status = .done ∧ t.dst = paint s.dst id ((Datapath.linear bpp load).outAt s.src) 0 (a.width * a.height) := by
  have hfits := a.toCmd_fits s.params f
  have hend := command_end (encode_decodeCmd_of_fits hfits) hb
  rw [Cmd.unpack_pack hfits] at hend
  rw [registers_eq_toCmd] at ht
  rcases hend with ⟨d, u, hd', -, hrun, hleaves⟩ | ⟨e, hv, -⟩
  · cases ht.symm.trans hrun
    cases hd.symm.trans hd'
    refine ⟨hleaves.status, ?_⟩
    rw [hleaves.dst, CmdArgs.toCmd_of_fits (fits_of_validLinear hd hvalid)]
    rfl
  · rw [validate_of_validLinear hd hvalid] at hv
    cases hv

/-- Settles O56: both commands are valid, and paint the same pixels at the same addresses. -/
theorem linearSeesOnlyTheProduct : Obligations.LinearSeesOnlyTheProduct := by
  intro f w h n d s t t' hf hw hh harea hb hm hn hlen ht ht'
  obtain ⟨bpp, load, hd⟩ := exists_linear_loader s.params.nibbles hf
  have hsrc : srcLenOf f.toNat w h = w * h * bpp := srcLenOf_eq_stride (c := ⟨f, w, h, n, d⟩) hd
  have hpos : 0 < w * h := Nat.mul_pos hw hh
  have hvalid : ValidLinear s.params bpp ⟨w, h, n, d⟩ :=
    ⟨⟨hw, (Nat.le_mul_of_pos_right w hh).trans_lt harea⟩, ⟨hh, (Nat.le_mul_of_pos_left h hw).trans_lt harea⟩,
      hn.trans hsrc, hlen⟩
  have hvalid' : ValidLinear s.params bpp ⟨w * h, 1, n, d⟩ :=
    ⟨⟨hpos, harea⟩, ⟨Nat.one_pos, Nat.lt_of_le_of_lt hpos harea⟩,
      by rw [Nat.mul_one]; exact hn.trans hsrc, by rw [Nat.mul_one]; exact hlen⟩
  obtain ⟨hdone, hdst⟩ := exec_linear hd hb hvalid ht
  obtain ⟨hdone', hdst'⟩ := exec_linear hd hb hvalid' ht'
  refine ⟨hdone, hdone', ?_⟩
  rw [hdst, hdst', Nat.mul_one]

end Sys2Proof.Machine
end

section
/-! Exceptions (60_exceptions.md R230 to R239): START of an invalid command, DST after a command that ends in ERROR, and
which of HOST's moves are refused. -/

namespace Sys2Proof.Machine

open Sys2Proof.Claims

/-! ### Trap entry (R236, R238) -/

/-- START of an invalid command outside BUSY, with all five registers written: sampling takes them as they are. -/
theorem State.start_refused_of_written {s : State} {e : ErrorKind} (hb : s.status ≠ .busy) (hw : s.written.all)
    (hv : validate s.cmd = some e) : s.start = { s with seq := 0, sub := 0 }.raise e := by
  have hsample := State.sample_of_written s hw
  rw [State.start, if_neg hb, State.startCommand_refused (hsample.symm ▸ hv), hsample]

/-- Settles O41: validation fails, so START raises its first failing check on the written registers. -/
theorem startTraps : Obligations.StartTraps := by
  intro s k hb hw hfirst
  rw [firstError_eq] at hfirst
  obtain ⟨e, hv, rfl⟩ := Option.map_eq_some_iff.1 hfirst
  have hstart := State.start_refused_of_written hb ((Written.all_iff _).2 hw) hv
  exact ⟨e.err, ⟨rfl, rfl⟩, congrArg (fun t => Host.Outcome.next (State.setCtrl t (s.ctrl &&& 2#2))) hstart⟩

/-! ### DST after ERROR (R237) -/

/-- START writes no byte of DST, whether it accepts or raises. -/
theorem State.start_dst (s : State) : s.start.dst = s.dst := by
  by_cases hb : s.status = .busy
  · rw [State.start_busy hb]
  · rw [State.start_eq_of_not_busy hb]
    cases validate s.sampledCmd <;> exact State.sample_dst s

/-- Of the two ends of a whole command ERROR is the refused one, which has not begun to write. -/
theorem command_dst_of_error {i : Instr} {s t : State} {w : Nat} (henc : encode s.params i = .cmd w)
    (hb : s.status ≠ .busy) (e : exec i s = .next t) (herr : t.status = .error) : t.dst = s.dst := by
  rcases command_end henc hb with ⟨d, u, -, -, hrun, hleaves⟩ | ⟨kind, -, htrap⟩
  · cases e.symm.trans hrun
    rw [hleaves.status] at herr
    cases herr
  · cases e.symm.trans htrap
    rfl

/-- Settles O46: a whole command by its two ends; the pulses write no byte of DST. -/
theorem noPartialWrites : Obligations.NoPartialWrites := by
  intro i s t hb e herr off
  suffices hdst : t.dst = s.dst by rw [hdst]
  rcases instr_shape s.params i with ⟨f, d, a, -, he, -, -⟩ | ⟨f, a, -, he, -, -⟩ | rfl | rfl
  · exact command_dst_of_error he hb e herr
  · exact command_dst_of_error he hb e herr
  · cases e; exact State.start_dst s
  · cases e; exact State.acknowledge_dst s

/-! ### Which moves are refused (R239; log 5, log 22) -/

/-- How one move of HOST ends: it goes on, or it names a register or an offset that does not exist. -/
inductive MoveEnd (m : HostMove) (s : State) : Prop where
  | goesOn (t : State) (next : hostMove m s = .next t)
  | noRegister (n : Nat) (above : 7 < n) (refused : hostMove m s = .refused (.noSuchRegister n))
      (names : (∃ v, m = .write n v) ∨ m = .read n)
  | noOffset (off : Nat) (past : 2 ^ s.params.lenw ≤ off) (refused : hostMove m s = .refused (.noSuchOffset off))
      (names : accesses m off)

theorem Reg.exists_ofNumber? {n : Nat} (h : n ≤ 7) : ∃ r, Reg.ofNumber? n = some r := by
  interval_cases n <;> exact ⟨_, rfl⟩

theorem servePulses_next (s : State) : ∃ t, servePulses s = .next t := by
  rcases servePulses_cases s with ⟨-, h⟩ | ⟨-, h⟩ | ⟨-, h⟩ | ⟨-, h⟩ <;> exact ⟨_, h⟩

/-- A write of a register that exists goes on: of CTRL by serving its pulses, of the others by one register write. -/
theorem hostWrite_next (r : Reg) (v : Nat) (s : State) : ∃ t, hostWrite r v s = .next t := by
  cases r with
  | ctrl => exact servePulses_next _
  | _ => exact ⟨_, rfl⟩

theorem hostLoadDst_next (off : Nat) (s : State) : ∃ t, hostLoadDst off s = .next t := by
  unfold hostLoadDst
  split <;> exact ⟨_, rfl⟩

/-- A running command has a loader, so DEC's turn does not fault. -/
theorem decTurn_next {s : State} (h : Inv s) : ∃ t, decTurn s = .next t := by
  by_cases hb : s.status = .busy
  · obtain ⟨d, hr⟩ := h.running hb
    exact ⟨_, hr.decTurn_eq hb⟩
  · exact ⟨s, if_neg hb⟩

/-- A load or store goes on exactly where its offset exists. -/
theorem moveEnd_access {m : HostMove} {s : State} {off : Nat} {access : State → Result}
    (hm : hostMove m s = atOffset off s access) (hnames : accesses m off) (hnext : ∃ t, access s = .next t) :
    MoveEnd m s := by
  rcases Nat.lt_or_ge off (2 ^ s.params.lenw) with hlt | hge
  · obtain ⟨t, ht⟩ := hnext
    exact .goesOn t (hm.trans ((atOffset_lt hlt access).trans ht))
  · exact .noOffset off hge (hm.trans (atOffset_ge hge access)) hnames

/-- Every move of HOST has one of the three ends under the invariant, which only `wait`, DEC's turn, needs. -/
theorem moveEnd {s : State} (h : Inv s) (m : HostMove) : MoveEnd m s := by
  cases m with
  | write n v =>
    rcases Nat.lt_or_ge 7 n with habove | hle
    · exact .noRegister n habove (by rw [hostMove, Reg.ofNumber?_none habove]) (.inl ⟨v, rfl⟩)
    · obtain ⟨r, hr⟩ := Reg.exists_ofNumber? hle
      obtain ⟨t, ht⟩ := hostWrite_next r v s
      exact .goesOn t (by rw [hostMove, hr]; exact ht)
  | read n =>
    rcases Nat.lt_or_ge 7 n with habove | hle
    · exact .noRegister n habove (by rw [hostMove, Reg.ofNumber?_none habove]) (.inr rfl)
    · obtain ⟨r, hr⟩ := Reg.exists_ofNumber? hle
      exact .goesOn _ (by rw [hostMove, hr]; rfl)
  | storeSrc off v => exact moveEnd_access rfl (.inl ⟨v, rfl⟩) ⟨_, rfl⟩
  | loadSrc off => exact moveEnd_access rfl (.inr (.inr (.inl rfl))) ⟨_, rfl⟩
  | storeDst off v => exact moveEnd_access rfl (.inr (.inl ⟨v, rfl⟩)) ⟨_, rfl⟩
  | loadDst off => exact moveEnd_access rfl (.inr (.inr (.inr rfl))) (hostLoadDst_next off s)
  | command w =>
    obtain ⟨t, ht⟩ := exec_next (decodeCmd (Cmd.unpack s.params w)) s
    exact .goesOn t ht
  | reset => exact .goesOn _ rfl
  | wait =>
    obtain ⟨t, ht⟩ := decTurn_next h
    exact .goesOn t ht

/-- Settles O21: no pulse is pending, DEC's turn goes on, and HOST's next move has one of its three ends. -/
theorem stepsGoOn : Obligations.StepsGoOn := by
  intro s h
  cases hbus : s.bus with
  | nil =>
    rw [step_of_idle h.pulses hbus]
    exact .inl (decTurn_next h)
  | cons m rest =>
    have hrest : Inv { s with bus := rest } := h.of_same rfl rfl rfl rfl rfl rfl rfl rfl rfl rfl
    rw [step_of_move h.pulses hbus, nextHostMove_of_bus h.pulses hbus]
    rcases moveEnd hrest m with ⟨t, hnext⟩ | ⟨n, habove, hrefused, hnames⟩ | ⟨off, hpast, hrefused, hnames⟩
    · exact .inl ⟨t, hnext⟩
    · refine .inr (.inl ⟨n, habove, hrefused, hnames.imp ?_ (congrArg some)⟩)
      rintro ⟨v, rfl⟩
      exact ⟨v, rfl⟩
    · exact .inr (.inr ⟨off, m, hpast, hrefused, rfl, hnames⟩)

end Sys2Proof.Machine
end

section
/-! RESET (70_reset_and_hazards.md R260, R261): the whole step is `hostReset`, whose fields do not depend on STATUS but
for DST. -/

namespace Sys2Proof.Machine

theorem step_reset {s : State} {rest : List HostMove} (hc : s.ctrl = 0) (hbus : s.bus = .reset :: rest) :
    step s = .next (State.hostReset { s with bus := rest }) :=
  step_of_move hc hbus

/-- Settles O17: the reset values, and with no command running DST is left as it is. -/
theorem hostReset : Obligations.HostReset := by
  intro s rest hc hbus hb
  have hdst : (State.hostReset { s with bus := rest }).dst = s.dst :=
    (State.hostReset_dst { s with bus := rest }).trans (if_neg hb)
  exact ⟨_, step_reset hc hbus, rfl, rfl, rfl, rfl, rfl, rfl, rfl, State.hostReset_src _, hdst, State.hostReset_bus _⟩

/-- Settles O18: the reset values, and DST as the abandoned command's declared range is spoiled. -/
theorem hostResetWhileBusy : Obligations.HostResetWhileBusy := by
  intro s rest hc hbus hb hm
  have hread : ∀ off, (State.hostReset { s with bus := rest }).dst.read off =
      if off < s.cmd.dstLen then Config.freeValue 8 (s.free + off) else s.dst.read off := fun off => by
    rw [State.hostReset_dst, if_pos hb]
    exact State.read_scrambleDst (s := { s with bus := rest }) hm off
  exact ⟨_, step_reset hc hbus, rfl, rfl, rfl, rfl, rfl, rfl, rfl, State.hostReset_src _, State.hostReset_bus _,
    fun off ho => (hread off).trans (if_pos ho), fun off ho => (hread off).trans (if_neg (Nat.not_lt.2 ho))⟩

end Sys2Proof.Machine
end
